-- ==== Sys2Proof/Word.lean ====
section
/-! DEFINITION. The word types of CORE: bytes, 32-bit words, 14-bit offsets (00_scope R9, R10). -/

namespace Sys2Proof

/-- One byte: a buffer cell, and the unit of every byte sequence (00_scope R11). -/
abbrev Byte := BitVec 8

/-- A 32-bit value: a command word, a control register, a cipher key word (00_scope R9). -/
abbrev Word := BitVec 32

/-- An offset into the register space, 14 bits (00_scope R9, 20_memory R60). -/
abbrev Offset := BitVec 14

end Sys2Proof
end

