-- ==== Sys2Proof/Syntax.lean ====
section
/-! DEFINITION. The eleven commands (30_encoding R93), one constructor per row of the opcode table. -/

namespace Sys2Proof

/-- The hash variant, argument ALG of the two INIT commands (30_encoding R92, 40_hash R120). -/
inductive HashAlg where
  /-- code 0 -/
  | sha256
  /-- code 1 -/
  | sha512
  deriving DecidableEq, Repr

/-- A command. ALG is one of its two legal values; KBITS is the key length in bits, a count, of
which every 16-bit value is well formed; ZMASK is the five wipe bits ARG[4:0] (30_encoding R92). -/
inductive Instr where
  /-- HASH_INIT, OP 0x10 (40_hash R135) -/
  | hashInit (alg : HashAlg)
  /-- HASH_UPDATE, OP 0x11 (40_hash R136) -/
  | hashUpdate
  /-- HASH_FINAL, OP 0x12 (40_hash R137) -/
  | hashFinal
  /-- HMAC_INIT, OP 0x20 (41_hmac R162) -/
  | hmacInit (alg : HashAlg)
  /-- HMAC_UPDATE, OP 0x21 (41_hmac R163) -/
  | hmacUpdate
  /-- HMAC_FINAL, OP 0x22 (41_hmac R164) -/
  | hmacFinal
  /-- AES_SCHEDULE, OP 0x30 (42_aes R192) -/
  | aesSchedule (kbits : Nat)
  /-- AES_ENCRYPT, OP 0x31 (42_aes R193) -/
  | aesEncrypt
  /-- CTR_INIT, OP 0x40 (43_ctr R222) -/
  | ctrInit
  /-- CTR_PROCESS, OP 0x41 (43_ctr R223) -/
  | ctrProcess
  /-- ZEROIZE, OP 0xF0 (44_system R240) -/
  | zeroize (zmask : BitVec 5)
  deriving DecidableEq, Repr

end Sys2Proof
end

