-- ==== Sys2Proof/WellFormed.lean ====
section
/-! DEFINITION. Which command terms have an encoding (30_encoding R92). -/

namespace Sys2Proof

/-- A command is well formed when its argument fits its field. The only operand that its type does
not already bound is KBITS, which is the raw 16-bit ARG (30_encoding R92: "every value 0 to 65535
is a well-formed command"). -/
def Instr.wellFormed : Instr → Bool
  | .hashInit _ => true
  | .hashUpdate => true
  | .hashFinal => true
  | .hmacInit _ => true
  | .hmacUpdate => true
  | .hmacFinal => true
  | .aesSchedule kbits => decide (kbits < 65536)
  | .aesEncrypt => true
  | .ctrInit => true
  | .ctrProcess => true
  | .zeroize _ => true

end Sys2Proof
end

