-- ==== Sys2Proof/Decode.lean ====
section
/-! DEFINITION. Decoding a command word, and the encoder (30_encoding R90 to R102). -/

namespace Sys2Proof

/-- `OP = cmd[7:0]` (30_encoding R91). -/
def opField (w : Word) : BitVec 8 := w.extractLsb' 0 8

/-- `RSV = cmd[15:8]`, reserved, must be 0 (30_encoding R91). -/
def rsvField (w : Word) : BitVec 8 := w.extractLsb' 8 8

/-- `ARG = cmd[31:16]` (30_encoding R91). -/
def argField (w : Word) : BitVec 16 := w.extractLsb' 16 16

/-- Format C: `cmd = ARG * 65536 + OP`, RSV zero (30_encoding R91). -/
def formatC (arg : BitVec 16) (op : BitVec 8) : Word := arg ++ (0#8 ++ op)

/-- Why a word is not a command, the cases of 30_encoding R97. -/
inductive IllegalEncoding where
  /-- RSV is not 0 -/
  | reservedBits
  /-- OP is none of the eleven -/
  | unknownOpcode
  /-- HASH_INIT or HMAC_INIT with ARG of 2 or more -/
  | reservedAlg
  /-- ZEROIZE with a bit of ARG[15:5] set -/
  | reservedMask
  /-- a command without argument, with ARG not 0 -/
  | argumentNotZero
  deriving DecidableEq, Repr

/-- ALG: 0 is SHA-256, 1 is SHA-512, every other value is reserved (30_encoding R92). -/
def decodeAlg (arg : BitVec 16) : Except IllegalEncoding HashAlg :=
  if arg = 0 then .ok .sha256
  else if arg = 1 then .ok .sha512
  else .error .reservedAlg

/-- A command without argument: ARG must be 0 (30_encoding R92). -/
def decodePlain (arg : BitVec 16) (i : Instr) : Except IllegalEncoding Instr :=
  if arg = 0 then .ok i else .error .argumentNotZero

/-- ZMASK = ARG[4:0]; ARG[15:5] must be 0 (30_encoding R92). -/
def decodeMask (arg : BitVec 16) : Except IllegalEncoding (BitVec 5) :=
  if arg.extractLsb' 5 11 = 0 then .ok (arg.extractLsb' 0 5) else .error .reservedMask

/-- The decoder: every one of the 2^32 words is one of the eleven commands or is rejected by name
(30_encoding R93, R97). -/
def decode (w : Word) : Except IllegalEncoding Instr :=
  if rsvField w ≠ 0 then .error .reservedBits
  else if opField w = 0x10 then (decodeAlg (argField w)).map .hashInit
  else if opField w = 0x11 then decodePlain (argField w) .hashUpdate
  else if opField w = 0x12 then decodePlain (argField w) .hashFinal
  else if opField w = 0x20 then (decodeAlg (argField w)).map .hmacInit
  else if opField w = 0x21 then decodePlain (argField w) .hmacUpdate
  else if opField w = 0x22 then decodePlain (argField w) .hmacFinal
  else if opField w = 0x30 then .ok (.aesSchedule (argField w).toNat)
  else if opField w = 0x31 then decodePlain (argField w) .aesEncrypt
  else if opField w = 0x40 then decodePlain (argField w) .ctrInit
  else if opField w = 0x41 then decodePlain (argField w) .ctrProcess
  else if opField w = 0xF0 then (decodeMask (argField w)).map .zeroize
  else .error .unknownOpcode

/-- The code of a hash variant (30_encoding R92). -/
def HashAlg.code : HashAlg → BitVec 16
  | .sha256 => 0
  | .sha512 => 1

/-- The OP value of a command (30_encoding R93). -/
def Instr.opcode : Instr → BitVec 8
  | .hashInit _ => 0x10
  | .hashUpdate => 0x11
  | .hashFinal => 0x12
  | .hmacInit _ => 0x20
  | .hmacUpdate => 0x21
  | .hmacFinal => 0x22
  | .aesSchedule _ => 0x30
  | .aesEncrypt => 0x31
  | .ctrInit => 0x40
  | .ctrProcess => 0x41
  | .zeroize _ => 0xF0

/-- The ARG value of a command (30_encoding R92). -/
def Instr.argument : Instr → BitVec 16
  | .hashInit alg => alg.code
  | .hashUpdate => 0
  | .hashFinal => 0
  | .hmacInit alg => alg.code
  | .hmacUpdate => 0
  | .hmacFinal => 0
  | .aesSchedule kbits => BitVec.ofNat 16 kbits
  | .aesEncrypt => 0
  | .ctrInit => 0
  | .ctrProcess => 0
  | .zeroize zmask => zmask.setWidth 16

/-- The word of a command (30_encoding R91, R93). -/
def encode (i : Instr) : Word := formatC i.argument i.opcode

/-- A row of the opcode map: it selects a word when `(word and mask) = match` (30_encoding R93). -/
structure OpcodeRow where
  mnemonic : String
  mask : Word
  pattern : Word
  deriving DecidableEq, Repr

/-- The mask and match columns of 30_encoding R93, row by row. A second statement of the encoding;
the decoder does not read it. -/
def opcodeRows : List OpcodeRow :=
  [ ⟨"HASH_INIT", 0xFFFEFFFF, 0x00000010⟩,
    ⟨"HASH_UPDATE", 0xFFFFFFFF, 0x00000011⟩,
    ⟨"HASH_FINAL", 0xFFFFFFFF, 0x00000012⟩,
    ⟨"HMAC_INIT", 0xFFFEFFFF, 0x00000020⟩,
    ⟨"HMAC_UPDATE", 0xFFFFFFFF, 0x00000021⟩,
    ⟨"HMAC_FINAL", 0xFFFFFFFF, 0x00000022⟩,
    ⟨"AES_SCHEDULE", 0x0000FFFF, 0x00000030⟩,
    ⟨"AES_ENCRYPT", 0xFFFFFFFF, 0x00000031⟩,
    ⟨"CTR_INIT", 0xFFFFFFFF, 0x00000040⟩,
    ⟨"CTR_PROCESS", 0xFFFFFFFF, 0x00000041⟩,
    ⟨"ZEROIZE", 0xFFE0FFFF, 0x000000F0⟩ ]

/-- The row selects the word (30_encoding R93). -/
def OpcodeRow.selects (r : OpcodeRow) (w : Word) : Bool := w &&& r.mask == r.pattern

/-- The 32-bit word of an instruction whose low `nbits` bits are those of `w`, every bit above them
zero. A command word is one 32-bit value moved whole, so no byte order enters (20_memory R69,
30_encoding R90). -/
def commandWord (nbits w : Nat) : Word := BitVec.ofNat 32 (w % 2 ^ nbits)

/-- The host's numbered word, read by the decoder. -/
def decodeTableWord (nbits w : Nat) : Option Instr := (decode (commandWord nbits w)).toOption

end Sys2Proof
end

