-- ==== Sys2Proof/Machine/Bytes.lean ====
section
/-! DEFINITION. Byte sequences and big-endian integers (00_scope R11, R12). -/

namespace Sys2Proof.Machine

/-- `be(X)`, the unsigned integer whose big-endian representation is X (00_scope R12). -/
def be (x : List Byte) : Nat := x.foldl (fun acc b => 256 * acc + b.toNat) 0

/-- `bytes_be(v, n)`, the n bytes X with `be(X) = v` (00_scope R12). -/
def bytesBE (v n : Nat) : List Byte :=
  (List.range n).map fun i => BitVec.ofNat 8 (v / 256 ^ (n - 1 - i))

/-- `X xor Y` bytewise (00_scope R11). -/
def xorBytes (x y : List Byte) : List Byte := List.zipWith (· ^^^ ·) x y

/-- `X xor c^|X|`. -/
def xorByte (x : List Byte) (c : Byte) : List Byte := x.map (· ^^^ c)

/-- The first `n` elements of `l`, filled up with zeros. -/
def padTo {w : Nat} (n : Nat) (l : List (BitVec w)) : Vector (BitVec w) n :=
  ⟨⟨(l ++ List.replicate n 0).take n⟩, by simp⟩

/-- Cut a byte sequence into `n` consecutive groups of `k` bytes and read each big-endian
(40_hash R122, 42_aes R185). -/
def wordsBE (w k : Nat) : Nat → List Byte → List (BitVec w)
  | 0, _ => []
  | n + 1, x => BitVec.ofNat w (be (x.take k)) :: wordsBE w k n (x.drop k)

end Sys2Proof.Machine
end

