-- ==== Sys2Proof/Config.lean ====
section
/-! DEFINITION. What an implementation of CORE fixes (00_scope R8, R9). -/

namespace Sys2Proof

/-- The parameter DMAX, bytes in each of the two buffers, inside the range the spec gives it
(00_scope R8). No command and no reset changes it (70_reset R301). -/
structure Config where
  dmax : Nat
  dmax_lower : 129 ≤ dmax
  dmax_upper : dmax ≤ 4096
  deriving DecidableEq, Repr

/-- The default DMAX = 256 (00_scope R8). -/
def Config.standard : Config :=
  { dmax := 256, dmax_lower := by decide, dmax_upper := by decide }

end Sys2Proof
end

