-- ==== Sys2Proof/Machine/State.lean ====
section
/-! DEFINITION. The state of CORE (10_state R20 to R39), why a step can stop, and the state after
reset (70_reset R301). -/

namespace Sys2Proof.Machine

/-- The outcome code ERR of the latest command, 4 bits; codes 7 to 15 never occur (10_state R24,
60_exceptions R260). -/
inductive ErrCode where
  /-- 0, every command that completes -/
  | ok
  /-- 1, a cipher key that is not 128, 192 or 256 bits (R261) -/
  | invalidKeySize
  /-- 2, update or finalisation of a finalised context (R262) -/
  | invalidStateReuse
  /-- 3, a keystream block past the counter value 2^128 - 1 (R263) -/
  | counterOverflow
  /-- 4, a word that is no command (R264) -/
  | illegalCommand
  /-- 5, DLEN above DMAX, or a hash length at its bound (R265) -/
  | invalidLength
  /-- 6, a context that does not exist (R266) -/
  | noState
  deriving DecidableEq, Repr

/-- The lifecycle phase of a hash context; code 3 never occurs (10_state R29). -/
inductive Phase where
  /-- 0, no state exists -/
  | empty
  /-- 1, created by INIT, accepting UPDATE and FINAL -/
  | active
  /-- 2, terminal, entered by FINAL -/
  | final
  deriving DecidableEq, Repr

/-- Eight hash words of `w` bits, index 0 first (10_state R30, 40_hash R120). -/
structure HashWords (w : Nat) where
  h0 : BitVec w
  h1 : BitVec w
  h2 : BitVec w
  h3 : BitVec w
  h4 : BitVec w
  h5 : BitVec w
  h6 : BitVec w
  h7 : BitVec w
  deriving DecidableEq, Repr

/-- Eight zero words. -/
def HashWords.zero (w : Nat) : HashWords w := ⟨0, 0, 0, 0, 0, 0, 0, 0⟩

/-- A hash context record: the running digest, the partial-block buffer, the number of bytes
absorbed (10_state R30). `total` is a natural number; its bound is an invariant (40_hash R121). -/
structure HashCtx where
  h : HashWords 64
  buf : Vector Byte 128
  total : Nat
  deriving DecidableEq, Repr

/-- A record not in use is all zero (10_state R30). -/
def HashCtx.zero : HashCtx := ⟨HashWords.zero 64, Vector.replicate 128 0, 0⟩

/-- HS, the standalone HashEngine context (10_state R31). -/
structure HashUnit where
  phase : Phase
  alg : HashAlg
  ctx : HashCtx
  deriving DecidableEq, Repr

/-- HS wiped: EMPTY, variant code 0, record zero (44_system R240, 70_reset R301). -/
def HashUnit.wiped : HashUnit := ⟨.empty, .sha256, HashCtx.zero⟩

/-- HM, the HmacEngine context: one phase and two records (10_state R32). -/
structure HmacUnit where
  phase : Phase
  alg : HashAlg
  inner : HashCtx
  outer : HashCtx
  deriving DecidableEq, Repr

/-- HM wiped (44_system R240, 70_reset R301). -/
def HmacUnit.wiped : HmacUnit := ⟨.empty, .sha256, HashCtx.zero, HashCtx.zero⟩

/-- CK.nk, the cipher key length in 32-bit words: 0, 4, 6 or 8, no other value (10_state R33). -/
inductive KeyWords where
  /-- 0, no schedule -/
  | none
  /-- 4, a 128-bit key -/
  | four
  /-- 6, a 192-bit key -/
  | six
  /-- 8, a 256-bit key -/
  | eight
  deriving DecidableEq, Repr

/-- CK, the BlockCipherCore context: the key schedule (10_state R33). -/
structure CipherUnit where
  valid : Bool
  nk : KeyWords
  rk : Vector Word 60
  deriving DecidableEq, Repr

/-- CK wiped (44_system R240, 70_reset R301). -/
def CipherUnit.wiped : CipherUnit := ⟨false, .none, Vector.replicate 60 0⟩

/-- CS, the CounterModeStream context: counter block, keystream block, cursor, wrap flag
(10_state R34). `cur` is at most 16; that bound is an invariant. -/
structure StreamUnit where
  active : Bool
  ctr : Vector Byte 16
  ks : Vector Byte 16
  cur : Nat
  wrapped : Bool
  deriving DecidableEq, Repr

/-- CS wiped; the cursor is 0 here, not 16 (44_system R240, 70_reset R301). -/
def StreamUnit.wiped : StreamUnit := ⟨false, Vector.replicate 16 0, Vector.replicate 16 0, 0, false⟩

/-- The buffer cells of the register space as (offset, byte) pairs: DIN[i] at 0x1000 + i, DOUT[i] at
0x2000 + i (20_memory R61). Canonical form: offsets strictly rising, no entry equal to what an
unlisted offset reads as (`Memory.wf`). -/
abbrev Memory := List Host.Cell

/-- What an unlisted cell reads as: 0, the reset value of every cell (10_state R27, R28). -/
def Memory.unlisted : Byte := 0

/-- The canonical form of a memory. -/
abbrev Memory.wf (m : Memory) : Prop :=
  m.Pairwise (fun c d => c.1 < d.1) ∧ ∀ c ∈ m, c.2 ≠ Memory.unlisted

/-- What can arrive at the port: the four kinds of host access (20_memory R62) and the platform's
reset step (70_reset R300). -/
inductive HostMove where
  /-- `MemRead(off, 4)` -/
  | read32 (off : Offset)
  /-- `MemRead(off, 1)` -/
  | read8 (off : Offset)
  /-- `MemWrite(off, 4, v)` -/
  | write32 (off : Offset) (v : Word)
  /-- `MemWrite(off, 1, v)` -/
  | write8 (off : Offset) (v : Byte)
  /-- the reset step -/
  | reset
  deriving DecidableEq, Repr

/-- What the port answers to an access (20_memory R64 to R66). -/
inductive Reply where
  /-- an accepted 32-bit read -/
  | word (v : Word)
  /-- an accepted 8-bit read -/
  | byte (v : Byte)
  /-- an accepted write -/
  | written
  /-- a refused read: an error response, and the data given -/
  | refusedRead (v : Word)
  /-- a refused write: an error response -/
  | refusedWrite
  deriving DecidableEq, Repr

/-- The state. The elements of 10_state R20, the configuration, and two fields of the model's own:
`moves`, what the port is still to accept (oldest first), and `replies`, what it has answered
(newest first) (log entries 1 and 3). -/
structure State where
  /-- DMAX; no step changes it -/
  cfg : Config
  err : ErrCode
  dlen : Word
  dolen : Word
  /-- the cells of DIN and DOUT -/
  mem : Memory
  hs : HashUnit
  hm : HmacUnit
  ck : CipherUnit
  cs : StreamUnit
  moves : List HostMove
  replies : List Reply
  deriving DecidableEq, Repr

/-- Why the machine stops with a fault: never. "Nothing in CORE is treated as `fault`, `stuck` or
`any value`: every command on every state has one defined outcome" (93 section 1). Safe. -/
inductive Fault where
  deriving DecidableEq, Repr

/-- Why a command has no meaning. -/
inductive Refusal where
  /-- Raised by an arm of `exec` whose command has no meaning yet; every command has one, so no
  step raises it. Safe. -/
  | notModelled (mnemonic : String)
  deriving DecidableEq, Repr

/-- The machine right after reset: every element zero (70_reset R301); DMAX the spec's default
(log entry 3), no access waiting and none answered (log entry 1). -/
def State.reset : State where
  cfg := Config.standard
  err := .ok
  dlen := 0
  dolen := 0
  mem := []
  hs := HashUnit.wiped
  hm := HmacUnit.wiped
  ck := CipherUnit.wiped
  cs := StreamUnit.wiped
  moves := []
  replies := []

end Sys2Proof.Machine
end

