-- ==== Sys2Proof/Machine/Ops.lean ====
section
/-! DEFINITION. The named operations over memory and registers; the common endings `done` and
`fail` of every command (30_encoding R98, 60_exceptions R268); the reset step (70_reset R300). -/

namespace Sys2Proof.Machine

/-! ### The cells of the register space -/

/-- One cell. -/
def Memory.read : Memory → Nat → Byte
  | [], _ => Memory.unlisted
  | c :: m, a => if c.1 = a then c.2 else Memory.read m a

/-- Cell `a` back at what an unlisted cell reads as. -/
def Memory.erase (m : Memory) (a : Nat) : Memory := m.filter fun c => c.1 != a

/-- List a cell at its place in rising order. -/
def Memory.insert : Memory → Nat → Byte → Memory
  | [], a, b => [(a, b)]
  | c :: m, a, b => if a < c.1 then (a, b) :: c :: m else c :: Memory.insert m a b

/-- Write one cell; writing what an unlisted cell reads as removes the entry. -/
def Memory.write (m : Memory) (a : Nat) (b : Byte) : Memory :=
  if b = Memory.unlisted then m.erase a else (m.erase a).insert a b

/-- Write consecutive cells from `a` up. -/
def Memory.writeBytes : Memory → Nat → List Byte → Memory
  | m, _, [] => m
  | m, a, b :: bs => Memory.writeBytes (m.write a b) (a + 1) bs

/-- Every cell of `[a, a + n)` to 0. -/
def Memory.wipe (m : Memory) (a n : Nat) : Memory :=
  m.filter fun c => c.1 < a || a + n ≤ c.1

/-! ### Places in the register space (20_memory R61) -/

def cmdOffset : Nat := 0x0000
def statusOffset : Nat := 0x0004
def dlenOffset : Nat := 0x0008
def dolenOffset : Nat := 0x000C
def dinBase : Nat := 0x1000
def doutBase : Nat := 0x2000

/-! ### One update per element of the state -/

def State.withErr (s : State) (e : ErrCode) : State := { s with err := e }
def State.withDlen (s : State) (v : Word) : State := { s with dlen := v }
def State.withDolen (s : State) (v : Word) : State := { s with dolen := v }
def State.withMem (s : State) (m : Memory) : State := { s with mem := m }
def State.withHs (s : State) (u : HashUnit) : State := { s with hs := u }
def State.withHm (s : State) (u : HmacUnit) : State := { s with hm := u }
def State.withCk (s : State) (u : CipherUnit) : State := { s with ck := u }
def State.withCs (s : State) (u : StreamUnit) : State := { s with cs := u }
def State.withMoves (s : State) (ms : List HostMove) : State := { s with moves := ms }
def State.withReplies (s : State) (rs : List Reply) : State := { s with replies := rs }

/-- The port answers an access. -/
def State.answer (s : State) (r : Reply) : State := s.withReplies (r :: s.replies)

/-! ### DIN and DOUT (10_state R27, R28) -/

/-- `DIN[i]`. -/
def State.din (s : State) (i : Nat) : Byte := s.mem.read (dinBase + i)

/-- `DOUT[i]`. -/
def State.dout (s : State) (i : Nat) : Byte := s.mem.read (doutBase + i)

/-- `DIN[i] <- 0 for i = 0 .. DMAX-1` (41_hmac R162, 42_aes R192, 44_system R240). -/
def State.wipeDin (s : State) : State := s.withMem (s.mem.wipe dinBase s.cfg.dmax)

/-- Rewrite all of DOUT: `out`, then zeros, DMAX cells in all (30_encoding R98). -/
def State.setDout (s : State) (out : List Byte) : State :=
  s.withMem ((s.mem.wipe doutBase s.cfg.dmax).writeBytes doutBase (out.take s.cfg.dmax))

/-! ### The endings of a command -/

/-- The state after `done(out)`: ERR 0, DOLEN the length, all of DOUT rewritten (30_encoding R98). -/
def State.completed (s : State) (out : List Byte) : State :=
  ((s.withErr .ok).withDolen (BitVec.ofNat 32 out.length)).setDout out

/-- `done(out)`, the ending of every command that completes (30_encoding R98). -/
def done (out : List Byte) (s : State) : Host.Outcome State Fault Refusal := .next (s.completed out)

/-- `fail(E)`, an error taken: ERR is written and no other bit of CORE changes; there is no handler
and nothing to return from (00_scope R14, 60_exceptions R268, R269). -/
def fail (e : ErrCode) (s : State) : Host.Outcome State Fault Refusal := .next (s.withErr e)

/-! ### The checks of a command, each the error it finds; `Option.or` takes the first one (30_encoding
R96, 60_exceptions R267) -/

/-- Step 2 of 30_encoding R95 for a length-taking command: DLEN against DMAX. -/
def lengthCheck (s : State) : Option ErrCode :=
  if s.dlen.toNat > s.cfg.dmax then some .invalidLength else none

/-- The phase of a context that an UPDATE or a FINAL needs: NoState when EMPTY, InvalidStateReuse
when FINAL (40_hash R136, R137, 41_hmac R163, R164). -/
def phaseCheck : Phase → Option ErrCode
  | .empty => some .noState
  | .final => some .invalidStateReuse
  | .active => none

/-- A context that a flag says exists (42_aes R193, 43_ctr R222, R223). -/
def existsCheck (flag : Bool) : Option ErrCode := if flag then none else some .noState

/-- `total + DLEN` against LIM (40_hash R121). -/
def limitCheck (limit total : Nat) (s : State) : Option ErrCode :=
  if total + s.dlen.toNat ≥ limit then some .invalidLength else none

/-! ### Reset -/

/-- The reset step: every element of 10_state R20 to its reset value; the configuration, the
accesses still waiting and the answers given are not state of CORE (70_reset R300, R301). -/
def State.resetStep (s : State) : State :=
  { State.reset with cfg := s.cfg, moves := s.moves, replies := s.replies }

end Sys2Proof.Machine
end

