-- ==== Sys2Proof/Machine/Operands.lean ====
section
/-! DEFINITION. The operands of the commands: where their bytes come from (20_memory R70) and what
their arguments mean (30_encoding R92). -/

namespace Sys2Proof.Machine

/-- `DIN[0 .. n)`: every operand starts at index 0 (20_memory R70). -/
def State.operand (s : State) (n : Nat) : List Byte := (List.range n).map s.din

/-- `DIN[0 .. DLEN)`, the operand of a length-taking command (10_state R25). -/
def State.dlenOperand (s : State) : List Byte := s.operand s.dlen.toNat

/-- `DOUT[0 .. n)`. -/
def State.result (s : State) (n : Nat) : List Byte := (List.range n).map s.dout

/-- Nk, the key length in words, of an accepted KBITS; every other KBITS is refused
(42_aes R180, R192). -/
def keyWordsOf (kbits : Nat) : Option KeyWords :=
  if kbits = 128 then some .four
  else if kbits = 192 then some .six
  else if kbits = 256 then some .eight
  else none

/-- The number that CK.nk holds (10_state R33). -/
def KeyWords.count : KeyWords → Nat
  | .none => 0
  | .four => 4
  | .six => 6
  | .eight => 8

/-- `Nr = Nk + 6` (42_aes R180). -/
def KeyWords.rounds (k : KeyWords) : Nat := k.count + 6

/-- The block size B in bytes (40_hash R120). -/
def blockSize : HashAlg → Nat
  | .sha256 => 64
  | .sha512 => 128

/-- The digest size N in bytes (40_hash R120). -/
def digestSize : HashAlg → Nat
  | .sha256 => 32
  | .sha512 => 64

/-- The length-suffix size L in bytes (40_hash R120). -/
def suffixSize : HashAlg → Nat
  | .sha256 => 8
  | .sha512 => 16

/-- The word size in bytes, w / 8 (40_hash R120). -/
def wordSize : HashAlg → Nat
  | .sha256 => 4
  | .sha512 => 8

/-- LIM(alg), the bound that `total` stays below (40_hash R121). -/
def lengthLimit : HashAlg → Nat
  | .sha256 => 2 ^ 61
  | .sha512 => 2 ^ 125

/-! ZMASK, one bit per target (44_system R240). -/

def wipesHash (zmask : BitVec 5) : Bool := zmask.getLsbD 0
def wipesHmac (zmask : BitVec 5) : Bool := zmask.getLsbD 1
def wipesCipher (zmask : BitVec 5) : Bool := zmask.getLsbD 2
def wipesStream (zmask : BitVec 5) : Bool := zmask.getLsbD 3
def wipesDin (zmask : BitVec 5) : Bool := zmask.getLsbD 4

end Sys2Proof.Machine
end

