-- ==== Sys2Proof/Machine/Rijndael.lean ====
section
/-! DEFINITION. AES: field arithmetic, tables, key expansion and the encryption round transform
(42_aes R180 to R191), which the spec gives 'from general knowledge' (log entry 10). A cipher state
is the 16-byte sequence S with `S[r + 4*c] = s[r][c]` (R181). -/

namespace Sys2Proof.Machine

/-- `xtime(a)`, multiplication by x modulo x^8 + x^4 + x^3 + x + 1 (42_aes R182). -/
def xtime (a : Byte) : Byte := if a < 0x80 then 2 * a else (2 * a) ^^^ 0x1B

/-- `gmul(a, b)`, the xor over the set bits i of b of `xtime^i(a)` (42_aes R182). -/
def gmul (a b : Byte) : Byte :=
  (List.range 8).foldl (fun acc i => if b.getLsbD i then acc ^^^ Nat.repeat xtime i a else acc) 0

/-- Row x of the table of 42_aes R183, sixteen entries packed as the spec writes them, column 0
first. -/
def sboxRow : Nat → BitVec 128
  | 0 => 0x637c777bf26b6fc53001672bfed7ab76
  | 1 => 0xca82c97dfa5947f0add4a2af9ca472c0
  | 2 => 0xb7fd9326363ff7cc34a5e5f171d83115
  | 3 => 0x04c723c31896059a071280e2eb27b275
  | 4 => 0x09832c1a1b6e5aa0523bd6b329e32f84
  | 5 => 0x53d100ed20fcb15b6acbbe394a4c58cf
  | 6 => 0xd0efaafb434d338545f9027f503c9fa8
  | 7 => 0x51a3408f929d38f5bcb6da2110fff3d2
  | 8 => 0xcd0c13ec5f974417c4a77e3d645d1973
  | 9 => 0x60814fdc222a908846eeb814de5e0bdb
  | 10 => 0xe0323a0a4906245cc2d3ac629195e479
  | 11 => 0xe7c8376d8dd54ea96c56f4ea657aae08
  | 12 => 0xba78252e1ca6b4c6e8dd741f4bbd8b8a
  | 13 => 0x703eb5664803f60e613557b986c11d9e
  | 14 => 0xe1f8981169d98e949b1e87e9ce5528df
  | _ => 0x8ca1890dbfe6426841992d0fb054bb16

/-- `SBOX[a]`: the high nibble of `a` selects the row, the low nibble the column (42_aes R183). -/
def sbox (a : Byte) : Byte :=
  (sboxRow (a.toNat / 16)).extractLsb' (8 * (15 - a.toNat % 16)) 8

/-- `RCON[i]`, i = 1 .. 10 (42_aes R184). -/
def rcon (i : Nat) : Byte :=
  ([0x01, 0x02, 0x04, 0x08, 0x10, 0x20, 0x40, 0x80, 0x1b, 0x36] : List Byte).getD (i - 1) 0

/-- `SubWord(x)`: SBOX on each of the four bytes, places kept (42_aes R185). -/
def subWord (x : Word) : Word :=
  sbox (x.extractLsb' 24 8) ++ sbox (x.extractLsb' 16 8)
    ++ sbox (x.extractLsb' 8 8) ++ sbox (x.extractLsb' 0 8)

/-- `RotWord(x) = rotl_32(x, 8)` (42_aes R185). -/
def rotWord (x : Word) : Word := x.rotateLeft 8

/-- The word that `w[i-Nk]` is xored with to give `w[i]`, made from `t = w[i-1]` (42_aes R186). -/
def expansionTerm (nk i : Nat) (t : Word) : Word :=
  if i % nk = 0 then subWord (rotWord t) ^^^ ((rcon (i / nk)).setWidth 32 <<< 24)
  else if nk = 8 ∧ i % 8 = 4 then subWord t
  else t

/-- `n` more words w[i], w[i+1], …, newest word first (42_aes R186). -/
def expandFrom (nk : Nat) : Nat → Nat → List Word → List Word
  | 0, _, ws => ws
  | n + 1, i, ws => expandFrom nk n (i + 1) ((ws.getD (nk - 1) 0 ^^^ expansionTerm nk i (ws.getD 0 0)) :: ws)

/-- `KeyExpansion(K)` for a key of Nk words: `w[0 .. 4*(Nk+7) - 1]` (42_aes R186). -/
def keyExpansion (nk : Nat) (key : List Byte) : List Word :=
  (expandFrom nk (4 * (nk + 7) - nk) nk (wordsBE 32 4 nk key).reverse).reverse

/-- `SubBytes(S)` (42_aes R187). -/
def subBytes (s : List Byte) : List Byte := s.map sbox

/-- `ShiftRows(S)`, as the permutation of byte indices of 42_aes R188. -/
def shiftRows (s : List Byte) : List Byte :=
  [0, 5, 10, 15, 4, 9, 14, 3, 8, 13, 2, 7, 12, 1, 6, 11].map fun i => s.getD i 0

/-- `MixColumns(S)`, column after column (42_aes R189). -/
def mixColumns : List Byte → List Byte
  | a0 :: a1 :: a2 :: a3 :: rest =>
    (gmul a0 2 ^^^ gmul a1 3 ^^^ a2 ^^^ a3)
      :: (a0 ^^^ gmul a1 2 ^^^ gmul a2 3 ^^^ a3)
      :: (a0 ^^^ a1 ^^^ gmul a2 2 ^^^ gmul a3 3)
      :: (gmul a0 3 ^^^ a1 ^^^ a2 ^^^ gmul a3 2)
      :: mixColumns rest
  | _ => []

/-- Round key number n as 16 bytes: the words `w[4n .. 4n+3]`, each big-endian (42_aes R186, R190). -/
def roundKey (w : List Word) (n : Nat) : List Byte :=
  [0, 1, 2, 3].flatMap fun c => bytesBE (w.getD (4 * n + c) 0).toNat 4

/-- `AddRoundKey(S, w, n)` (42_aes R190). -/
def addRoundKey (s : List Byte) (w : List Word) (n : Nat) : List Byte := xorBytes s (roundKey w n)

/-- One full round, number n (42_aes R191). -/
def fullRound (w : List Word) (s : List Byte) (n : Nat) : List Byte :=
  addRoundKey (mixColumns (shiftRows (subBytes s))) w n

/-- `Cipher(w, Nr, X)`: the initial key addition, rounds 1 .. Nr-1, the last round without
MixColumns (42_aes R191). -/
def cipher (w : List Word) (nr : Nat) (x : List Byte) : List Byte :=
  let s := ((List.range (nr - 1)).map (· + 1)).foldl (fullRound w) (addRoundKey x w 0)
  addRoundKey (shiftRows (subBytes s)) w nr

/-- `Cipher(CK.rk, CK.nk + 6, X)` (42_aes R193, 43_ctr R220). -/
def CipherUnit.encrypt (ck : CipherUnit) (x : List Byte) : List Byte :=
  cipher ck.rk.toList ck.nk.rounds x

end Sys2Proof.Machine
end

