-- ==== Sys2Proof/Machine/Aes.lean ====
section
/-! DEFINITION. The meanings of the BlockCipherCore commands (42_aes R192, R193). -/

namespace Sys2Proof.Machine

/-- The context that a key makes: its schedule, zeros above it (42_aes R192). -/
def scheduleOf (nk : KeyWords) (key : List Byte) : CipherUnit :=
  ⟨true, nk, padTo 60 (keyExpansion nk.count key)⟩

/-- AES_SCHEDULE: the key `DIN[0 .. KBITS/8)` expanded into CK; the stream and all of DIN wiped
(42_aes R192). -/
def execAesSchedule (kbits : Nat) (s : State) : Host.Outcome State Fault Refusal :=
  match keyWordsOf kbits with
  | none => fail .invalidKeySize s
  | some nk =>
    done [] ((s.withCk (scheduleOf nk (s.operand (4 * nk.count)))).withCs StreamUnit.wiped).wipeDin

/-- AES_ENCRYPT: the block `DIN[0 .. 16)` under CK to DOUT (42_aes R193). -/
def execAesEncrypt (s : State) : Host.Outcome State Fault Refusal :=
  match existsCheck s.ck.valid with
  | some e => fail e s
  | none => done (s.ck.encrypt (s.operand 16)) s

end Sys2Proof.Machine
end

