-- ==== Sys2Proof/Machine/Ctr.lean ====
section
/-! DEFINITION. The keystream generator and the meanings of the CounterModeStream commands
(43_ctr R220 to R224). -/

namespace Sys2Proof.Machine

/-- `Inc(C) = bytes_be((be(C) + 1) mod 2^128, 16)` (43_ctr R221). -/
def incCounter (c : Vector Byte 16) : Vector Byte 16 :=
  padTo 16 (bytesBE ((be c.toList + 1) % 2 ^ 128) 16)

/-- A fresh keystream block: the counter block is encrypted, then incremented; the increment from
2^128 - 1 wraps to 0 and sets the warning flag (43_ctr R223, R224). -/
def StreamUnit.refill (ck : CipherUnit) (cs : StreamUnit) : StreamUnit :=
  { cs with
    ks := padTo 16 (ck.encrypt cs.ctr.toList)
    ctr := incCounter cs.ctr
    wrapped := cs.wrapped || be cs.ctr.toList == 2 ^ 128 - 1
    cur := 0 }

/-- A block is made only when a byte of it is needed (43_ctr R223). -/
def StreamUnit.ready (ck : CipherUnit) (cs : StreamUnit) : StreamUnit :=
  if cs.cur = 16 then cs.refill ck else cs

/-- One turn of the loop of CTR_PROCESS: the output byte and the stream after it (43_ctr R223). -/
def StreamUnit.processByte (ck : CipherUnit) (cs : StreamUnit) (b : Byte) : Byte × StreamUnit :=
  let c := cs.ready ck
  (b ^^^ c.ks.toList.getD c.cur 0, { c with cur := c.cur + 1 })

/-- The loop of CTR_PROCESS over a chunk (43_ctr R223). -/
def StreamUnit.process (ck : CipherUnit) : StreamUnit → List Byte → List Byte × StreamUnit
  | cs, [] => ([], cs)
  | cs, b :: bs =>
    let r := cs.processByte ck b
    let rest := StreamUnit.process ck r.2 bs
    (r.1 :: rest.1, rest.2)

/-- m, the new keystream blocks that n bytes need: 0 when the current block has them, else
`ceil((n - avail) / 16)` (43_ctr R223). -/
def StreamUnit.newBlocks (cs : StreamUnit) (n : Nat) : Nat :=
  let avail := 16 - cs.cur
  if n ≤ avail then 0 else (n - avail + 15) / 16

/-- The chunk would need a block past the counter value 2^128 - 1 (43_ctr R223, R224). -/
def StreamUnit.overflows (cs : StreamUnit) (n : Nat) : Bool :=
  let m := cs.newBlocks n
  decide (m ≥ 1) && (cs.wrapped || decide (be cs.ctr.toList + m - 1 > 2 ^ 128 - 1))

/-- The value-dependent check of CTR_PROCESS (43_ctr R223). -/
def overflowCheck (s : State) : Option ErrCode :=
  if s.cs.overflows s.dlen.toNat then some .counterOverflow else none

/-- CTR_INIT: a stream at the counter `DIN[0 .. 16)`, no keystream yet (43_ctr R222). -/
def execCtrInit (s : State) : Host.Outcome State Fault Refusal :=
  match existsCheck s.ck.valid with
  | some e => fail e s
  | none => done [] (s.withCs ⟨true, padTo 16 (s.operand 16), Vector.replicate 16 0, 16, false⟩)

/-- CTR_PROCESS: `DIN[0 .. DLEN)` xor the next DLEN keystream bytes to DOUT; a chunk that would pass
the last counter value fails whole (43_ctr R223, R224). -/
def execCtrProcess (s : State) : Host.Outcome State Fault Refusal :=
  match (lengthCheck s).or ((existsCheck s.cs.active).or (overflowCheck s)) with
  | some e => fail e s
  | none =>
    done (StreamUnit.process s.ck s.cs s.dlenOperand).1
      (s.withCs (StreamUnit.process s.ck s.cs s.dlenOperand).2)

end Sys2Proof.Machine
end

