-- ==== Sys2Proof/Machine/Sha2.lean ====
section
/-! DEFINITION. The compression functions of SHA-256 and SHA-512 and their constant tables
(40_hash R122 to R131), which the spec gives 'from general knowledge' (log entry 10). -/

namespace Sys2Proof.Machine

/-- IV256, the initial hash words of SHA-256 (40_hash R123). -/
def iv256 : HashWords 32 :=
  ⟨0x6a09e667, 0xbb67ae85, 0x3c6ef372, 0xa54ff53a,
   0x510e527f, 0x9b05688c, 0x1f83d9ab, 0x5be0cd19⟩

/-- K256, the sixty-four round constants of SHA-256, a line of the spec a line here (40_hash R124). -/
def k256 : List (BitVec 32) :=
  [0x428a2f98, 0x71374491, 0xb5c0fbcf, 0xe9b5dba5, 0x3956c25b, 0x59f111f1, 0x923f82a4, 0xab1c5ed5]
  ++ [0xd807aa98, 0x12835b01, 0x243185be, 0x550c7dc3, 0x72be5d74, 0x80deb1fe, 0x9bdc06a7, 0xc19bf174]
  ++ [0xe49b69c1, 0xefbe4786, 0x0fc19dc6, 0x240ca1cc, 0x2de92c6f, 0x4a7484aa, 0x5cb0a9dc, 0x76f988da]
  ++ [0x983e5152, 0xa831c66d, 0xb00327c8, 0xbf597fc7, 0xc6e00bf3, 0xd5a79147, 0x06ca6351, 0x14292967]
  ++ [0x27b70a85, 0x2e1b2138, 0x4d2c6dfc, 0x53380d13, 0x650a7354, 0x766a0abb, 0x81c2c92e, 0x92722c85]
  ++ [0xa2bfe8a1, 0xa81a664b, 0xc24b8b70, 0xc76c51a3, 0xd192e819, 0xd6990624, 0xf40e3585, 0x106aa070]
  ++ [0x19a4c116, 0x1e376c08, 0x2748774c, 0x34b0bcb5, 0x391c0cb3, 0x4ed8aa4a, 0x5b9cca4f, 0x682e6ff3]
  ++ [0x748f82ee, 0x78a5636f, 0x84c87814, 0x8cc70208, 0x90befffa, 0xa4506ceb, 0xbef9a3f7, 0xc67178f2]

/-- IV512, the initial hash words of SHA-512 (40_hash R129). -/
def iv512 : HashWords 64 :=
  ⟨0x6a09e667f3bcc908, 0xbb67ae8584caa73b, 0x3c6ef372fe94f82b, 0xa54ff53a5f1d36f1,
   0x510e527fade682d1, 0x9b05688c2b3e6c1f, 0x1f83d9abfb41bd6b, 0x5be0cd19137e2179⟩

/-- K512, the eighty round constants of SHA-512, a line of the spec a line here (40_hash R130). -/
def k512 : List (BitVec 64) :=
  [0x428a2f98d728ae22, 0x7137449123ef65cd, 0xb5c0fbcfec4d3b2f, 0xe9b5dba58189dbbc]
  ++ [0x3956c25bf348b538, 0x59f111f1b605d019, 0x923f82a4af194f9b, 0xab1c5ed5da6d8118]
  ++ [0xd807aa98a3030242, 0x12835b0145706fbe, 0x243185be4ee4b28c, 0x550c7dc3d5ffb4e2]
  ++ [0x72be5d74f27b896f, 0x80deb1fe3b1696b1, 0x9bdc06a725c71235, 0xc19bf174cf692694]
  ++ [0xe49b69c19ef14ad2, 0xefbe4786384f25e3, 0x0fc19dc68b8cd5b5, 0x240ca1cc77ac9c65]
  ++ [0x2de92c6f592b0275, 0x4a7484aa6ea6e483, 0x5cb0a9dcbd41fbd4, 0x76f988da831153b5]
  ++ [0x983e5152ee66dfab, 0xa831c66d2db43210, 0xb00327c898fb213f, 0xbf597fc7beef0ee4]
  ++ [0xc6e00bf33da88fc2, 0xd5a79147930aa725, 0x06ca6351e003826f, 0x142929670a0e6e70]
  ++ [0x27b70a8546d22ffc, 0x2e1b21385c26c926, 0x4d2c6dfc5ac42aed, 0x53380d139d95b3df]
  ++ [0x650a73548baf63de, 0x766a0abb3c77b2a8, 0x81c2c92e47edaee6, 0x92722c851482353b]
  ++ [0xa2bfe8a14cf10364, 0xa81a664bbc423001, 0xc24b8b70d0f89791, 0xc76c51a30654be30]
  ++ [0xd192e819d6ef5218, 0xd69906245565a910, 0xf40e35855771202a, 0x106aa07032bbd1b8]
  ++ [0x19a4c116b8d2d0c8, 0x1e376c085141ab53, 0x2748774cdf8eeb99, 0x34b0bcb5e19b48a8]
  ++ [0x391c0cb3c5c95a63, 0x4ed8aa4ae3418acb, 0x5b9cca4f7763e373, 0x682e6ff3d6b2b8a3]
  ++ [0x748f82ee5defb2fc, 0x78a5636f43172f60, 0x84c87814a1f0ab72, 0x8cc702081a6439ec]
  ++ [0x90befffa23631e28, 0xa4506cebde82bde9, 0xbef9a3f7b2c67915, 0xc67178f2e372532b]
  ++ [0xca273eceea26619c, 0xd186b8c721c0c207, 0xeada7dd6cde0eb1e, 0xf57d4f7fee6ed178]
  ++ [0x06f067aa72176fba, 0x0a637dc5a2c898a6, 0x113f9804bef90dae, 0x1b710b35131c471b]
  ++ [0x28db77f523047d84, 0x32caab7b40c72493, 0x3c9ebe0a15c9bebc, 0x431d67c49c100d4c]
  ++ [0x4cc5d4becb3e42b6, 0x597f299cfc657e2a, 0x5fcb6fab3ad6faec, 0x6c44198c4a475817]

/-- `rotr_w(a, n)` (00_scope R13). -/
def rotr {w : Nat} (a : BitVec w) (n : Nat) : BitVec w := a.rotateRight n

/-- `Ch(x,y,z)` (40_hash R125). -/
def ch {w : Nat} (x y z : BitVec w) : BitVec w := (x &&& y) ^^^ (~~~x &&& z)

/-- `Maj(x,y,z)` (40_hash R125). -/
def maj {w : Nat} (x y z : BitVec w) : BitVec w := (x &&& y) ^^^ (x &&& z) ^^^ (y &&& z)

/-- `S0` of SHA-256 (40_hash R125). -/
def bigSigma0_256 (x : BitVec 32) : BitVec 32 := rotr x 2 ^^^ rotr x 13 ^^^ rotr x 22
/-- `S1` of SHA-256 (40_hash R125). -/
def bigSigma1_256 (x : BitVec 32) : BitVec 32 := rotr x 6 ^^^ rotr x 11 ^^^ rotr x 25
/-- `s0` of SHA-256 (40_hash R125). -/
def smallSigma0_256 (x : BitVec 32) : BitVec 32 := rotr x 7 ^^^ rotr x 18 ^^^ (x >>> 3)
/-- `s1` of SHA-256 (40_hash R125). -/
def smallSigma1_256 (x : BitVec 32) : BitVec 32 := rotr x 17 ^^^ rotr x 19 ^^^ (x >>> 10)

/-- `S0` of SHA-512 (40_hash R131). -/
def bigSigma0_512 (x : BitVec 64) : BitVec 64 := rotr x 28 ^^^ rotr x 34 ^^^ rotr x 39
/-- `S1` of SHA-512 (40_hash R131). -/
def bigSigma1_512 (x : BitVec 64) : BitVec 64 := rotr x 14 ^^^ rotr x 18 ^^^ rotr x 41
/-- `s0` of SHA-512 (40_hash R131). -/
def smallSigma0_512 (x : BitVec 64) : BitVec 64 := rotr x 1 ^^^ rotr x 8 ^^^ (x >>> 7)
/-- `s1` of SHA-512 (40_hash R131). -/
def smallSigma1_512 (x : BitVec 64) : BitVec 64 := rotr x 19 ^^^ rotr x 61 ^^^ (x >>> 6)

/-- What tells one variant's compression function from the other's (40_hash R125, R131): the four
sigma functions and the round constants. -/
structure CompressionParams (w : Nat) where
  bigSigma0 : BitVec w → BitVec w
  bigSigma1 : BitVec w → BitVec w
  smallSigma0 : BitVec w → BitVec w
  smallSigma1 : BitVec w → BitVec w
  constants : List (BitVec w)

/-- SHA-256: 64 rounds on 32-bit words (40_hash R125). -/
def params256 : CompressionParams 32 :=
  ⟨bigSigma0_256, bigSigma1_256, smallSigma0_256, smallSigma1_256, k256⟩

/-- SHA-512: 80 rounds on 64-bit words (40_hash R131). -/
def params512 : CompressionParams 64 :=
  ⟨bigSigma0_512, bigSigma1_512, smallSigma0_512, smallSigma1_512, k512⟩

/-- The message schedule W, newest word first: `n` words are put before the ones given, each
`W[t] = s1(W[t-2]) + W[t-7] + s0(W[t-15]) + W[t-16]` (40_hash R125, R131). -/
def extendSchedule {w : Nat} (p : CompressionParams w) : Nat → List (BitVec w) → List (BitVec w)
  | 0, ws => ws
  | n + 1, ws =>
    extendSchedule p n
      ((p.smallSigma1 (ws.getD 1 0) + ws.getD 6 0 + p.smallSigma0 (ws.getD 14 0) + ws.getD 15 0)
        :: ws)

/-- W[0], W[1], …: the 16 message words and the words made from them, one for each round
(40_hash R125, R131). -/
def messageSchedule {w : Nat} (p : CompressionParams w) (m : List (BitVec w)) : List (BitVec w) :=
  (extendSchedule p (p.constants.length - 16) m.reverse).reverse

/-- One round: every right-hand side uses the values from before it (40_hash R125, R131). -/
def shaRound {w : Nat} (p : CompressionParams w) (v : HashWords w) (kw : BitVec w × BitVec w) :
    HashWords w :=
  let t1 := v.h7 + p.bigSigma1 v.h4 + ch v.h4 v.h5 v.h6 + kw.1 + kw.2
  let t2 := p.bigSigma0 v.h0 + maj v.h0 v.h1 v.h2
  ⟨t1 + t2, v.h0, v.h1, v.h2, v.h3 + t1, v.h4, v.h5, v.h6⟩

/-- Word by word addition modulo 2^w, the last line of Compress (40_hash R125, R131). -/
def HashWords.add {w : Nat} (x y : HashWords w) : HashWords w :=
  ⟨x.h0 + y.h0, x.h1 + y.h1, x.h2 + y.h2, x.h3 + y.h3,
   x.h4 + y.h4, x.h5 + y.h5, x.h6 + y.h6, x.h7 + y.h7⟩

/-- The compression function on the 16 words of a block (40_hash R125, R131). -/
def compressWords {w : Nat} (p : CompressionParams w) (h : HashWords w) (m : List (BitVec w)) :
    HashWords w :=
  h.add ((p.constants.zip (messageSchedule p m)).foldl (shaRound p) h)

/-- `Compress256(H, X)`, X of 64 bytes (40_hash R122, R125). -/
def compress256 (h : HashWords 32) (x : List Byte) : HashWords 32 :=
  compressWords params256 h (wordsBE 32 4 16 x)

/-- `Compress512(H, X)`, X of 128 bytes (40_hash R122, R131). -/
def compress512 (h : HashWords 64) (x : List Byte) : HashWords 64 :=
  compressWords params512 h (wordsBE 64 8 16 x)

/-- Every word to another width: the low bits, or zeros on top. -/
def HashWords.resize {w : Nat} (v : Nat) (h : HashWords w) : HashWords v :=
  ⟨h.h0.setWidth v, h.h1.setWidth v, h.h2.setWidth v, h.h3.setWidth v,
   h.h4.setWidth v, h.h5.setWidth v, h.h6.setWidth v, h.h7.setWidth v⟩

/-- The words, index 0 first. -/
def HashWords.toList {w : Nat} (h : HashWords w) : List (BitVec w) :=
  [h.h0, h.h1, h.h2, h.h3, h.h4, h.h5, h.h6, h.h7]

/-- `Compress_alg` on the words a record holds: SHA-256 works on the low halves and leaves the high
halves 0 (10_state R30, 40_hash section 4). -/
def compress : HashAlg → HashWords 64 → List Byte → HashWords 64
  | .sha256, h, x => (compress256 (h.resize 32) x).resize 64
  | .sha512, h, x => compress512 h x

/-- The initial hash words a record is given (40_hash R132). -/
def initialWords : HashAlg → HashWords 64
  | .sha256 => iv256.resize 64
  | .sha512 => iv512

end Sys2Proof.Machine
end

