-- ==== Sys2Proof/Machine/HashContext.lean ====
section
/-! DEFINITION. Operations on a hash context record (40_hash R132 to R134, R138). -/

namespace Sys2Proof.Machine

/-- `CtxInit`: the initial words, an empty buffer, nothing absorbed; whatever the record held is
overwritten in full (40_hash R132). -/
def ctxInit (alg : HashAlg) : HashCtx := ⟨initialWords alg, Vector.replicate 128 0, 0⟩

/-- One turn of the loop of `CtxAbsorb`: the byte enters the buffer, the count grows, and a block is
compressed as soon as its last byte arrives (40_hash R133). -/
def ctxAbsorbByte (alg : HashAlg) (c : HashCtx) (b : Byte) : HashCtx :=
  let buf := c.buf.setIfInBounds (c.total % blockSize alg) b
  let total := c.total + 1
  if total % blockSize alg = 0 then
    ⟨compress alg c.h (buf.toList.take (blockSize alg)), Vector.replicate 128 0, total⟩
  else ⟨c.h, buf, total⟩

/-- `CtxAbsorb(c, alg, X)` (40_hash R133). -/
def ctxAbsorb (alg : HashAlg) (c : HashCtx) (x : List Byte) : HashCtx :=
  x.foldl (ctxAbsorbByte alg) c

/-- The padding P of a record: the byte 0x80, z zero bytes, the bit length in L bytes
(40_hash R134). With r < B and L + 1 ≤ B, z = (B - L - 1 - r) mod B is written without a negative
intermediate value. -/
def ctxPadding (alg : HashAlg) (c : HashCtx) : List Byte :=
  let r := c.total % blockSize alg
  let z := (blockSize alg - suffixSize alg - 1 + blockSize alg - r) % blockSize alg
  0x80 :: (List.replicate z 0 ++ bytesBE (8 * c.total) (suffixSize alg))

/-- The digest read from the running words, w/8 bytes of each, big-endian; of SHA-256 these are the
low 32 bits (40_hash R134, 10_state R30). -/
def digestBytes (alg : HashAlg) (h : HashWords 64) : List Byte :=
  h.toList.flatMap fun x => bytesBE x.toNat (wordSize alg)

/-- `CtxFinish(c, alg)`, the digest; the record is of no further use (40_hash R134). -/
def ctxFinish (alg : HashAlg) (c : HashCtx) : List Byte :=
  digestBytes alg (ctxAbsorb alg c (ctxPadding alg c)).h

/-- `Hash(alg, M)` (40_hash R138). -/
def hashOf (alg : HashAlg) (m : List Byte) : List Byte :=
  ctxFinish alg (ctxAbsorb alg (ctxInit alg) m)

end Sys2Proof.Machine
end

