-- ==== Sys2Proof/Machine/Hash.lean ====
section
/-! DEFINITION. The meanings of the HashEngine commands (40_hash R135 to R137). -/

namespace Sys2Proof.Machine

/-- HASH_INIT: a fresh context in every phase (40_hash R135). -/
def execHashInit (alg : HashAlg) (s : State) : Host.Outcome State Fault Refusal :=
  done [] (s.withHs ⟨.active, alg, ctxInit alg⟩)

/-- HASH_UPDATE: absorb `DIN[0 .. DLEN)` (40_hash R136). -/
def execHashUpdate (s : State) : Host.Outcome State Fault Refusal :=
  match (lengthCheck s).or ((phaseCheck s.hs.phase).or
      (limitCheck (lengthLimit s.hs.alg) s.hs.ctx.total s)) with
  | some e => fail e s
  | none => done [] (s.withHs { s.hs with ctx := ctxAbsorb s.hs.alg s.hs.ctx s.dlenOperand })

/-- HASH_FINAL: the digest to DOUT, the record wiped, phase FINAL (40_hash R137). -/
def execHashFinal (s : State) : Host.Outcome State Fault Refusal :=
  match phaseCheck s.hs.phase with
  | some e => fail e s
  | none => done (ctxFinish s.hs.alg s.hs.ctx) (s.withHs ⟨.final, .sha256, HashCtx.zero⟩)

end Sys2Proof.Machine
end

