-- ==== Sys2Proof/Machine/Hmac.lean ====
section
/-! DEFINITION. The HMAC construction and the meanings of the HmacEngine commands
(41_hmac R160 to R164). -/

namespace Sys2Proof.Machine

/-- K0, the normalised key of B bytes: a key longer than B is replaced by its digest, then padded
with zeros (41_hmac R161). -/
def normalizedKey (alg : HashAlg) (key : List Byte) : List Byte :=
  let k1 := if key.length > blockSize alg then hashOf alg key else key
  k1 ++ List.replicate (blockSize alg - k1.length) 0

/-- `K0 xor 0x36^B` (41_hmac R160). -/
def innerPad (alg : HashAlg) (key : List Byte) : List Byte := xorByte (normalizedKey alg key) 0x36

/-- `K0 xor 0x5c^B` (41_hmac R160). -/
def outerPad (alg : HashAlg) (key : List Byte) : List Byte := xorByte (normalizedKey alg key) 0x5c

/-- `HMAC(alg, K, M) = Hash(alg, (K0 xor 0x5c^B) ‖ Hash(alg, (K0 xor 0x36^B) ‖ M))` (41_hmac R160).
The specification of a tag; the commands build it with two records. -/
def hmacOf (alg : HashAlg) (key m : List Byte) : List Byte :=
  hashOf alg (outerPad alg key ++ hashOf alg (innerPad alg key ++ m))

/-- HMAC_INIT: two records seeded with the padded key, then all of DIN wiped (41_hmac R162). -/
def execHmacInit (alg : HashAlg) (s : State) : Host.Outcome State Fault Refusal :=
  match lengthCheck s with
  | some e => fail e s
  | none =>
    done []
      (s.withHm
        ⟨.active, alg, ctxAbsorb alg (ctxInit alg) (innerPad alg s.dlenOperand),
          ctxAbsorb alg (ctxInit alg) (outerPad alg s.dlenOperand)⟩).wipeDin

/-- HMAC_UPDATE: absorb `DIN[0 .. DLEN)` into the inner record (41_hmac R163). -/
def execHmacUpdate (s : State) : Host.Outcome State Fault Refusal :=
  match (lengthCheck s).or ((phaseCheck s.hm.phase).or
      (limitCheck (lengthLimit s.hm.alg) s.hm.inner.total s)) with
  | some e => fail e s
  | none => done [] (s.withHm { s.hm with inner := ctxAbsorb s.hm.alg s.hm.inner s.dlenOperand })

/-- HMAC_FINAL: finish the inner record, feed its digest to the outer, finish that; both records
wiped, phase FINAL (41_hmac R164). -/
def execHmacFinal (s : State) : Host.Outcome State Fault Refusal :=
  match phaseCheck s.hm.phase with
  | some e => fail e s
  | none =>
    done (ctxFinish s.hm.alg (ctxAbsorb s.hm.alg s.hm.outer (ctxFinish s.hm.alg s.hm.inner)))
      (s.withHm ⟨.final, .sha256, HashCtx.zero, HashCtx.zero⟩)

end Sys2Proof.Machine
end

