-- ==== Sys2Proof/Machine/System.lean ====
section
/-! DEFINITION. ZEROIZE (44_system R240, R241). -/

namespace Sys2Proof.Machine

/-- Mask bit 0: HS. -/
def State.zeroizeHash (s : State) (go : Bool) : State := if go then s.withHs HashUnit.wiped else s

/-- Mask bit 1: HM. -/
def State.zeroizeHmac (s : State) (go : Bool) : State := if go then s.withHm HmacUnit.wiped else s

/-- Mask bit 2: CK, and CS with it, because a stream cannot outlive its key schedule. -/
def State.zeroizeCipher (s : State) (go : Bool) : State :=
  if go then (s.withCk CipherUnit.wiped).withCs StreamUnit.wiped else s

/-- Mask bit 3: CS. -/
def State.zeroizeStream (s : State) (go : Bool) : State := if go then s.withCs StreamUnit.wiped else s

/-- Mask bit 4: every cell of DIN, and DLEN. -/
def State.zeroizeDin (s : State) (go : Bool) : State := if go then s.wipeDin.withDlen 0 else s

/-- ZEROIZE: wipe the storage that the mask selects; it fails for no state reason (44_system R240). -/
def execZeroize (zmask : BitVec 5) (s : State) : Host.Outcome State Fault Refusal :=
  done []
    (((((s.zeroizeHash (wipesHash zmask)).zeroizeHmac (wipesHmac zmask)).zeroizeCipher
      (wipesCipher zmask)).zeroizeStream (wipesStream zmask)).zeroizeDin (wipesDin zmask))

end Sys2Proof.Machine
end

