-- ==== Sys2Proof/Machine/Dispatch.lean ====
section
/-! DEFINITION. One arm per command (30_encoding R93). -/

namespace Sys2Proof.Machine

def exec (i : Instr) (s : State) : Host.Outcome State Fault Refusal :=
  match i with
  | .hashInit alg => Sys2Proof.Machine.execHashInit alg s
  | .hashUpdate => Sys2Proof.Machine.execHashUpdate s
  | .hashFinal => Sys2Proof.Machine.execHashFinal s
  | .hmacInit alg => Sys2Proof.Machine.execHmacInit alg s
  | .hmacUpdate => Sys2Proof.Machine.execHmacUpdate s
  | .hmacFinal => Sys2Proof.Machine.execHmacFinal s
  | .aesSchedule kbits => Sys2Proof.Machine.execAesSchedule kbits s
  | .aesEncrypt => Sys2Proof.Machine.execAesEncrypt s
  | .ctrInit => Sys2Proof.Machine.execCtrInit s
  | .ctrProcess => Sys2Proof.Machine.execCtrProcess s
  | .zeroize zmask => Sys2Proof.Machine.execZeroize zmask s

end Sys2Proof.Machine
end

