-- ==== Sys2Proof/Machine/Flags.lean ====
section
/-! DEFINITION. STATUS, the one register of flags: a live view of the state (10_state R23, R37). -/

namespace Sys2Proof.Machine

/-- The 4-bit code of an outcome (10_state R24). -/
def ErrCode.code : ErrCode → Nat
  | .ok => 0
  | .invalidKeySize => 1
  | .invalidStateReuse => 2
  | .counterOverflow => 3
  | .illegalCommand => 4
  | .invalidLength => 5
  | .noState => 6

/-- The 2-bit code of a phase (10_state R29). -/
def Phase.code : Phase → Nat
  | .empty => 0
  | .active => 1
  | .final => 2

/-- The value of HASH_ALG and HMAC_ALG (10_state R23). -/
def algBit : HashAlg → Nat
  | .sha256 => 0
  | .sha512 => 1

/-- KEY_SIZE: ksz(0) = 0, ksz(4) = 1, ksz(6) = 2, ksz(8) = 3 (10_state R23). -/
def keySizeField : KeyWords → Nat
  | .none => 0
  | .four => 1
  | .six => 2
  | .eight => 3

/-- The STATUS formula of 10_state R23. -/
def statusWord (s : State) : Word :=
  BitVec.ofNat 32
    (s.err.code + 16 * s.hs.phase.code + 64 * algBit s.hs.alg + 256 * s.hm.phase.code
      + 1024 * algBit s.hm.alg + 4096 * s.ck.valid.toNat + 8192 * keySizeField s.ck.nk
      + 65536 * s.cs.active.toNat + 131072 * s.cs.wrapped.toNat)

end Sys2Proof.Machine
end

