-- ==== Sys2Proof/Machine/Port.lean ====
section
/-! DEFINITION. The port: how host accesses and the reset step are served (20_memory R60 to R67,
70_reset R300). -/

namespace Sys2Proof.Machine

/-- `MemRead(off, 4)`: STATUS, DLEN and DOLEN answer; every other offset is refused with the data 0
(20_memory R63, R64, R66). -/
def read32Reply (off : Offset) (s : State) : Reply :=
  if off.toNat = statusOffset then .word (statusWord s)
  else if off.toNat = dlenOffset then .word s.dlen
  else if off.toNat = dolenOffset then .word s.dolen
  else .refusedRead 0

/-- `MemRead(off, 1)`: the cells of DOUT answer, every other offset is refused with the data 0
(20_memory R64, R66). -/
def read8Reply (off : Offset) (s : State) : Reply :=
  if doutBase ≤ off.toNat ∧ off.toNat < doutBase + s.cfg.dmax then .byte (s.mem.read off.toNat)
  else .refusedRead 0

/-- Executing the word written to CMD: a word that is no command fails with IllegalCommand
(30_encoding R95 step 1, R97). -/
def executeWord (w : Word) (s : State) : Host.Outcome State Fault Refusal :=
  match decode w with
  | .error _ => fail .illegalCommand s
  | .ok i => exec i s

/-- `MemWrite(off, 4, v)`: CMD executes, DLEN is stored, every other offset is refused
(20_memory R63, R65, R66). The answer to a CMD write stands when its command has run
(00_scope R5); the port gives no other access in between, so it is recorded first. -/
def serveWrite32 (off : Offset) (v : Word) (s : State) : Host.Outcome State Fault Refusal :=
  if off.toNat = cmdOffset then executeWord v (s.answer .written)
  else if off.toNat = dlenOffset then .next ((s.withDlen v).answer .written)
  else .next (s.answer .refusedWrite)

/-- `MemWrite(off, 1, v)`: the cells of DIN are stored, every other offset is refused
(20_memory R65, R66). -/
def serveWrite8 (off : Offset) (v : Byte) (s : State) : Host.Outcome State Fault Refusal :=
  if dinBase ≤ off.toNat ∧ off.toNat < dinBase + s.cfg.dmax then
    .next ((s.withMem (s.mem.write off.toNat v)).answer .written)
  else .next (s.answer .refusedWrite)

/-- Serve one access, or take the reset step. -/
def serve (m : HostMove) (s : State) : Host.Outcome State Fault Refusal :=
  match m with
  | .read32 off => .next (s.answer (read32Reply off s))
  | .read8 off => .next (s.answer (read8Reply off s))
  | .write32 off v => serveWrite32 off v s
  | .write8 off v => serveWrite8 off v s
  | .reset => .next s.resetStep

/-- Serve the oldest waiting access. When none is waiting CORE is idle and keeps all state: it has
no step of its own (00_scope R3, 60_exceptions R277). -/
def serveNext (s : State) : Host.Outcome State Fault Refusal :=
  match s.moves with
  | [] => .next s
  | m :: rest => serve m (s.withMoves rest)

/-- The access that executes a command word: a write of CMD (10_state R22). -/
def commandMove (w : Word) : HostMove := .write32 (BitVec.ofNat 14 cmdOffset) w

/-- A write of CMD put in front of the waiting accesses. -/
def State.withCommand (s : State) (w : Word) : State := s.withMoves (commandMove w :: s.moves)

end Sys2Proof.Machine
end

