-- ==== Sys2Proof/Machine/Step.lean ====
section
/-! DEFINITION. One step of the machine. -/

namespace Sys2Proof.Machine

/-- One step: the port serves the oldest waiting access. -/
def step (s : State) : Host.Outcome State Fault Refusal := serveNext s

/-- `s` with the numbered word as the next thing the host writes to CMD. CORE fetches nothing
(10_state R21): its instruction stream is what the host writes to CMD (log entry 2). -/
def State.withFetchWord (s : State) (nbits w : Nat) : State := s.withCommand (commandWord nbits w)

end Sys2Proof.Machine
end

