-- ==== Sys2Proof/Machine/HostSequences.lean ====
section
/-! DEFINITION. The host's side: the pseudo-instructions of 30_encoding R101 and the convenience
sequences `hash`, `hmac`, `aesCtrTransform` (44_system R243 to R245), as sequences of accesses. Each
assumes one host with the port to itself (44_system section 2). -/

namespace Sys2Proof.Machine

/-- The accesses served one after the other; an outcome other than a next state would leave the
state where it is (no access has one). -/
def State.deliver (s : State) (ms : List HostMove) : State :=
  ms.foldl (fun s m => match serve m s with | .next t => t | _ => s) s

/-- `WR8 0x1000 + i, X[i]` for i = 0 .. |X| - 1, cells from `k` up. -/
def dinWrites : Nat → List Byte → List HostMove
  | _, [] => []
  | k, b :: bs => .write8 (BitVec.ofNat 14 (dinBase + k)) b :: dinWrites (k + 1) bs

/-- `PUTB X`, for |X| ≤ DMAX (30_encoding R101). -/
def putb (x : List Byte) : List HostMove := dinWrites 0 x

/-- `PUT X`, for |X| ≤ DMAX: the bytes, then the length (30_encoding R101). -/
def put (x : List Byte) : List HostMove :=
  putb x ++ [.write32 (BitVec.ofNat 14 dlenOffset) (BitVec.ofNat 32 x.length)]

/-- A command in its written form: the word to CMD (30_encoding R100). -/
def command (i : Instr) : HostMove := commandMove (encode i)

/-- `RD8 0x2000 + i` for i = 0 .. n - 1. -/
def doutReads (n : Nat) : List HostMove :=
  (List.range n).map fun i => .read8 (BitVec.ofNat 14 (doutBase + i))

/-- The value a 32-bit read returned; a refused one returns its data (20_memory R64, R66). -/
def Reply.wordData : Reply → Word
  | .word v | .refusedRead v => v
  | .byte _ | .written | .refusedWrite => 0

/-- The value an 8-bit read returned; a refused one returns its data (20_memory R64, R66). -/
def Reply.byteData : Reply → Byte
  | .byte v => v
  | .refusedRead v => v.extractLsb' 0 8
  | .word _ | .written | .refusedWrite => 0

/-- What the last access, a 32-bit read, returned. -/
def State.lastWord (s : State) : Word := (s.replies.map Reply.wordData).headD 0

/-- What the last n accesses, all of them 8-bit reads, returned, in the order they were made. -/
def State.lastBytes (s : State) (n : Nat) : List Byte :=
  ((s.replies.take n).map Reply.byteData).reverse

/-- `GET -> Y`: `RD32 0x000C -> n`, then `RD8 0x2000 + i -> Y[i]` for i = 0 .. n - 1. The state after
it and Y; n is the value that DOLEN has just read as (30_encoding R101). -/
def State.get (s : State) : State × List Byte :=
  let t := s.deliver [.read32 (BitVec.ofNat 14 dolenOffset)]
  let n := t.lastWord.toNat
  let u := t.deliver (doutReads n)
  (u, u.lastBytes n)

/-- `ERR? -> e`: `RD32 0x0004 -> s`, then `e = s[3:0]`. The state after it and e (30_encoding R101). -/
def State.errQuery (s : State) : State × BitVec 4 :=
  let t := s.deliver [.read32 (BitVec.ofNat 14 statusOffset)]
  (t, t.lastWord.extractLsb' 0 4)

/-- `chunks(X)`: consecutive pieces of n bytes, the last one shorter, none for an empty X; `fuel` is
at least |X| (44_system section 2). -/
def chunksFrom (n : Nat) : Nat → List Byte → List (List Byte)
  | 0, _ => []
  | _, [] => []
  | fuel + 1, x => x.take n :: chunksFrom n fuel (x.drop n)

def chunks (n : Nat) (x : List Byte) : List (List Byte) := chunksFrom n x.length x

/-- `for each piece X: PUT X ; <command>`. -/
def feed (i : Instr) (pieces : List (List Byte)) : List HostMove :=
  pieces.flatMap fun x => put x ++ [command i]

/-- `hash(algorithm, bytes)`: the state after it and the digest read (44_system R243). -/
def hashSequence (alg : HashAlg) (m : List Byte) (s : State) : State × List Byte :=
  State.get (s.deliver
    (command (.hashInit alg) :: feed .hashUpdate (chunks s.cfg.dmax m) ++ [command .hashFinal]))

/-- `hmac(algorithm, key, bytes)`: a key too long for the buffer is first hashed with the
HashEngine (44_system R244). -/
def hmacSequence (alg : HashAlg) (key m : List Byte) (s : State) : State × List Byte :=
  let r := if key.length > s.cfg.dmax then hashSequence alg key s else (s, key)
  State.get (r.1.deliver
    (put r.2 ++ command (.hmacInit alg) :: feed .hmacUpdate (chunks s.cfg.dmax m)
      ++ [command .hmacFinal]))

/-- The pieces of a counter-mode message one after the other: each output is read before the next
piece; the host stops at the first failure (44_system R245). DESIGN CHOICE (log entry 11): what the
host then returns is the code alone. R245 does not say what becomes of the outputs already read,
which 43_ctr R225 lets stand; here they are not part of the result. -/
def ctrPieces : List (List Byte) → State → State × Except (BitVec 4) (List Byte)
  | [], s => (s, .ok [])
  | x :: xs, s =>
    let t := (s.deliver (put x ++ [command .ctrProcess])).errQuery
    if t.2 ≠ 0 then (t.1, .error t.2)
    else
      let u := t.1.get
      let rest := ctrPieces xs u.1
      (rest.1, rest.2.map (u.2 ++ ·))

/-- `aesCtrTransform(key, counter, bytes)`, for |key| ≤ DMAX and |counter| = 16. If a command fails
the host stops with its code and still releases the key (44_system R245). DESIGN CHOICE (log entry
11): a failed call returns that code and no bytes, whichever command failed. -/
def aesCtrSequence (key counter m : List Byte) (s : State) :
    State × Except (BitVec 4) (List Byte) :=
  let release (r : State × Except (BitVec 4) (List Byte)) :=
    (r.1.deliver [command (.zeroize 4)], r.2)
  let t := (s.deliver (putb key ++ [command (.aesSchedule (8 * key.length))])).errQuery
  if t.2 ≠ 0 then release (t.1, .error t.2)
  else
    let u := (t.1.deliver (putb counter ++ [command .ctrInit])).errQuery
    if u.2 ≠ 0 then release (u.1, .error u.2)
    else release (ctrPieces (chunks s.cfg.dmax m) u.1)

end Sys2Proof.Machine
end

