-- ==== Sys2Proof/Safety.lean ====
section
/-! DEFINITION. The terms that statements use: what a completed command leaves (30_encoding R98),
which error a command reports (60_exceptions R267), and the invariant of every state that a run
meets (10_state R30 to R34). -/

namespace Sys2Proof.Machine

/-! ### What a command leaves -/

/-- What `done(out)` leaves: ERR, DOLEN and every cell of DOUT (30_encoding R98). -/
structure Completed (t : State) (out : List Byte) : Prop where
  err : t.err = .ok
  dolen : t.dolen.toNat = out.length
  dout : ∀ i, i < t.cfg.dmax → t.dout i = out.getD i 0

/-- The configuration and the host's side of the port are as before. -/
structure SamePort (s t : State) : Prop where
  cfg : t.cfg = s.cfg
  moves : t.moves = s.moves
  replies : t.replies = s.replies

/-- The offset of a cell of DOUT. -/
abbrev InDout (s : State) (a : Nat) : Prop := doutBase ≤ a ∧ a < doutBase + s.cfg.dmax

/-- The offset of a cell of DIN. -/
abbrev InDin (s : State) (a : Nat) : Prop := dinBase ≤ a ∧ a < dinBase + s.cfg.dmax

/-- Every cell outside DOUT reads as before. -/
def OnlyDoutChanged (s t : State) : Prop := ∀ a, ¬ InDout s a → t.mem.read a = s.mem.read a

/-- Every cell of DIN reads 0, and every cell outside DIN and DOUT reads as before. -/
def DinWiped (s t : State) : Prop :=
  (∀ i, i < s.cfg.dmax → t.din i = 0) ∧
    ∀ a, ¬ InDin s a → ¬ InDout s a → t.mem.read a = s.mem.read a

/-! ### Which error a command reports -/

/-- The four length-taking commands (30_encoding R95). -/
def takesLength : Instr → Bool
  | .hashInit _ => false
  | .hashUpdate => true
  | .hashFinal => false
  | .hmacInit _ => true
  | .hmacUpdate => true
  | .hmacFinal => false
  | .aesSchedule _ => false
  | .aesEncrypt => false
  | .ctrInit => false
  | .ctrProcess => true
  | .zeroize _ => false

/-- KBITS is none of the three key sizes (60_exceptions R261). -/
def wrongKeySize : Instr → Bool
  | .aesSchedule kbits => !(kbits == 128 || kbits == 192 || kbits == 256)
  | .hashInit _ | .hashUpdate | .hashFinal | .hmacInit _ | .hmacUpdate | .hmacFinal
  | .aesEncrypt | .ctrInit | .ctrProcess | .zeroize _ => false

/-- The command needs a context that does not exist (60_exceptions R266). -/
def lacksContext (i : Instr) (s : State) : Bool :=
  match i with
  | .hashUpdate | .hashFinal => s.hs.phase == .empty
  | .hmacUpdate | .hmacFinal => s.hm.phase == .empty
  | .aesEncrypt | .ctrInit => !s.ck.valid
  | .ctrProcess => !s.cs.active
  | .hashInit _ | .hmacInit _ | .aesSchedule _ | .zeroize _ => false

/-- The command would use a finalised context again (60_exceptions R262). -/
def reusesFinal (i : Instr) (s : State) : Bool :=
  match i with
  | .hashUpdate | .hashFinal => s.hs.phase == .final
  | .hmacUpdate | .hmacFinal => s.hm.phase == .final
  | .hashInit _ | .hmacInit _ | .aesSchedule _ | .aesEncrypt | .ctrInit | .ctrProcess
  | .zeroize _ => false

/-- The chunk needs a keystream block whose counter value lies past 2^128 - 1
(60_exceptions R263). -/
def passesLastCounter (i : Instr) (s : State) : Bool :=
  match i with
  | .ctrProcess =>
    decide (s.dlen.toNat > 16 - s.cs.cur) &&
      (s.cs.wrapped ||
        decide (be s.cs.ctr.toList + (s.dlen.toNat - (16 - s.cs.cur) + 15) / 16 > 2 ^ 128))
  | .hashInit _ | .hashUpdate | .hashFinal | .hmacInit _ | .hmacUpdate | .hmacFinal
  | .aesSchedule _ | .aesEncrypt | .ctrInit | .zeroize _ => false

/-- The update would take `total` to LIM or beyond (60_exceptions R265 cause b). -/
def reachesLimit (i : Instr) (s : State) : Bool :=
  match i with
  | .hashUpdate => decide (s.hs.ctx.total + s.dlen.toNat ≥ lengthLimit s.hs.alg)
  | .hmacUpdate => decide (s.hm.inner.total + s.dlen.toNat ≥ lengthLimit s.hm.alg)
  | .hashInit _ | .hashFinal | .hmacInit _ | .hmacFinal | .aesSchedule _ | .aesEncrypt | .ctrInit
  | .ctrProcess | .zeroize _ => false

/-- The causes of error of a legal word, in the order of 60_exceptions R267. -/
def errorCauses (i : Instr) (s : State) : List (Bool × ErrCode) :=
  [ (takesLength i && decide (s.dlen.toNat > s.cfg.dmax), .invalidLength),
    (wrongKeySize i, .invalidKeySize),
    (lacksContext i s, .noState),
    (reusesFinal i s, .invalidStateReuse),
    (passesLastCounter i s, .counterOverflow),
    (reachesLimit i s, .invalidLength) ]

/-- The first cause that holds; OK when none does (60_exceptions R267). -/
def reportedError (i : Instr) (s : State) : ErrCode :=
  (((errorCauses i s).find? fun c => c.1).map fun c => c.2).getD .ok

/-! ### Algorithms, said a second time -/

/-- Cut into q consecutive blocks of n bytes. -/
def blocksOf (n : Nat) : Nat → List Byte → List (List Byte)
  | 0, _ => []
  | q + 1, x => x.take n :: blocksOf n q (x.drop n)

/-- `CtxAbsorb` in whole blocks, the equivalent statement of 40_hash R133: with r the bytes that wait
and Y = buf[0 .. r) ‖ X, the full blocks of Y are compressed in order and the rest of Y waits. -/
def absorbedInBlocks (alg : HashAlg) (c : HashCtx) (x : List Byte) : HashCtx :=
  let y := c.buf.toList.take (c.total % blockSize alg) ++ x
  let q := y.length / blockSize alg
  ⟨(blocksOf (blockSize alg) q y).foldl (compress alg) c.h, padTo 128 (y.drop (q * blockSize alg)),
    c.total + x.length⟩

/-- The keystream block of a counter value (43_ctr R220). -/
def keystreamBlock (ck : CipherUnit) (counter : Nat) : List Byte :=
  ck.encrypt (bytesBE counter 16)

/-- Keystream byte p of a stream that starts at a counter value: `KS_floor(p/16)[p mod 16]`
(43_ctr R220). -/
def keystreamByte (ck : CipherUnit) (counter p : Nat) : Byte :=
  (keystreamBlock ck (counter + p / 16)).getD (p % 16) 0

/-- A stream as CTR_INIT leaves it (43_ctr R222). -/
def freshStream (c0 : Vector Byte 16) : StreamUnit :=
  ⟨true, c0, Vector.replicate 16 0, 16, false⟩

/-- The effect of `PUT X` on the state of CORE, for |X| ≤ DMAX: DIN[0 .. |X|) and DLEN
(30_encoding R101). -/
def State.loaded (s : State) (x : List Byte) : State :=
  (s.withMem (s.mem.writeBytes dinBase x)).withDlen (BitVec.ofNat 32 x.length)

/-- One PUT and one command after it for each piece; a stop would end the row (none occurs). -/
def State.fed (i : Instr) (s : State) (pieces : List (List Byte)) : State :=
  pieces.foldl (fun s x => match exec i (s.loaded x) with | .next t => t | _ => s) s

/-- One PUT, one CTR_PROCESS and one read of the output for each piece: the outputs one after the
other, and the state at the end (43_ctr R225). -/
def State.streamed : State → List (List Byte) → List Byte × State
  | s, [] => ([], s)
  | s, x :: xs =>
    match exec .ctrProcess (s.loaded x) with
    | .next t => (t.result x.length ++ (State.streamed t xs).1, (State.streamed t xs).2)
    | _ => ([], s)

/-! ### The invariant -/

/-- A hash context record in use under a variant (10_state R30, 40_hash R121). -/
structure HashCtx.InUse (alg : HashAlg) (c : HashCtx) : Prop where
  clear : ∀ i, c.total % blockSize alg ≤ i → i < 128 → c.buf.toList.getD i 0 = 0
  below : c.total < lengthLimit alg
  narrow : alg = .sha256 → ∀ x ∈ c.h.toList, x.toNat < 2 ^ 32

/-- HS between commands (10_state R31). -/
def HashUnit.Legal (u : HashUnit) : Prop :=
  match u.phase with
  | .active => u.ctx.InUse u.alg
  | .empty | .final => u.alg = .sha256 ∧ u.ctx = HashCtx.zero

/-- HM between commands (10_state R32). -/
def HmacUnit.Legal (u : HmacUnit) : Prop :=
  match u.phase with
  | .active =>
    u.inner.InUse u.alg ∧ u.outer.InUse u.alg ∧ blockSize u.alg ≤ u.inner.total ∧
      u.outer.total = blockSize u.alg ∧ u.outer.buf = Vector.replicate 128 0
  | .empty | .final => u.alg = .sha256 ∧ u.inner = HashCtx.zero ∧ u.outer = HashCtx.zero

/-- CK between commands: no schedule and all zero, or the key expansion of the key that its first
Nk words are, zeros above it (10_state R33). -/
def CipherUnit.Legal (u : CipherUnit) : Prop :=
  match u.valid with
  | false => u = CipherUnit.wiped
  | true =>
    u.nk ≠ .none ∧
      u.rk = padTo 60 (keyExpansion u.nk.count
        ((u.rk.toList.take u.nk.count).flatMap fun w => bytesBE w.toNat 4))

/-- CS between commands: no stream and all zero, or a stream over a valid schedule that has made no
block yet, or one whose block is the encryption of the counter value just before CS.ctr, with the
wrap flag set exactly when that value is the last one (10_state R34, 43_ctr R223, R224). -/
def StreamUnit.Legal (ck : CipherUnit) (u : StreamUnit) : Prop :=
  match u.active with
  | false => u = StreamUnit.wiped
  | true =>
    ck.valid = true ∧
      ((u.cur = 16 ∧ u.ks = Vector.replicate 16 0 ∧ u.wrapped = false) ∨
        (1 ≤ u.cur ∧ u.cur ≤ 16 ∧
          ∃ c : Vector Byte 16, u.ks = padTo 16 (ck.encrypt c.toList) ∧ u.ctr = incCounter c ∧
            u.wrapped = (be c.toList == 2 ^ 128 - 1)))

/-- What holds of every state that a run from reset meets. -/
structure Invariant (s : State) : Prop where
  /-- the memory is in canonical form -/
  wf : s.mem.wf
  /-- no cell is listed outside DIN and DOUT (20_memory R61) -/
  implemented : ∀ c ∈ s.mem, InDin s c.1 ∨ InDout s c.1
  /-- `0 <= DOLEN <= DMAX` (10_state R26) -/
  dolen : s.dolen.toNat ≤ s.cfg.dmax
  /-- DOUT cells from DOLEN up are zero (10_state R28) -/
  dout : ∀ i, s.dolen.toNat ≤ i → i < s.cfg.dmax → s.dout i = 0
  hs : s.hs.Legal
  hm : s.hm.Legal
  ck : s.ck.Legal
  cs : s.cs.Legal s.ck

end Sys2Proof.Machine
end

