-- ==== Sys2Proof/Certificates/Slice0/Obligations.lean ====
section
/-! DEFINITION. The statements for the provers, family by family: encoding, the port, errors, the
commands, the algorithms, whole messages, the invariant. -/

open Sys2Proof Sys2Proof.Machine

/-! ### Encoding -/

/-- 30_encoding R91 to R93: the word that a well-formed command is written as decodes to it. -/
def Obligations.DecodeInvertsEncode : Prop :=
  ∀ i : Instr, i.wellFormed = true → decode (encode i) = .ok i

/-- 30_encoding R90, R93: a word has one meaning. What the decoder reads from a word is well formed
and is written as that same word, so no bit of a legal word is dropped. -/
def Obligations.EncodeInvertsDecode : Prop :=
  ∀ (w : Word) (i : Instr), decode w = .ok i → i.wellFormed = true ∧ encode i = w

/-- 30_encoding R97: a word is illegal exactly when RSV is not 0, or OP is none of the eleven, or an
argument is outside its legal values; and equivalently when no row of the opcode map selects it. -/
def Obligations.IllegalWordsAreThoseOfTheRule : Prop :=
  ∀ w : Word,
    ((∃ e, decode w = .error e) ↔
      (rsvField w ≠ 0 ∨
        opField w ∉ ([0x10, 0x11, 0x12, 0x20, 0x21, 0x22, 0x30, 0x31, 0x40, 0x41, 0xF0] :
          List (BitVec 8)) ∨
        (opField w ∈ ([0x10, 0x20] : List (BitVec 8)) ∧ 2 ≤ (argField w).toNat) ∨
        (opField w = 0xF0 ∧ 32 ≤ (argField w).toNat) ∨
        (opField w ∈ ([0x11, 0x12, 0x21, 0x22, 0x31, 0x40, 0x41] : List (BitVec 8)) ∧
          argField w ≠ 0))) ∧
    ((∃ e, decode w = .error e) ↔ ∀ r ∈ opcodeRows, r.selects w = false)

/-- 30_encoding R93 and R97, 95b sections 6 and 9: words written out in the spec decode to the
commands it says, and those it calls illegal to no command. Which of the decoder's reasons stands for
an illegal word is the model's choice, and so is the order in which the reasons are searched (log
entry 9): the spec has only IllegalCommand. -/
def Obligations.SpecWordsDecodeAsListed : Prop :=
  decode 0x00010010 = .ok (.hashInit .sha512) ∧ decode 0x00000011 = .ok .hashUpdate ∧
  decode 0x00000020 = .ok (.hmacInit .sha256) ∧ decode 0x00000022 = .ok .hmacFinal ∧
  decode 0x00C00030 = .ok (.aesSchedule 192) ∧ decode 0x00000031 = .ok .aesEncrypt ∧
  decode 0x00000041 = .ok .ctrProcess ∧ decode 0x000C00F0 = .ok (.zeroize 12) ∧
  decode 0x00020010 = .error .reservedAlg ∧ decode 0x002000F0 = .error .reservedMask ∧
  decode 0x00000141 = .error .reservedBits ∧ decode 0x00010011 = .error .argumentNotZero ∧
  decode 0xFFFFFFFF = .error .reservedBits ∧ decode 0x00000000 = .error .unknownOpcode

/-! ### The port -/

/-- 30_encoding R95, 20_memory R65: when the oldest waiting access writes to CMD a word that decodes
to a well-formed command, the step is that command, run on the state with the access taken and
answered (that the queue and the answers stand in State is the model's choice, log entry 1). -/
def Obligations.StepRunsTheDecodedCommand : Prop :=
  ∀ (s : State) (w : Word) (i : Instr) (rest : List HostMove),
    s.moves = .write32 0 w :: rest → decode w = .ok i → i.wellFormed = true →
      step s = exec i ((s.withMoves rest).answer .written)

/-- 30_encoding R97, 60_exceptions R264, R268: a word that is no command fails with IllegalCommand
and changes nothing of CORE but ERR, the write itself being answered as an accepted one (that the
answers stand in State is the model's choice, log entry 1); and no command reports that code. -/
def Obligations.IllegalWordChangesOnlyErr : Prop :=
  (∀ (s : State) (w : Word) (e : IllegalEncoding) (rest : List HostMove),
    s.moves = .write32 0 w :: rest → decode w = .error e →
      step s = .next (((s.withMoves rest).answer .written).withErr .illegalCommand)) ∧
  ∀ (i : Instr) (s t : State), exec i s = .next t → t.err ≠ .illegalCommand

/-- The 32-bit read of 20_memory R64 and R66: the offsets it is accepted at and what it returns;
everywhere else it is refused with the value 0. No element of CORE changes. That an answer stands in
State, and that a refused access is a next state, is the model's choice (log entries 1 and 5). -/
def Obligations.Read32AnswersAndChangesNothing : Prop :=
  ∀ (s : State) (off : Offset) (rest : List HostMove),
    s.moves = .read32 off :: rest →
      step s = .next ((s.withMoves rest).answer
        (if off = 0x0004 then .word (statusWord s)
         else if off = 0x0008 then .word s.dlen
         else if off = 0x000C then .word s.dolen
         else .refusedRead 0))

/-- The 8-bit read of 20_memory R64 and R66: DOUT[i] at 0x2000 + i; everywhere else, DIN included, it
is refused with the value 0. No element of CORE changes (the answer as a field: the model's choice,
log entries 1 and 5). -/
def Obligations.Read8AnswersAndChangesNothing : Prop :=
  ∀ (s : State) (off : Offset) (rest : List HostMove),
    s.moves = .read8 off :: rest →
      (∀ i, i < s.cfg.dmax → off.toNat = 0x2000 + i →
        step s = .next ((s.withMoves rest).answer (.byte (s.dout i)))) ∧
      ((∀ i, i < s.cfg.dmax → off.toNat ≠ 0x2000 + i) →
        step s = .next ((s.withMoves rest).answer (.refusedRead 0)))

/-- The 32-bit write of 20_memory R65 and R66 other than to CMD: DLEN is stored; everywhere else it
is refused and no element of CORE changes (the answer as a field: the model's choice, log entries 1
and 5). -/
def Obligations.Write32StoresDlenOrIsRefused : Prop :=
  ∀ (s : State) (off : Offset) (v : Word) (rest : List HostMove),
    s.moves = .write32 off v :: rest → off ≠ 0x0000 →
      step s =
        if off = 0x0008 then .next (((s.withMoves rest).withDlen v).answer .written)
        else .next ((s.withMoves rest).answer .refusedWrite)

/-- The 8-bit write of 20_memory R65 and R66: DIN[i] at 0x1000 + i is stored, every other cell and
every other element stays; everywhere else it is refused and no element of CORE changes (the answer
as a field: the model's choice, log entries 1 and 5). -/
def Obligations.Write8StoresOneDinCellOrIsRefused : Prop :=
  ∀ (s : State) (off : Offset) (v : Byte) (rest : List HostMove),
    s.moves = .write8 off v :: rest →
      (∀ i, i < s.cfg.dmax → off.toNat = 0x1000 + i →
        ∃ m : Memory,
          step s = .next (((s.withMoves rest).withMem m).answer .written) ∧
          m.read off.toNat = v ∧ ∀ a, a ≠ off.toNat → m.read a = s.mem.read a) ∧
      ((∀ i, i < s.cfg.dmax → off.toNat ≠ 0x1000 + i) →
        step s = .next ((s.withMoves rest).answer .refusedWrite))

/-- 10_state R23: every field of STATUS is the state element it names, and the other bits read 0. -/
def Obligations.StatusFieldsAreLiveViews : Prop :=
  ∀ s : State,
    (statusWord s).extractLsb' 0 4 = BitVec.ofNat 4 s.err.code ∧
    (statusWord s).extractLsb' 4 2 = BitVec.ofNat 2 s.hs.phase.code ∧
    (statusWord s).getLsbD 6 = decide (s.hs.alg = .sha512) ∧
    (statusWord s).getLsbD 7 = false ∧
    (statusWord s).extractLsb' 8 2 = BitVec.ofNat 2 s.hm.phase.code ∧
    (statusWord s).getLsbD 10 = decide (s.hm.alg = .sha512) ∧
    (statusWord s).getLsbD 11 = false ∧
    (statusWord s).getLsbD 12 = s.ck.valid ∧
    (statusWord s).extractLsb' 13 2 = BitVec.ofNat 2 (keySizeField s.ck.nk) ∧
    (statusWord s).getLsbD 15 = false ∧
    (statusWord s).getLsbD 16 = s.cs.active ∧
    (statusWord s).getLsbD 17 = s.cs.wrapped ∧
    (statusWord s).extractLsb' 18 14 = 0

/-- 10_state R39: what any access answers does not depend on the hash words, the buffers, the
totals, the round keys, the counter, the keystream, the cursor or DIN. Two states that agree on
everything else, and in which the same access other than a write of CMD waits, answer alike (the
answers are a field of State by the model's choice, log entry 1). -/
def Obligations.AnswersDoNotShowHiddenState : Prop :=
  ∀ (s t s' t' : State) (m : HostMove),
    s.moves = [m] → t.moves = [m] → (∀ w, m ≠ .write32 0 w) →
    t.cfg = s.cfg → t.err = s.err → t.dlen = s.dlen → t.dolen = s.dolen →
    (∀ i, i < s.cfg.dmax → t.dout i = s.dout i) →
    t.hs.phase = s.hs.phase → t.hs.alg = s.hs.alg → t.hm.phase = s.hm.phase →
    t.hm.alg = s.hm.alg → t.ck.valid = s.ck.valid → t.ck.nk = s.ck.nk →
    t.cs.active = s.cs.active → t.cs.wrapped = s.cs.wrapped → t.replies = s.replies →
    step s = .next s' → step t = .next t' → t'.replies = s'.replies

/-- 70_reset R301: in the state after reset every element is zero, STATUS with it. -/
def Obligations.ResetStateIsAllZero : Prop :=
  State.reset.err = .ok ∧ State.reset.dlen = 0 ∧ State.reset.dolen = 0 ∧
  (∀ i, State.reset.din i = 0 ∧ State.reset.dout i = 0) ∧
  State.reset.hs.phase = .empty ∧ State.reset.hs.alg = .sha256 ∧
  (∀ x ∈ State.reset.hs.ctx.h.toList, x = 0) ∧ (∀ b ∈ State.reset.hs.ctx.buf.toList, b = 0) ∧
  State.reset.hs.ctx.total = 0 ∧
  State.reset.hm.phase = .empty ∧ State.reset.hm.alg = .sha256 ∧
  State.reset.hm.inner = State.reset.hs.ctx ∧ State.reset.hm.outer = State.reset.hs.ctx ∧
  State.reset.ck.valid = false ∧ State.reset.ck.nk.count = 0 ∧
  (∀ x ∈ State.reset.ck.rk.toList, x = 0) ∧
  State.reset.cs.active = false ∧ (∀ b ∈ State.reset.cs.ctr.toList, b = 0) ∧
  (∀ b ∈ State.reset.cs.ks.toList, b = 0) ∧ State.reset.cs.cur = 0 ∧
  State.reset.cs.wrapped = false ∧ statusWord State.reset = 0

/-- 70_reset R300, R301: the reset step gives every element its reset value, whatever came before.
That DMAX, the waiting accesses and the answers given stay is the model's reading of what is not
state of CORE (log entry 4). -/
def Obligations.ResetStepRestoresResetValues : Prop :=
  ∀ (s : State) (rest : List HostMove), s.moves = .reset :: rest →
    ∃ t, step s = .next t ∧ t.err = .ok ∧ t.dlen = 0 ∧ t.dolen = 0 ∧ (∀ a, t.mem.read a = 0) ∧
      t.hs = State.reset.hs ∧ t.hm = State.reset.hm ∧ t.ck = State.reset.ck ∧
      t.cs = State.reset.cs ∧ t.cfg = s.cfg ∧ t.moves = rest ∧ t.replies = s.replies

/-- 93 section 1: no command stops the machine. That every step goes on, from any state and for any
number of steps, also rests on two choices of the model: a step with no access waiting keeps the state
(log entry 1), and a refused access is a next state too, where 20_memory R66 would let a model have no
such step (log entry 5). -/
def Obligations.EveryRunGoesOn : Prop :=
  ∀ (k : Nat) (s : State), ∃ t, core.run k s = .next t

/-! ### Errors -/

/-- 60_exceptions R268: whatever word is written to CMD, and whatever command runs, one that reports
an error leaves the state before it with ERR replaced, and nothing else changed. -/
def Obligations.FailingCommandChangesOnlyErr : Prop :=
  (∀ (w : Word) (s t : State), executeWord w s = .next t → t.err ≠ .ok → t = s.withErr t.err) ∧
  ∀ (i : Instr) (s t : State), exec i s = .next t → t.err ≠ .ok → t = s.withErr t.err

/-- 60_exceptions R267 and 30_encoding R96: a word that is no command reports IllegalCommand whatever
else is wrong; a command reports the first of its causes of error, in the rule's order, and OK when
it has none. -/
def Obligations.FirstCauseOfErrorIsReported : Prop :=
  (∀ (w : Word) (e : IllegalEncoding) (s : State), decode w = .error e →
    ∃ t, executeWord w s = .next t ∧ t.err = .illegalCommand) ∧
  ∀ (w : Word) (i : Instr) (s : State), decode w = .ok i →
    ∃ t, executeWord w s = .next t ∧ t.err = reportedError i s

/-- 60_exceptions R261: AES_SCHEDULE with a KBITS other than 128, 192, 256 fails with InvalidKeySize,
whatever the state holds, and no other command reports that code. For a kbits of 65536 and above,
which no word encodes, the same outcome is the model's choice (log entry 9). -/
def Obligations.InvalidKeySizeExactlyForOtherKeyLengths : Prop :=
  (∀ (kbits : Nat) (s : State), kbits ≠ 128 → kbits ≠ 192 → kbits ≠ 256 →
    exec (.aesSchedule kbits) s = .next (s.withErr .invalidKeySize)) ∧
  ∀ (i : Instr) (s t : State), exec i s = .next t → t.err = .invalidKeySize →
    ∃ kbits, i = .aesSchedule kbits ∧ kbits ≠ 128 ∧ kbits ≠ 192 ∧ kbits ≠ 256

/-- 60_exceptions R262: InvalidStateReuse is reported by UPDATE and FINAL of an engine whose phase is
FINAL (an UPDATE whose DLEN exceeds DMAX reports that first, R267), and by nothing else; an INIT in
phase FINAL creates a new state and completes. -/
def Obligations.InvalidStateReuseExactlyAfterFinal : Prop :=
  (∀ (i : Instr) (s t : State), exec i s = .next t →
    (t.err = .invalidStateReuse ↔
      ((i = .hashFinal ∨ (i = .hashUpdate ∧ s.dlen.toNat ≤ s.cfg.dmax)) ∧ s.hs.phase = .final) ∨
      ((i = .hmacFinal ∨ (i = .hmacUpdate ∧ s.dlen.toNat ≤ s.cfg.dmax)) ∧ s.hm.phase = .final))) ∧
  ∀ (alg : HashAlg) (s : State),
    (s.hs.phase = .final →
      ∃ t, exec (.hashInit alg) s = .next t ∧ t.err = .ok ∧ t.hs.phase = .active) ∧
    (s.hm.phase = .final → s.dlen.toNat ≤ s.cfg.dmax →
      ∃ t, exec (.hmacInit alg) s = .next t ∧ t.err = .ok ∧ t.hm.phase = .active)

/-- 60_exceptions R266: NoState is reported by the commands that need a context, when it does not
exist (a length-taking one whose DLEN exceeds DMAX reports that first, R267), and by nothing else. -/
def Obligations.NoStateExactlyWithoutContext : Prop :=
  ∀ (i : Instr) (s t : State), exec i s = .next t →
    (t.err = .noState ↔
      ((i = .hashFinal ∨ (i = .hashUpdate ∧ s.dlen.toNat ≤ s.cfg.dmax)) ∧ s.hs.phase = .empty) ∨
      ((i = .hmacFinal ∨ (i = .hmacUpdate ∧ s.dlen.toNat ≤ s.cfg.dmax)) ∧ s.hm.phase = .empty) ∨
      ((i = .aesEncrypt ∨ i = .ctrInit) ∧ s.ck.valid = false) ∨
      (i = .ctrProcess ∧ s.dlen.toNat ≤ s.cfg.dmax ∧ s.cs.active = false))

/-- 60_exceptions R263, 43_ctr R224 (c), (d): CounterOverflow is reported by CTR_PROCESS, on a live
stream, exactly when the chunk is longer than what is left of the current block and the stream has
wrapped or the chunk needs a block past the counter value 2^128 - 1; the whole chunk is refused. -/
def Obligations.CounterOverflowExactlyPastLastCounter : Prop :=
  ∀ (i : Instr) (s t : State), exec i s = .next t →
    (t.err = .counterOverflow ↔
      i = .ctrProcess ∧ s.dlen.toNat ≤ s.cfg.dmax ∧ s.cs.active = true ∧
        16 - s.cs.cur < s.dlen.toNat ∧
        (s.cs.wrapped = true ∨
          16 * (2 ^ 128 - be s.cs.ctr.toList) + (16 - s.cs.cur) < s.dlen.toNat)) ∧
    (t.err = .counterOverflow → t = s.withErr .counterOverflow)

/-- 60_exceptions R265: InvalidLength is reported by a length-taking command whose DLEN exceeds DMAX,
by an UPDATE of an active context that would take its total to the bound, and by nothing else. -/
def Obligations.InvalidLengthExactlyPastBufferOrBound : Prop :=
  ∀ (i : Instr) (s t : State), exec i s = .next t →
    (t.err = .invalidLength ↔
      ((i = .hashUpdate ∨ (∃ alg, i = .hmacInit alg) ∨ i = .hmacUpdate ∨ i = .ctrProcess) ∧
        s.cfg.dmax < s.dlen.toNat) ∨
      (i = .hashUpdate ∧ s.hs.phase = .active ∧
        lengthLimit s.hs.alg ≤ s.hs.ctx.total + s.dlen.toNat) ∨
      (i = .hmacUpdate ∧ s.hm.phase = .active ∧
        lengthLimit s.hm.alg ≤ s.hm.inner.total + s.dlen.toNat))

/-! ### The commands, one result each

`SamePort` in a frame speaks of the model's own fields: the configuration, the waiting accesses and
the answers (log entries 1 and 3). -/

/-- 40_hash R135: HASH_INIT completes in every state with a fresh context; what it leaves alone. -/
def Obligations.HashInitCreatesFreshContext : Prop :=
  ∀ (alg : HashAlg) (s : State), ∃ t, exec (.hashInit alg) s = .next t ∧ Completed t [] ∧
    t.hs.phase = .active ∧ t.hs.alg = alg ∧ t.hs.ctx.h = initialWords alg ∧
    (∀ b ∈ t.hs.ctx.buf.toList, b = 0) ∧ t.hs.ctx.total = 0 ∧
    t.hm = s.hm ∧ t.ck = s.ck ∧ t.cs = s.cs ∧ t.dlen = s.dlen ∧ SamePort s t ∧ OnlyDoutChanged s t

/-- 40_hash R136: HASH_UPDATE on an active context with a legal length and below the length bound
completes and absorbs DIN[0 .. DLEN); what it leaves alone. -/
def Obligations.HashUpdateAbsorbsOperand : Prop :=
  ∀ s : State, s.dlen.toNat ≤ s.cfg.dmax → s.hs.phase = .active →
    s.hs.ctx.total + s.dlen.toNat < lengthLimit s.hs.alg →
    ∃ t, exec .hashUpdate s = .next t ∧ Completed t [] ∧
      t.hs = ⟨.active, s.hs.alg, ctxAbsorb s.hs.alg s.hs.ctx ((List.range s.dlen.toNat).map s.din)⟩ ∧
      t.hm = s.hm ∧ t.ck = s.ck ∧ t.cs = s.cs ∧ t.dlen = s.dlen ∧ SamePort s t ∧
      OnlyDoutChanged s t

/-- 40_hash R137: HASH_FINAL on an active context completes with the digest of N bytes, wipes the
record and enters FINAL; what it leaves alone. -/
def Obligations.HashFinalGivesDigestAndWipes : Prop :=
  ∀ s : State, s.hs.phase = .active →
    ∃ t, exec .hashFinal s = .next t ∧ Completed t (ctxFinish s.hs.alg s.hs.ctx) ∧
      t.dolen.toNat = digestSize s.hs.alg ∧
      t.hs.phase = .final ∧ t.hs.alg = .sha256 ∧ t.hs.ctx = HashCtx.zero ∧
      t.hm = s.hm ∧ t.ck = s.ck ∧ t.cs = s.cs ∧ t.dlen = s.dlen ∧ SamePort s t ∧
      OnlyDoutChanged s t

/-- 41_hmac R162: HMAC_INIT with a legal length completes in every phase: each record has compressed
exactly its pad block, both buffers are empty, both totals are B, and DIN is wiped; what it leaves
alone. -/
def Obligations.HmacInitSeedsBothRecordsAndWipesKey : Prop :=
  ∀ (alg : HashAlg) (s : State), s.dlen.toNat ≤ s.cfg.dmax →
    ∃ t, exec (.hmacInit alg) s = .next t ∧ Completed t [] ∧
      t.hm.phase = .active ∧ t.hm.alg = alg ∧
      t.hm.inner = ⟨compress alg (initialWords alg)
        (xorByte (normalizedKey alg ((List.range s.dlen.toNat).map s.din)) 0x36),
        Vector.replicate 128 0, blockSize alg⟩ ∧
      t.hm.outer = ⟨compress alg (initialWords alg)
        (xorByte (normalizedKey alg ((List.range s.dlen.toNat).map s.din)) 0x5c),
        Vector.replicate 128 0, blockSize alg⟩ ∧
      t.hs = s.hs ∧ t.ck = s.ck ∧ t.cs = s.cs ∧ t.dlen = s.dlen ∧ SamePort s t ∧ DinWiped s t

/-- 41_hmac R163: HMAC_UPDATE on an active context with a legal length and below the length bound
completes and absorbs DIN[0 .. DLEN) into the inner record only; what it leaves alone. -/
def Obligations.HmacUpdateAbsorbsIntoInner : Prop :=
  ∀ s : State, s.dlen.toNat ≤ s.cfg.dmax → s.hm.phase = .active →
    s.hm.inner.total + s.dlen.toNat < lengthLimit s.hm.alg →
    ∃ t, exec .hmacUpdate s = .next t ∧ Completed t [] ∧
      t.hm = ⟨.active, s.hm.alg,
        ctxAbsorb s.hm.alg s.hm.inner ((List.range s.dlen.toNat).map s.din), s.hm.outer⟩ ∧
      t.hs = s.hs ∧ t.ck = s.ck ∧ t.cs = s.cs ∧ t.dlen = s.dlen ∧ SamePort s t ∧
      OnlyDoutChanged s t

/-- 41_hmac R164: HMAC_FINAL on an active context completes with the tag of N bytes, the outer
record having absorbed the inner digest; it wipes both records and enters FINAL; what it leaves
alone. -/
def Obligations.HmacFinalGivesTagAndWipes : Prop :=
  ∀ s : State, s.hm.phase = .active →
    ∃ t, exec .hmacFinal s = .next t ∧
      Completed t (ctxFinish s.hm.alg
        (ctxAbsorb s.hm.alg s.hm.outer (ctxFinish s.hm.alg s.hm.inner))) ∧
      t.dolen.toNat = digestSize s.hm.alg ∧
      t.hm.phase = .final ∧ t.hm.alg = .sha256 ∧ t.hm.inner = HashCtx.zero ∧
      t.hm.outer = HashCtx.zero ∧
      t.hs = s.hs ∧ t.ck = s.ck ∧ t.cs = s.cs ∧ t.dlen = s.dlen ∧ SamePort s t ∧
      OnlyDoutChanged s t

/-- 42_aes R192: AES_SCHEDULE with a key of 128, 192 or 256 bits completes in every state: the
schedule of DIN[0 .. KBITS/8), zeros above it, the stream and DIN wiped; what it leaves alone. -/
def Obligations.AesScheduleExpandsKeyAndWipes : Prop :=
  ∀ (kbits : Nat) (s : State), (kbits = 128 ∨ kbits = 192 ∨ kbits = 256) →
    ∃ t, exec (.aesSchedule kbits) s = .next t ∧ Completed t [] ∧
      t.ck.valid = true ∧ t.ck.nk.count = kbits / 32 ∧
      t.ck.rk.toList =
        keyExpansion (kbits / 32) ((List.range (kbits / 8)).map s.din) ++
          List.replicate (60 - 4 * (kbits / 32 + 7)) 0 ∧
      t.cs.active = false ∧ (∀ b ∈ t.cs.ctr.toList, b = 0) ∧ (∀ b ∈ t.cs.ks.toList, b = 0) ∧
      t.cs.cur = 0 ∧ t.cs.wrapped = false ∧
      t.hs = s.hs ∧ t.hm = s.hm ∧ t.dlen = s.dlen ∧ SamePort s t ∧ DinWiped s t

/-- 42_aes R193: AES_ENCRYPT with a valid schedule completes with the encryption of DIN[0 .. 16);
what it leaves alone, the stream included. -/
def Obligations.AesEncryptGivesCipherOfBlock : Prop :=
  ∀ s : State, s.ck.valid = true →
    ∃ t, exec .aesEncrypt s = .next t ∧
      Completed t (cipher s.ck.rk.toList (s.ck.nk.count + 6) ((List.range 16).map s.din)) ∧
      t.dolen = 16 ∧ t.hs = s.hs ∧ t.hm = s.hm ∧ t.ck = s.ck ∧ t.cs = s.cs ∧ t.dlen = s.dlen ∧
      SamePort s t ∧ OnlyDoutChanged s t

/-- 43_ctr R222: CTR_INIT with a valid schedule completes, whether or not a stream exists, with a
stream at the counter DIN[0 .. 16) that has no keystream yet; what it leaves alone. -/
def Obligations.CtrInitStartsStreamAtCounter : Prop :=
  ∀ s : State, s.ck.valid = true →
    ∃ t, exec .ctrInit s = .next t ∧ Completed t [] ∧
      t.cs.active = true ∧ t.cs.ctr.toList = (List.range 16).map s.din ∧
      (∀ b ∈ t.cs.ks.toList, b = 0) ∧ t.cs.cur = 16 ∧ t.cs.wrapped = false ∧
      t.hs = s.hs ∧ t.hm = s.hm ∧ t.ck = s.ck ∧ t.dlen = s.dlen ∧ SamePort s t ∧
      OnlyDoutChanged s t

/-- 43_ctr R223, R224: CTR_PROCESS on a live stream, with a legal length and no block needed past
the last counter value, completes. Byte i of DIN is xored with what is left of the current block,
then with the blocks of the counter values CS.ctr, CS.ctr + 1, …; the stream afterwards in closed
form, m being the number of new blocks; what it leaves alone. -/
def Obligations.CtrProcessXorsWithKeystream : Prop :=
  ∀ s : State, s.dlen.toNat ≤ s.cfg.dmax → s.cs.active = true → s.cs.cur ≤ 16 →
    ((16 - s.cs.cur < s.dlen.toNat) → s.cs.wrapped = false ∧
      s.dlen.toNat ≤ 16 * (2 ^ 128 - be s.cs.ctr.toList) + (16 - s.cs.cur)) →
    ∃ t, exec .ctrProcess s = .next t ∧
      Completed t ((List.range s.dlen.toNat).map fun i => s.din i ^^^
        (if i < 16 - s.cs.cur then s.cs.ks.toList.getD (s.cs.cur + i) 0
         else keystreamByte s.ck (be s.cs.ctr.toList) (i - (16 - s.cs.cur)))) ∧
      (∀ m, m = (s.dlen.toNat - (16 - s.cs.cur) + 15) / 16 →
        be t.cs.ctr.toList = (be s.cs.ctr.toList + m) % 2 ^ 128 ∧
        t.cs.ks.toList =
          (if m = 0 then s.cs.ks.toList
           else keystreamBlock s.ck (be s.cs.ctr.toList + m - 1)) ∧
        t.cs.cur = (if s.dlen.toNat = 0 then s.cs.cur else (s.cs.cur + s.dlen.toNat - 1) % 16 + 1) ∧
        t.cs.wrapped = (s.cs.wrapped || decide (0 < m ∧ be s.cs.ctr.toList + m = 2 ^ 128))) ∧
      t.cs.active = true ∧
      t.hs = s.hs ∧ t.hm = s.hm ∧ t.ck = s.ck ∧ t.dlen = s.dlen ∧ SamePort s t ∧
      OnlyDoutChanged s t

/-- 44_system R240: ZEROIZE completes in every state and wipes exactly the targets of its mask. -/
def Obligations.ZeroizeWipesExactlyItsTargets : Prop :=
  ∀ (m : BitVec 5) (s : State), ∃ t, exec (.zeroize m) s = .next t ∧ Completed t [] ∧
    t.hs = (if m.getLsbD 0 then HashUnit.wiped else s.hs) ∧
    t.hm = (if m.getLsbD 1 then HmacUnit.wiped else s.hm) ∧
    t.ck = (if m.getLsbD 2 then CipherUnit.wiped else s.ck) ∧
    t.cs = (if m.getLsbD 2 || m.getLsbD 3 then StreamUnit.wiped else s.cs) ∧
    t.dlen = (if m.getLsbD 4 then 0 else s.dlen) ∧ SamePort s t ∧
    (if m.getLsbD 4 then DinWiped s t else OnlyDoutChanged s t)

/-- 44_system R241: ZEROIZE 0 wipes no engine; ERR, DOLEN and DOUT are all it writes. -/
def Obligations.ZeroizeZeroOnlyClearsTheResult : Prop :=
  ∀ s : State, ∃ t, exec (.zeroize 0) s = .next t ∧ t.err = .ok ∧ t.dolen = 0 ∧
    (∀ i, i < s.cfg.dmax → t.dout i = 0) ∧
    t.hs = s.hs ∧ t.hm = s.hm ∧ t.ck = s.ck ∧ t.cs = s.cs ∧ t.dlen = s.dlen ∧ OnlyDoutChanged s t

/-- 70_reset R302: the state after a completing ZEROIZE 31 and the reset state are the same, element
by element, from every state that the invariant admits. -/
def Obligations.ZeroizeAllEqualsReset : Prop :=
  ∀ s : State, Invariant s → ∃ t, exec (.zeroize 31) s = .next t ∧
    t.err = State.reset.err ∧ t.dlen = State.reset.dlen ∧ t.dolen = State.reset.dolen ∧
    t.mem = State.reset.mem ∧ t.hs = State.reset.hs ∧ t.hm = State.reset.hm ∧
    t.ck = State.reset.ck ∧ t.cs = State.reset.cs

/-! ### What commands do not touch -/

/-- 00_scope R2, 41_hmac R165: nothing in the hash engines reads or writes state of the cipher
engines and the reverse, and no HMAC command reads or writes HS: exchanging the unit a command has no
part in changes nothing but that unit of the result. -/
def Obligations.UnitsDoNotReadOrWriteOthers : Prop :=
  ∀ (i : Instr) (s t : State), exec i s = .next t →
    (i ∈ ([.hashInit .sha256, .hashInit .sha512, .hashUpdate, .hashFinal, .hmacInit .sha256,
        .hmacInit .sha512, .hmacUpdate, .hmacFinal] : List Instr) →
      ∀ (ck : CipherUnit) (cs : StreamUnit),
        exec i ((s.withCk ck).withCs cs) = .next ((t.withCk ck).withCs cs)) ∧
    ((i ∈ ([.aesEncrypt, .ctrInit, .ctrProcess] : List Instr) ∨ ∃ k, i = .aesSchedule k) →
      ∀ (hs : HashUnit) (hm : HmacUnit),
        exec i ((s.withHs hs).withHm hm) = .next ((t.withHs hs).withHm hm)) ∧
    (i ∈ ([.hmacInit .sha256, .hmacInit .sha512, .hmacUpdate, .hmacFinal] : List Instr) →
      ∀ hs : HashUnit, exec i (s.withHs hs) = .next (t.withHs hs)) ∧
    (i ∈ ([.hashInit .sha256, .hashInit .sha512, .hashUpdate, .hashFinal] : List Instr) →
      ∀ hm : HmacUnit, exec i (s.withHm hm) = .next (t.withHm hm))

/-- 10_state R27 and R25, 70_reset R310: no command writes a cell of DIN, except that HMAC_INIT and
AES_SCHEDULE wipe all of DIN when they complete and ZEROIZE with mask bit 4 wipes it with DLEN; no
other command changes DLEN. -/
def Obligations.DinAndDlenChangeOnlyByWipes : Prop :=
  ∀ (i : Instr) (s t : State), exec i s = .next t →
    ((t.dlen = s.dlen ∧ ∀ j, j < s.cfg.dmax → t.din j = s.din j) ∨
      (t.err = .ok ∧ t.dlen = s.dlen ∧ (∀ j, j < s.cfg.dmax → t.din j = 0) ∧
        ((∃ alg, i = .hmacInit alg) ∨ ∃ kbits, i = .aesSchedule kbits)) ∨
      (t.err = .ok ∧ t.dlen = 0 ∧ (∀ j, j < s.cfg.dmax → t.din j = 0) ∧
        ∃ m : BitVec 5, i = .zeroize m ∧ m.getLsbD 4 = true))

/-- 43_ctr R224, 10_state R37: CTR_WRAP is set by CTR_PROCESS alone, and a command that completes
while it is set and does not clear it makes no keystream block: the counter stays. -/
def Obligations.WrappedStreamMakesNoBlock : Prop :=
  ∀ (i : Instr) (s t : State), exec i s = .next t →
    (s.cs.wrapped = false → t.cs.wrapped = true → i = .ctrProcess) ∧
    (s.cs.wrapped = true → t.cs.wrapped = true →
      t.cs.ctr = s.cs.ctr ∧ t.cs.ks = s.cs.ks)

/-! ### The algorithms -/

/-- 40_hash R133: `CtxAbsorb` byte by byte is `CtxAbsorb` in whole blocks, for a record whose buffer
is clear from the fill level up. -/
def Obligations.AbsorbEqualsBlockwiseCompression : Prop :=
  ∀ (alg : HashAlg) (c : HashCtx) (x : List Byte),
    (∀ i, c.total % blockSize alg ≤ i → i < 128 → c.buf.toList.getD i 0 = 0) →
      ctxAbsorb alg c x = absorbedInBlocks alg c x

/-- 40_hash R134: the padding makes whole blocks: the record ends on a block boundary with a clear
buffer, after one block when r ≤ B - L - 1 and after two otherwise; and the digest has N bytes. -/
def Obligations.PaddingEndsOnBlockBoundary : Prop :=
  ∀ (alg : HashAlg) (c : HashCtx),
    (c.total % blockSize alg + (ctxPadding alg c).length =
      if c.total % blockSize alg ≤ blockSize alg - suffixSize alg - 1 then blockSize alg
      else 2 * blockSize alg) ∧
    (ctxAbsorb alg c (ctxPadding alg c)).total % blockSize alg = 0 ∧
    (ctxAbsorb alg c (ctxPadding alg c)).buf = Vector.replicate 128 0 ∧
    (c.total < lengthLimit alg →
      be ((ctxPadding alg c).drop ((ctxPadding alg c).length - suffixSize alg)) = 8 * c.total) ∧
    (ctxFinish alg c).length = digestSize alg

/-- 40_hash R125, R131: the message schedule begins with the 16 message words, has one word for each
round, and satisfies the recurrence. -/
def Obligations.MessageScheduleSatisfiesRecurrence : Prop :=
  (∀ m : List (BitVec 32), m.length = 16 →
    (messageSchedule params256 m).length = 64 ∧ (messageSchedule params256 m).take 16 = m ∧
    ∀ t, 16 ≤ t → t < 64 →
      (messageSchedule params256 m).getD t 0 =
        smallSigma1_256 ((messageSchedule params256 m).getD (t - 2) 0) +
          (messageSchedule params256 m).getD (t - 7) 0 +
          smallSigma0_256 ((messageSchedule params256 m).getD (t - 15) 0) +
          (messageSchedule params256 m).getD (t - 16) 0) ∧
  ∀ m : List (BitVec 64), m.length = 16 →
    (messageSchedule params512 m).length = 80 ∧ (messageSchedule params512 m).take 16 = m ∧
    ∀ t, 16 ≤ t → t < 80 →
      (messageSchedule params512 m).getD t 0 =
        smallSigma1_512 ((messageSchedule params512 m).getD (t - 2) 0) +
          (messageSchedule params512 m).getD (t - 7) 0 +
          smallSigma0_512 ((messageSchedule params512 m).getD (t - 15) 0) +
          (messageSchedule params512 m).getD (t - 16) 0

/-- 42_aes R186: the key expansion begins with the key, has 4*(Nr+1) words, and satisfies the
recurrence. -/
def Obligations.KeyExpansionSatisfiesRecurrence : Prop :=
  ∀ (nk : Nat) (key : List Byte), (nk = 4 ∨ nk = 6 ∨ nk = 8) → key.length = 4 * nk →
    (keyExpansion nk key).length = 4 * (nk + 7) ∧
    (∀ i, i < nk → ((keyExpansion nk key).getD i 0).toNat = be ((key.drop (4 * i)).take 4)) ∧
    ∀ i, nk ≤ i → i < 4 * (nk + 7) →
      (keyExpansion nk key).getD i 0 =
        (keyExpansion nk key).getD (i - nk) 0 ^^^
          (let t := (keyExpansion nk key).getD (i - 1) 0
           if i % nk = 0 then
             subWord (t.rotateLeft 8) ^^^ BitVec.ofNat 32 ((rcon (i / nk)).toNat * 2 ^ 24)
           else if nk = 8 ∧ i % 8 = 4 then subWord t
           else t)

/-- 42_aes R191: for a fixed schedule, Cipher is a permutation of the 16-byte blocks. -/
def Obligations.CipherPermutesBlocks : Prop :=
  ∀ (w : List Word) (nr : Nat),
    (∀ x : List Byte, x.length = 16 → (cipher w nr x).length = 16) ∧
    (∀ x y : List Byte, x.length = 16 → y.length = 16 → cipher w nr x = cipher w nr y → x = y) ∧
    ∀ y : List Byte, y.length = 16 → ∃ x : List Byte, x.length = 16 ∧ cipher w nr x = y

/-- 43_ctr R221: the increment adds 1 to the counter block read as one big-endian integer, modulo
2^128. -/
def Obligations.CounterIncrementIsBigEndian : Prop :=
  ∀ c : Vector Byte 16, be (incCounter c).toList = (be c.toList + 1) % 2 ^ 128

/-- 41_hmac R161: the normalised key. -/
def Obligations.NormalizedKeyFollowsKeyRule : Prop :=
  ∀ (alg : HashAlg) (key : List Byte),
    (normalizedKey alg key).length = blockSize alg ∧
    (blockSize alg < key.length →
      normalizedKey alg key =
        hashOf alg key ++ List.replicate (blockSize alg - digestSize alg) 0) ∧
    (key.length ≤ blockSize alg →
      normalizedKey alg key = key ++ List.replicate (blockSize alg - key.length) 0)

/-! ### Whole messages -/

/-- 40_hash R139: for every cutting of a message into pieces of at most DMAX bytes, the length below
the bound, HASH_INIT, one PUT and HASH_UPDATE for each piece, HASH_FINAL returns Hash(alg, M). -/
def Obligations.HashOfPiecesIsHashOfMessage : Prop :=
  ∀ (alg : HashAlg) (s s1 : State) (pieces : List (List Byte)),
    (∀ x ∈ pieces, x.length ≤ s.cfg.dmax) → pieces.flatten.length < lengthLimit alg →
    exec (.hashInit alg) s = .next s1 →
    ∃ t, exec .hashFinal (s1.fed .hashUpdate pieces) = .next t ∧
      Completed t (hashOf alg pieces.flatten)

/-- 41_hmac R165: for every key of at most DMAX bytes and every cutting of a message into pieces of
at most DMAX bytes, the length below the bound, PUT K, HMAC_INIT, one PUT and HMAC_UPDATE for each
piece, HMAC_FINAL returns HMAC(alg, K, M). -/
def Obligations.HmacOfPiecesIsHmacOfMessage : Prop :=
  ∀ (alg : HashAlg) (s s1 : State) (key : List Byte) (pieces : List (List Byte)),
    key.length ≤ s.cfg.dmax → (∀ x ∈ pieces, x.length ≤ s.cfg.dmax) →
    blockSize alg + pieces.flatten.length < lengthLimit alg →
    exec (.hmacInit alg) (s.loaded key) = .next s1 →
    ∃ t, exec .hmacFinal (s1.fed .hmacUpdate pieces) = .next t ∧
      Completed t (hmacOf alg key pieces.flatten)

/-- 43_ctr R220 and the closed form of R223: from a fresh stream at counter C0, p bytes, no more than
the counter has values for, come out xored with the keystream bytes 0 .. p-1, and the stream after
them depends on p alone. -/
def Obligations.StreamFollowsClosedForm : Prop :=
  ∀ (ck : CipherUnit) (c0 : Vector Byte 16) (x : List Byte),
    x.length ≤ 16 * (2 ^ 128 - be c0.toList) →
    ((freshStream c0).process ck x).1 =
      (List.range x.length).map (fun p =>
        x.getD p 0 ^^^ keystreamByte ck (be c0.toList) p) ∧
    (0 < x.length →
      ((freshStream c0).process ck x).2.cur = (x.length - 1) % 16 + 1 ∧
      be ((freshStream c0).process ck x).2.ctr.toList =
        (be c0.toList + (x.length + 15) / 16) % 2 ^ 128 ∧
      ((freshStream c0).process ck x).2.ks.toList =
        keystreamBlock ck (be c0.toList + (x.length + 15) / 16 - 1) ∧
      (((freshStream c0).process ck x).2.wrapped = true ↔
        be c0.toList + (x.length + 15) / 16 = 2 ^ 128))

/-- 43_ctr R225: from every state with a schedule, for every cutting of a message into pieces of at
most DMAX bytes, no more bytes than the counter has values for: CTR_INIT, then one PUT, CTR_PROCESS
and read for each piece, gives the message xored with the keystream, and the stream at the end is the
one that the whole message leaves, whatever the cutting. -/
def Obligations.CtrOfPiecesIsStreamOfMessage : Prop :=
  ∀ (s s1 : State) (pieces : List (List Byte)) (c0 : List Byte),
    c0 = (List.range 16).map s.din → s.ck.valid = true → (∀ x ∈ pieces, x.length ≤ s.cfg.dmax) →
    pieces.flatten.length ≤ 16 * (2 ^ 128 - be c0) → exec .ctrInit s = .next s1 →
      (s1.streamed pieces).1 = ((List.range pieces.flatten.length).map fun p =>
        pieces.flatten.getD p 0 ^^^ keystreamByte s.ck (be c0) p) ∧
      (s1.streamed pieces).2.cs =
        (StreamUnit.process s.ck (freshStream (padTo 16 c0)) pieces.flatten).2 ∧
      (s1.streamed pieces).2.err = .ok

/-- 43_ctr R225, streaming equivalence: a chunk of at most DMAX bytes processed as one command, and
cut in two and processed as two, give the same bytes and leave the same stream, from every state
that the invariant admits. -/
def Obligations.StreamingEquivalence : Prop :=
  ∀ (s t : State) (x y : List Byte), Invariant s → (x ++ y).length ≤ s.cfg.dmax →
    exec .ctrProcess (s.loaded (x ++ y)) = .next t → t.err = .ok →
    ∃ u v, exec .ctrProcess (s.loaded x) = .next u ∧ exec .ctrProcess (u.loaded y) = .next v ∧
      u.err = .ok ∧ v.err = .ok ∧ v.cs = t.cs ∧
      u.result x.length ++ v.result y.length = t.result (x ++ y).length

/-- 43_ctr R225, round trip: the same bytes under the same key and initial counter come back. -/
def Obligations.StreamRoundTrip : Prop :=
  ∀ (ck : CipherUnit) (c0 : Vector Byte 16) (x : List Byte),
    ((freshStream c0).process ck ((freshStream c0).process ck x).1).1 = x

/-- 44_system R243: the host's `hash`, over single accesses from any state, returns Hash(alg, M) and
leaves the context FINAL and wiped (the host's side as functions: the model's choice, log entry 11). -/
def Obligations.HashSequenceReturnsHash : Prop :=
  ∀ (alg : HashAlg) (m : List Byte) (s : State), m.length < lengthLimit alg →
    (hashSequence alg m s).2 = hashOf alg m ∧
    (hashSequence alg m s).1.hs = ⟨.final, .sha256, HashCtx.zero⟩ ∧
    (hashSequence alg m s).1.err = .ok

/-- 44_system R244: the host's `hmac`, over single accesses from any state, returns HMAC(alg, K, M),
also for a key that does not fit the buffer and is hashed first (log entry 11). -/
def Obligations.HmacSequenceReturnsHmac : Prop :=
  ∀ (alg : HashAlg) (key m : List Byte) (s : State), key.length < lengthLimit alg →
    blockSize alg + m.length < lengthLimit alg →
      (hmacSequence alg key m s).2 = hmacOf alg key m

/-- 44_system R245: the host's `aesCtrTransform`, over single accesses from any state: with a key of
16, 24 or 32 bytes and a message that the counter has values for, the message xored with the
keystream of the expanded key; with such a key and a longer message, the code 3 of CounterOverflow;
with any other key that fits the buffer, the code 1 of InvalidKeySize; and in every case no schedule
and no stream is left (the host's side as functions, and that a failed call returns the code alone
without the outputs of earlier pieces: the model's choices, log entry 11). -/
def Obligations.AesCtrSequenceTransformsAndReleases : Prop :=
  ∀ (key counter m : List Byte) (s : State), key.length ≤ s.cfg.dmax → counter.length = 16 →
    (∀ nk, keyWordsOf (8 * key.length) = some nk → m.length ≤ 16 * (2 ^ 128 - be counter) →
      (aesCtrSequence key counter m s).2 =
        .ok ((List.range m.length).map fun p =>
          m.getD p 0 ^^^ keystreamByte (scheduleOf nk key) (be counter) p)) ∧
    (∀ nk, keyWordsOf (8 * key.length) = some nk → 16 * (2 ^ 128 - be counter) < m.length →
      (aesCtrSequence key counter m s).2 = .error 3) ∧
    (keyWordsOf (8 * key.length) = none → (aesCtrSequence key counter m s).2 = .error 1) ∧
    (aesCtrSequence key counter m s).1.ck = CipherUnit.wiped ∧
    (aesCtrSequence key counter m s).1.cs = StreamUnit.wiped

/-! ### The invariant -/

/-- 10_state R26, R28, R30 to R34: reset satisfies the invariant. -/
def Obligations.ResetSatisfiesInvariant : Prop := Invariant State.reset

/-- 10_state R26, R28, R30 to R34, 43_ctr R224: every step keeps the invariant, from every state that
satisfies it, whatever access waits. -/
def Obligations.EveryStepKeepsInvariant : Prop :=
  ∀ s t : State, Invariant s → step s = .next t → Invariant t

/-! ### The host's pseudo-instructions -/

/-- 30_encoding R101: `PUT X` makes X the operand, leaves DIN[|X| .. DMAX) and every cell outside DIN
as they were, and changes no other element of CORE (the host's side as functions, and the
configuration and the waiting accesses as fields: the model's choices, log entries 1, 3 and 11). -/
def Obligations.PutLoadsOperand : Prop :=
  ∀ (s : State) (x : List Byte), x.length ≤ s.cfg.dmax →
    (s.deliver (put x)).dlen.toNat = x.length ∧
    (s.deliver (put x)).dlenOperand = x ∧
    (∀ a, ¬ (dinBase ≤ a ∧ a < dinBase + x.length) →
      (s.deliver (put x)).mem.read a = s.mem.read a) ∧
    (s.deliver (put x)).err = s.err ∧ (s.deliver (put x)).dolen = s.dolen ∧
    (s.deliver (put x)).hs = s.hs ∧ (s.deliver (put x)).hm = s.hm ∧
    (s.deliver (put x)).ck = s.ck ∧ (s.deliver (put x)).cs = s.cs ∧
    (s.deliver (put x)).cfg = s.cfg ∧ (s.deliver (put x)).moves = s.moves

/-- 30_encoding R101: `GET` returns DOUT[0 .. n) for the n that DOLEN reads as, and changes no element
of CORE: of the whole state only the answers given are others. DOLEN above DMAX is no state of CORE
(10_state R26, a clause of the invariant). The host's side as functions, and the answers as a field,
are the model's choices (log entries 1 and 11). -/
def Obligations.GetReadsResult : Prop :=
  ∀ s : State, s.dolen.toNat ≤ s.cfg.dmax →
    s.get.2 = s.result s.dolen.toNat ∧ ∃ rs, s.get.1 = s.withReplies rs
end

