-- ==== Sys2Proof/Laws/Bytes.lean ====
section
/-! SUPPORT. The laws of byte sequences: big-endian integers and back, padding, bytewise xor. -/

namespace Sys2Proof.Machine

/-! ### Big-endian integers -/

@[simp] theorem be_nil : be [] = 0 := rfl

theorem be_foldl (x : List Byte) : ∀ acc : Nat,
    x.foldl (fun acc b => 256 * acc + b.toNat) acc = acc * 256 ^ x.length + be x := by
  induction x with
  | nil => intro acc; simp
  | cons b x ih =>
    intro acc
    rw [be, List.foldl_cons, List.foldl_cons, ih, ih (256 * 0 + b.toNat), List.length_cons, pow_succ]
    ring

theorem be_cons (b : Byte) (x : List Byte) : be (b :: x) = b.toNat * 256 ^ x.length + be x := by
  rw [be, List.foldl_cons, be_foldl]; simp

theorem be_append (x y : List Byte) : be (x ++ y) = be x * 256 ^ y.length + be y := by
  rw [be, List.foldl_append, ← be, be_foldl]

theorem be_lt (x : List Byte) : be x < 256 ^ x.length := by
  induction x with
  | nil => simp
  | cons b x ih =>
    have hb : b.toNat < 256 := b.isLt
    rw [be_cons, List.length_cons, pow_succ]
    nlinarith [Nat.pow_pos (n := x.length) (show 0 < 256 by norm_num)]

@[simp] theorem length_bytesBE (v n : Nat) : (bytesBE v n).length = n := by simp [bytesBE]

theorem bytesBE_succ (v n : Nat) :
    bytesBE v (n + 1) = BitVec.ofNat 8 (v / 256 ^ n) :: bytesBE v n := by
  unfold bytesBE
  rw [List.range_succ_eq_map, List.map_cons, List.map_map]
  congr 1
  exact List.map_congr_left fun i _ => by
    show BitVec.ofNat 8 (v / 256 ^ (n + 1 - 1 - (i + 1))) = _
    congr 3
    omega

/-- Writing an integer in n bytes and reading it back gives it modulo 256^n. -/
theorem be_bytesBE (v n : Nat) : be (bytesBE v n) = v % 256 ^ n := by
  induction n with
  | zero => simp [bytesBE, Nat.mod_one]
  | succ n ih =>
    have e : v % 256 ^ (n + 1) = v % 256 ^ n + 256 ^ n * (v / 256 ^ n % 256) := by
      rw [pow_succ, Nat.mod_mul]
    rw [bytesBE_succ, be_cons, length_bytesBE, ih, BitVec.toNat_ofNat, e, Nat.add_comm,
      Nat.mul_comm]

/-- Two sequences of one length with the same integer are the same. -/
theorem be_injective : ∀ {x y : List Byte}, x.length = y.length → be x = be y → x = y := by
  intro x
  induction x with
  | nil => intro y h _; exact (List.length_eq_zero_iff.mp h.symm).symm
  | cons b x ih =>
    intro y h e
    cases y with
    | nil => simp at h
    | cons c y =>
      have hl : x.length = y.length := by simpa using h
      rw [be_cons, be_cons, hl] at e
      have hx := be_lt x
      have hy := be_lt y
      rw [hl] at hx
      have hp : 0 < 256 ^ y.length := Nat.pow_pos (by norm_num)
      have h1 : b.toNat = c.toNat := by
        have e1 : (b.toNat * 256 ^ y.length + be x) / 256 ^ y.length = b.toNat := by
          rw [Nat.mul_comm, Nat.mul_add_div hp, Nat.div_eq_of_lt hx, Nat.add_zero]
        have e2 : (c.toNat * 256 ^ y.length + be y) / 256 ^ y.length = c.toNat := by
          rw [Nat.mul_comm, Nat.mul_add_div hp, Nat.div_eq_of_lt hy, Nat.add_zero]
        rw [← e1, ← e2, e]
      rw [h1] at e
      rw [BitVec.eq_of_toNat_eq h1, ih hl (by omega)]

/-- Reading a sequence as an integer and writing that gives it back. -/
theorem bytesBE_be {x : List Byte} {n : Nat} (h : x.length = n) : bytesBE (be x) n = x :=
  be_injective (by rw [length_bytesBE, h]) (by
    rw [be_bytesBE, ← h, Nat.mod_eq_of_lt (be_lt x)])

/-- Only the value modulo 256^n is written. -/
theorem bytesBE_mod (v n : Nat) : bytesBE (v % 256 ^ n) n = bytesBE v n :=
  be_injective (by simp) (by simp [be_bytesBE])

/-! ### Padding -/

theorem padTo_toList {w : Nat} (n : Nat) (l : List (BitVec w)) :
    (padTo n l).toList = (l ++ List.replicate n 0).take n := rfl

theorem padTo_toList_of_le {w n : Nat} {l : List (BitVec w)} (h : l.length ≤ n) :
    (padTo n l).toList = l ++ List.replicate (n - l.length) 0 := by
  rw [padTo_toList, List.take_append, List.take_of_length_le h, List.take_replicate,
    Nat.min_eq_left (Nat.sub_le _ _)]

theorem padTo_toList_of_length {w n : Nat} {l : List (BitVec w)} (h : l.length = n) :
    (padTo n l).toList = l := by
  rw [padTo_toList_of_le (by omega), h]; simp

theorem padTo_toVector {w n : Nat} (v : Vector (BitVec w) n) : padTo n v.toList = v :=
  Vector.toList_inj.mp (padTo_toList_of_length (by simp))

theorem padTo_getD {w n : Nat} (l : List (BitVec w)) {i : Nat} (h : i < n) :
    (padTo n l).toList.getD i 0 = l.getD i 0 := by
  rw [padTo_toList, List.getD_eq_getElem?_getD, List.getElem?_take_of_lt h, List.getElem?_append]
  split
  · rw [List.getD_eq_getElem?_getD]
  · next hi =>
    rw [List.getElem?_replicate, List.getD_eq_getElem?_getD, List.getElem?_eq_none (by omega)]
    split <;> rfl

/-! ### Bytewise xor and grouping -/

@[simp] theorem length_xorBytes (x y : List Byte) :
    (xorBytes x y).length = min x.length y.length := by simp [xorBytes]

@[simp] theorem length_xorByte (x : List Byte) (c : Byte) : (xorByte x c).length = x.length := by
  simp [xorByte]

/-- A bytewise xor with the same sequence again undoes it. -/
theorem xorBytes_xorBytes : ∀ {x k : List Byte}, x.length ≤ k.length →
    xorBytes (xorBytes x k) k = x := by
  intro x
  induction x with
  | nil => intro k _; cases k <;> rfl
  | cons a x ih =>
    intro k h
    cases k with
    | nil => simp at h
    | cons b k =>
      simp only [List.length_cons] at h
      show (a ^^^ b ^^^ b) :: xorBytes (xorBytes x k) k = a :: x
      rw [ih (by omega), BitVec.xor_assoc, BitVec.xor_self, BitVec.xor_zero]

@[simp] theorem length_wordsBE (w k n : Nat) (x : List Byte) : (wordsBE w k n x).length = n := by
  induction n generalizing x with
  | zero => rfl
  | succ n ih => simp [wordsBE, ih]

/-- Word number i is made of the bytes from k * i on. -/
theorem wordsBE_getElem? (w k : Nat) : ∀ {n i : Nat} {x : List Byte}, i < n →
    (wordsBE w k n x)[i]? = some (BitVec.ofNat w (be ((x.drop (k * i)).take k))) := by
  intro n
  induction n with
  | zero => intro i x h; omega
  | succ n ih =>
    intro i x h
    cases i with
    | zero => simp [wordsBE]
    | succ i =>
      rw [wordsBE, List.getElem?_cons_succ, ih (by omega), List.drop_drop, Nat.mul_succ,
        Nat.add_comm k]

end Sys2Proof.Machine
end

