-- ==== Sys2Proof/Laws/Aes.lean ====
section
/-! SUPPORT. The laws of the cipher: the lengths of its blocks, round keys and schedules, and what a
schedule begins with. -/

namespace Sys2Proof.Machine

/-! ### Blocks -/

@[simp] theorem length_subBytes (s : List Byte) : (subBytes s).length = s.length := by
  simp [subBytes]

@[simp] theorem length_shiftRows (s : List Byte) : (shiftRows s).length = 16 := rfl

@[simp] theorem length_roundKey (w : List Word) (n : Nat) : (roundKey w n).length = 16 := by
  simp [roundKey]

theorem length_addRoundKey {s : List Byte} (w : List Word) (n : Nat) (h : s.length = 16) :
    (addRoundKey s w n).length = 16 := by simp [addRoundKey, h]

/-- Every complete column of four bytes gives a column of four bytes. -/
theorem length_mixColumns : ∀ s : List Byte, (mixColumns s).length = s.length / 4 * 4
  | a0 :: a1 :: a2 :: a3 :: rest => by
    simp only [mixColumns, List.length_cons, length_mixColumns rest]
    omega
  | [] => by simp [mixColumns]
  | [_] => by simp [mixColumns]
  | [_, _] => by simp [mixColumns]
  | [_, _, _] => by simp [mixColumns]

theorem length_fullRound (w : List Word) (s : List Byte) (n : Nat) :
    (fullRound w s n).length = 16 :=
  length_addRoundKey w n (by rw [length_mixColumns, length_shiftRows])

theorem length_foldl_fullRound (w : List Word) (ns : List Nat) : ∀ {s : List Byte},
    s.length = 16 → (ns.foldl (fullRound w) s).length = 16 := by
  induction ns with
  | nil => intro s h; exact h
  | cons n ns ih => intro s _; exact ih (length_fullRound w s n)

/-- The cipher gives 16 bytes. -/
@[simp] theorem length_cipher (w : List Word) (nr : Nat) (x : List Byte) :
    (cipher w nr x).length = 16 :=
  length_addRoundKey w nr (length_shiftRows _)

@[simp] theorem length_encrypt (ck : CipherUnit) (x : List Byte) : (ck.encrypt x).length = 16 :=
  length_cipher _ _ x

/-- A second key addition with the same round key undoes the first. -/
theorem addRoundKey_addRoundKey {s : List Byte} (w : List Word) (n : Nat) (h : s.length = 16) :
    addRoundKey (addRoundKey s w n) w n = s := xorBytes_xorBytes (by simp [h])

/-! ### The key schedule -/

@[simp] theorem length_expandFrom (nk : Nat) : ∀ (n i : Nat) (ws : List Word),
    (expandFrom nk n i ws).length = n + ws.length := by
  intro n
  induction n with
  | zero => intro i ws; simp [expandFrom]
  | succ n ih => intro i ws; rw [expandFrom, ih, List.length_cons]; omega

/-- Expansion puts new words before the ones given. -/
theorem expandFrom_suffix (nk : Nat) : ∀ (n i : Nat) (ws : List Word),
    ∃ new : List Word, new.length = n ∧ expandFrom nk n i ws = new ++ ws := by
  intro n
  induction n with
  | zero => intro i ws; exact ⟨[], rfl, rfl⟩
  | succ n ih =>
    intro i ws
    obtain ⟨new, hl, he⟩ := ih (i + 1)
      ((ws.getD (nk - 1) 0 ^^^ expansionTerm nk i (ws.getD 0 0)) :: ws)
    exact ⟨new ++ [ws.getD (nk - 1) 0 ^^^ expansionTerm nk i (ws.getD 0 0)], by simp [hl],
      by rw [expandFrom, he]; simp⟩

/-- The schedule of a key of Nk words has `4 * (Nk + 7)` words. -/
theorem length_keyExpansion {nk : Nat} (h : nk ≤ 8) (key : List Byte) :
    (keyExpansion nk key).length = 4 * (nk + 7) := by
  simp only [keyExpansion, List.length_reverse, length_expandFrom, length_wordsBE]
  omega

/-- The first Nk words of a schedule are the key. -/
theorem keyExpansion_take (nk : Nat) (key : List Byte) :
    (keyExpansion nk key).take nk = wordsBE 32 4 nk key := by
  obtain ⟨new, -, he⟩ := expandFrom_suffix nk (4 * (nk + 7) - nk) nk (wordsBE 32 4 nk key).reverse
  rw [keyExpansion, he, List.reverse_append, List.reverse_reverse,
    List.take_append_of_le_length (by simp), List.take_of_length_le (by simp)]

/-- Words cut out of a key and written again are the key. -/
theorem flatMap_wordsBE : ∀ (n : Nat) {key : List Byte}, key.length = 4 * n →
    (wordsBE 32 4 n key).flatMap (fun w => bytesBE w.toNat 4) = key := by
  intro n
  induction n with
  | zero =>
    intro key h
    have e : key = [] := List.length_eq_zero_iff.mp (by omega)
    rw [e]; rfl
  | succ n ih =>
    intro key h
    have ht : (key.take 4).length = 4 := by simp; omega
    have hb := be_lt (key.take 4)
    rw [ht] at hb
    rw [wordsBE, List.flatMap_cons, ih (by simp; omega), BitVec.toNat_ofNat,
      Nat.mod_eq_of_lt (by omega), bytesBE_be ht, List.take_append_drop]

/-- A schedule just made is the expansion of the key that it begins with. -/
theorem scheduleOf_rk {nk : KeyWords} {key : List Byte} (h : key.length = 4 * nk.count) :
    (scheduleOf nk key).rk = padTo 60 (keyExpansion nk.count
      (((scheduleOf nk key).rk.toList.take nk.count).flatMap fun w => bytesBE w.toNat 4)) := by
  have hn : nk.count ≤ 8 := by cases nk <;> decide
  show padTo 60 _ = padTo 60 (keyExpansion nk.count
    (((padTo 60 (keyExpansion nk.count key)).toList.take nk.count).flatMap _))
  rw [padTo_toList_of_le (by rw [length_keyExpansion hn]; omega),
    List.take_append_of_le_length (by rw [length_keyExpansion hn]; omega), keyExpansion_take,
    flatMap_wordsBE _ h]

end Sys2Proof.Machine
end

