-- ==== Sys2Proof/Laws/Ctr.lean ====
section
/-! SUPPORT. The laws of the keystream generator. -/

namespace Sys2Proof.Machine

/-! ### One byte -/

theorem StreamUnit.ready_of_full {ck : CipherUnit} {cs : StreamUnit} (h : cs.cur = 16) :
    cs.ready ck = cs.refill ck := by simp [StreamUnit.ready, h]

theorem StreamUnit.ready_of_not_full {ck : CipherUnit} {cs : StreamUnit} (h : cs.cur ≠ 16) :
    cs.ready ck = cs := by simp [StreamUnit.ready, h]

/-- The cursor after one byte lies between 1 and 16. -/
theorem StreamUnit.processByte_cur {ck : CipherUnit} {cs : StreamUnit} (b : Byte)
    (h : cs.cur ≤ 16) :
    1 ≤ (cs.processByte ck b).2.cur ∧ (cs.processByte ck b).2.cur ≤ 16 := by
  unfold StreamUnit.processByte
  dsimp only
  by_cases hc : cs.cur = 16
  · rw [StreamUnit.ready_of_full hc]; simp [StreamUnit.refill]
  · rw [StreamUnit.ready_of_not_full hc]; omega

/-- The stream after a byte does not depend on the byte. -/
theorem StreamUnit.processByte_stream (ck : CipherUnit) (cs : StreamUnit) (b c : Byte) :
    (cs.processByte ck b).2 = (cs.processByte ck c).2 := rfl

/-! ### A chunk -/

@[simp] theorem StreamUnit.process_nil (ck : CipherUnit) (cs : StreamUnit) :
    StreamUnit.process ck cs [] = ([], cs) := rfl

theorem StreamUnit.process_cons (ck : CipherUnit) (cs : StreamUnit) (b : Byte) (x : List Byte) :
    StreamUnit.process ck cs (b :: x) =
      ((cs.processByte ck b).1 :: (StreamUnit.process ck (cs.processByte ck b).2 x).1,
        (StreamUnit.process ck (cs.processByte ck b).2 x).2) := rfl

@[simp] theorem StreamUnit.length_process (ck : CipherUnit) (x : List Byte) : ∀ cs : StreamUnit,
    (StreamUnit.process ck cs x).1.length = x.length := by
  induction x with
  | nil => intro cs; rfl
  | cons b x ih => intro cs; rw [StreamUnit.process_cons]; simp [ih]

/-- A concatenation is processed piece after piece. -/
theorem StreamUnit.process_append (ck : CipherUnit) (x y : List Byte) : ∀ cs : StreamUnit,
    StreamUnit.process ck cs (x ++ y) =
      ((StreamUnit.process ck cs x).1 ++
          (StreamUnit.process ck (StreamUnit.process ck cs x).2 y).1,
        (StreamUnit.process ck (StreamUnit.process ck cs x).2 y).2) := by
  induction x with
  | nil => intro cs; rfl
  | cons b x ih =>
    intro cs
    rw [List.cons_append, StreamUnit.process_cons, ih, StreamUnit.process_cons]
    rfl

/-- Processing never ends a stream. -/
theorem StreamUnit.process_active (ck : CipherUnit) (x : List Byte) : ∀ cs : StreamUnit,
    (StreamUnit.process ck cs x).2.active = cs.active := by
  induction x with
  | nil => intro cs; rfl
  | cons b x ih =>
    intro cs
    rw [StreamUnit.process_cons]
    refine (ih _).trans ?_
    unfold StreamUnit.processByte StreamUnit.ready
    dsimp only
    split <;> rfl

/-! ### The counter -/

theorem be_counter_lt (c : Vector Byte 16) : be c.toList < 2 ^ 128 := by
  have h := be_lt c.toList
  have e : (256 : Nat) ^ c.toList.length = 2 ^ 128 := by simp
  rwa [e] at h

/-- A counter block is the big-endian form of its integer. -/
theorem bytesBE_counter (c : Vector Byte 16) : bytesBE (be c.toList) 16 = c.toList :=
  bytesBE_be (by simp)

/-- The number of new blocks, without its case split. -/
theorem StreamUnit.newBlocks_eq (cs : StreamUnit) (n : Nat) :
    cs.newBlocks n = (n - (16 - cs.cur) + 15) / 16 := by
  unfold StreamUnit.newBlocks
  dsimp only
  split
  · omega
  · rfl

/-- When a chunk is turned away (43_ctr R224). -/
theorem StreamUnit.overflows_iff (cs : StreamUnit) (n : Nat) :
    cs.overflows n = true ↔
      1 ≤ cs.newBlocks n ∧ (cs.wrapped = true ∨ 2 ^ 128 < be cs.ctr.toList + cs.newBlocks n) := by
  have e : 1 ≤ cs.newBlocks n → (be cs.ctr.toList + cs.newBlocks n - 1 > 2 ^ 128 - 1 ↔
      2 ^ 128 < be cs.ctr.toList + cs.newBlocks n) := fun h => by omega
  unfold StreamUnit.overflows
  rw [Bool.and_eq_true, Bool.or_eq_true, decide_eq_true_iff, decide_eq_true_iff]
  exact and_congr_right fun h => or_congr_right (e h)

/-- A new block is the keystream block of the counter value, and the counter advances. -/
theorem StreamUnit.refill_ks (ck : CipherUnit) (cs : StreamUnit) :
    (cs.refill ck).ks.toList = keystreamBlock ck (be cs.ctr.toList) := by
  rw [keystreamBlock, bytesBE_counter]
  exact padTo_toList_of_length (length_encrypt ck _)

end Sys2Proof.Machine
end

