-- ==== Sys2Proof/Laws/HashContext.lean ====
section
/-! SUPPORT. The laws of hash context records: what absorbing does to the count, the buffer and the
words, and the lengths of paddings and digests. -/

namespace Sys2Proof.Machine

theorem blockSize_pos (alg : HashAlg) : 0 < blockSize alg := by cases alg <;> decide

theorem blockSize_le (alg : HashAlg) : blockSize alg ≤ 128 := by cases alg <;> decide

theorem digestSize_le (alg : HashAlg) : digestSize alg ≤ 64 := by cases alg <;> decide

theorem digestSize_lt_blockSize (alg : HashAlg) : digestSize alg < blockSize alg := by
  cases alg <;> decide

theorem blockSize_lt_lengthLimit (alg : HashAlg) : blockSize alg < lengthLimit alg := by
  cases alg <;> decide

/-! ### Absorbing -/

@[simp] theorem ctxAbsorb_nil (alg : HashAlg) (c : HashCtx) : ctxAbsorb alg c [] = c := rfl

@[simp] theorem ctxAbsorb_cons (alg : HashAlg) (c : HashCtx) (b : Byte) (x : List Byte) :
    ctxAbsorb alg c (b :: x) = ctxAbsorb alg (ctxAbsorbByte alg c b) x := rfl

/-- Absorbing in two pieces is absorbing their concatenation. -/
theorem ctxAbsorb_append (alg : HashAlg) (c : HashCtx) (x y : List Byte) :
    ctxAbsorb alg c (x ++ y) = ctxAbsorb alg (ctxAbsorb alg c x) y := List.foldl_append

@[simp] theorem ctxAbsorbByte_total (alg : HashAlg) (c : HashCtx) (b : Byte) :
    (ctxAbsorbByte alg c b).total = c.total + 1 := by
  unfold ctxAbsorbByte
  dsimp only
  split <;> rfl

@[simp] theorem ctxAbsorb_total (alg : HashAlg) (x : List Byte) : ∀ c : HashCtx,
    (ctxAbsorb alg c x).total = c.total + x.length := by
  induction x with
  | nil => intro c; rfl
  | cons b x ih => intro c; rw [ctxAbsorb_cons, ih, ctxAbsorbByte_total, List.length_cons]; omega

/-- The buffer is clear from the fill level up (10_state R30). -/
def HashCtx.Clear (alg : HashAlg) (c : HashCtx) : Prop :=
  ∀ i, c.total % blockSize alg ≤ i → i < 128 → c.buf.toList.getD i 0 = 0

theorem zeroBuffer_getD (i : Nat) :
    (Vector.replicate 128 (0 : Byte)).toList.getD i 0 = 0 := by
  rw [Vector.toList_replicate, List.getD_eq_getElem?_getD, List.getElem?_replicate]
  split <;> rfl

theorem ctxInit_clear (alg : HashAlg) : (ctxInit alg).Clear alg := fun i _ _ => zeroBuffer_getD i

theorem setIfInBounds_getD (v : Vector Byte 128) {k i : Nat} (b : Byte) :
    (v.setIfInBounds k b).toList.getD i 0 =
      if k = i ∧ i < 128 then b else v.toList.getD i 0 := by
  rw [Vector.toList_setIfInBounds, List.getD_eq_getElem?_getD, List.getElem?_set,
    List.getD_eq_getElem?_getD]
  by_cases h : k = i
  · subst h
    by_cases hk : k < 128
    · rw [if_pos rfl, if_pos (by simpa using hk), if_pos ⟨rfl, hk⟩]; rfl
    · rw [if_pos rfl, if_neg (by simpa using hk), if_neg (by tauto),
        List.getElem?_eq_none (by simpa using hk)]
  · rw [if_neg h, if_neg (by tauto)]

theorem ctxAbsorbByte_clear {alg : HashAlg} {c : HashCtx} (b : Byte) (h : c.Clear alg) :
    (ctxAbsorbByte alg c b).Clear alg := by
  intro i hi hi'
  rw [ctxAbsorbByte_total] at hi
  unfold ctxAbsorbByte
  dsimp only
  split
  · exact zeroBuffer_getD i
  · next hne =>
    have hB := blockSize_pos alg
    have hm : (c.total + 1) % blockSize alg = c.total % blockSize alg + 1 := by
      have hlt := Nat.mod_lt c.total hB
      rcases Nat.lt_or_ge (c.total % blockSize alg + 1) (blockSize alg) with hl | hl
      · rw [Nat.add_mod, Nat.mod_eq_of_lt (a := 1) (by omega), Nat.mod_eq_of_lt hl]
      · exfalso
        have he : c.total % blockSize alg + 1 = blockSize alg := by omega
        apply hne
        rw [← Nat.mod_add_mod, he, Nat.mod_self]
    rw [setIfInBounds_getD, if_neg (by omega)]
    exact h i (by omega) hi'

theorem ctxAbsorb_clear {alg : HashAlg} (x : List Byte) : ∀ {c : HashCtx}, c.Clear alg →
    (ctxAbsorb alg c x).Clear alg := by
  induction x with
  | nil => intro c h; exact h
  | cons b x ih => intro c h; exact ih (ctxAbsorbByte_clear b h)

/-- On a block boundary a clear buffer is all zero. -/
theorem HashCtx.Clear.buf_zero {alg : HashAlg} {c : HashCtx} (h : c.Clear alg)
    (ht : c.total % blockSize alg = 0) : c.buf = Vector.replicate 128 0 := by
  refine Vector.toList_inj.mp (List.ext_getElem (by simp) fun i h1 h2 => ?_)
  have hi : i < 128 := by simpa using h1
  have e := h i (by omega) hi
  have z := zeroBuffer_getD i
  rw [List.getD_eq_getElem?_getD, List.getElem?_eq_getElem h1, Option.getD_some] at e
  rw [List.getD_eq_getElem?_getD, List.getElem?_eq_getElem h2, Option.getD_some] at z
  rw [e, z]

/-! ### The words of SHA-256 stay 32 bits wide -/

theorem resize_narrow (h : HashWords 32) : ∀ x ∈ (h.resize 64).toList, x.toNat < 2 ^ 32 := by
  have key : ∀ y : BitVec 32, (y.setWidth 64).toNat < 2 ^ 32 := fun y => by
    rw [BitVec.toNat_setWidth]
    have := y.isLt
    omega
  intro x hx
  simp only [HashWords.toList, HashWords.resize, List.mem_cons, List.not_mem_nil, or_false] at hx
  rcases hx with rfl | rfl | rfl | rfl | rfl | rfl | rfl | rfl <;> exact key _

theorem ctxAbsorbByte_narrow {c : HashCtx} (b : Byte)
    (h : ∀ x ∈ c.h.toList, x.toNat < 2 ^ 32) :
    ∀ x ∈ (ctxAbsorbByte .sha256 c b).h.toList, x.toNat < 2 ^ 32 := by
  unfold ctxAbsorbByte
  dsimp only
  split
  · exact resize_narrow _
  · exact h

theorem ctxAbsorb_narrow (x : List Byte) : ∀ {c : HashCtx},
    (∀ y ∈ c.h.toList, y.toNat < 2 ^ 32) →
      ∀ y ∈ (ctxAbsorb .sha256 c x).h.toList, y.toNat < 2 ^ 32 := by
  induction x with
  | nil => intro c h; exact h
  | cons b x ih => intro c h; exact ih (ctxAbsorbByte_narrow b h)

theorem ctxInit_inUse (alg : HashAlg) : (ctxInit alg).InUse alg where
  clear := ctxInit_clear alg
  below := by cases alg <;> decide
  narrow := fun h => by subst h; exact resize_narrow iv256

/-- A record in use stays legal when it absorbs less than its bound allows. -/
theorem ctxAbsorb_inUse {alg : HashAlg} {c : HashCtx} {x : List Byte} (h : c.InUse alg)
    (hx : c.total + x.length < lengthLimit alg) : (ctxAbsorb alg c x).InUse alg where
  clear := ctxAbsorb_clear x h.clear
  below := by rw [ctxAbsorb_total]; exact hx
  narrow := fun e => by subst e; exact ctxAbsorb_narrow x (h.narrow rfl)

/-! ### Digests -/

@[simp] theorem length_digestBytes (alg : HashAlg) (h : HashWords 64) :
    (digestBytes alg h).length = digestSize alg := by
  cases alg <;> simp [digestBytes, HashWords.toList, wordSize, digestSize]

@[simp] theorem length_ctxFinish (alg : HashAlg) (c : HashCtx) :
    (ctxFinish alg c).length = digestSize alg := length_digestBytes alg _

@[simp] theorem length_hashOf (alg : HashAlg) (m : List Byte) :
    (hashOf alg m).length = digestSize alg := length_ctxFinish alg _

theorem length_normalizedKey (alg : HashAlg) (key : List Byte) :
    (normalizedKey alg key).length = blockSize alg := by
  unfold normalizedKey
  dsimp only
  split
  · have := digestSize_lt_blockSize alg
    simp only [List.length_append, length_hashOf, List.length_replicate]
    omega
  · simp only [List.length_append, List.length_replicate]
    omega

@[simp] theorem length_innerPad (alg : HashAlg) (key : List Byte) :
    (innerPad alg key).length = blockSize alg := by simp [innerPad, length_normalizedKey]

@[simp] theorem length_outerPad (alg : HashAlg) (key : List Byte) :
    (outerPad alg key).length = blockSize alg := by simp [outerPad, length_normalizedKey]

end Sys2Proof.Machine
end

