-- ==== Sys2Proof/Laws/State.lean ====
section
/-! SUPPORT. One lemma per field per update of the state, so that no later proof unfolds a record
update. -/

namespace Sys2Proof.Machine

@[simp] theorem State.withErr_cfg (s : State) (x : ErrCode) : (s.withErr x).cfg = s.cfg := rfl
@[simp] theorem State.withErr_err (s : State) (x : ErrCode) : (s.withErr x).err = x := rfl
@[simp] theorem State.withErr_dlen (s : State) (x : ErrCode) : (s.withErr x).dlen = s.dlen := rfl
@[simp] theorem State.withErr_dolen (s : State) (x : ErrCode) : (s.withErr x).dolen = s.dolen := rfl
@[simp] theorem State.withErr_mem (s : State) (x : ErrCode) : (s.withErr x).mem = s.mem := rfl
@[simp] theorem State.withErr_hs (s : State) (x : ErrCode) : (s.withErr x).hs = s.hs := rfl
@[simp] theorem State.withErr_hm (s : State) (x : ErrCode) : (s.withErr x).hm = s.hm := rfl
@[simp] theorem State.withErr_ck (s : State) (x : ErrCode) : (s.withErr x).ck = s.ck := rfl
@[simp] theorem State.withErr_cs (s : State) (x : ErrCode) : (s.withErr x).cs = s.cs := rfl
@[simp] theorem State.withErr_moves (s : State) (x : ErrCode) : (s.withErr x).moves = s.moves := rfl
@[simp] theorem State.withErr_replies (s : State) (x : ErrCode) : (s.withErr x).replies = s.replies := rfl

@[simp] theorem State.withDlen_cfg (s : State) (x : Word) : (s.withDlen x).cfg = s.cfg := rfl
@[simp] theorem State.withDlen_err (s : State) (x : Word) : (s.withDlen x).err = s.err := rfl
@[simp] theorem State.withDlen_dlen (s : State) (x : Word) : (s.withDlen x).dlen = x := rfl
@[simp] theorem State.withDlen_dolen (s : State) (x : Word) : (s.withDlen x).dolen = s.dolen := rfl
@[simp] theorem State.withDlen_mem (s : State) (x : Word) : (s.withDlen x).mem = s.mem := rfl
@[simp] theorem State.withDlen_hs (s : State) (x : Word) : (s.withDlen x).hs = s.hs := rfl
@[simp] theorem State.withDlen_hm (s : State) (x : Word) : (s.withDlen x).hm = s.hm := rfl
@[simp] theorem State.withDlen_ck (s : State) (x : Word) : (s.withDlen x).ck = s.ck := rfl
@[simp] theorem State.withDlen_cs (s : State) (x : Word) : (s.withDlen x).cs = s.cs := rfl
@[simp] theorem State.withDlen_moves (s : State) (x : Word) : (s.withDlen x).moves = s.moves := rfl
@[simp] theorem State.withDlen_replies (s : State) (x : Word) : (s.withDlen x).replies = s.replies := rfl

@[simp] theorem State.withDolen_cfg (s : State) (x : Word) : (s.withDolen x).cfg = s.cfg := rfl
@[simp] theorem State.withDolen_err (s : State) (x : Word) : (s.withDolen x).err = s.err := rfl
@[simp] theorem State.withDolen_dlen (s : State) (x : Word) : (s.withDolen x).dlen = s.dlen := rfl
@[simp] theorem State.withDolen_dolen (s : State) (x : Word) : (s.withDolen x).dolen = x := rfl
@[simp] theorem State.withDolen_mem (s : State) (x : Word) : (s.withDolen x).mem = s.mem := rfl
@[simp] theorem State.withDolen_hs (s : State) (x : Word) : (s.withDolen x).hs = s.hs := rfl
@[simp] theorem State.withDolen_hm (s : State) (x : Word) : (s.withDolen x).hm = s.hm := rfl
@[simp] theorem State.withDolen_ck (s : State) (x : Word) : (s.withDolen x).ck = s.ck := rfl
@[simp] theorem State.withDolen_cs (s : State) (x : Word) : (s.withDolen x).cs = s.cs := rfl
@[simp] theorem State.withDolen_moves (s : State) (x : Word) : (s.withDolen x).moves = s.moves := rfl
@[simp] theorem State.withDolen_replies (s : State) (x : Word) : (s.withDolen x).replies = s.replies := rfl

@[simp] theorem State.withMem_cfg (s : State) (x : Memory) : (s.withMem x).cfg = s.cfg := rfl
@[simp] theorem State.withMem_err (s : State) (x : Memory) : (s.withMem x).err = s.err := rfl
@[simp] theorem State.withMem_dlen (s : State) (x : Memory) : (s.withMem x).dlen = s.dlen := rfl
@[simp] theorem State.withMem_dolen (s : State) (x : Memory) : (s.withMem x).dolen = s.dolen := rfl
@[simp] theorem State.withMem_mem (s : State) (x : Memory) : (s.withMem x).mem = x := rfl
@[simp] theorem State.withMem_hs (s : State) (x : Memory) : (s.withMem x).hs = s.hs := rfl
@[simp] theorem State.withMem_hm (s : State) (x : Memory) : (s.withMem x).hm = s.hm := rfl
@[simp] theorem State.withMem_ck (s : State) (x : Memory) : (s.withMem x).ck = s.ck := rfl
@[simp] theorem State.withMem_cs (s : State) (x : Memory) : (s.withMem x).cs = s.cs := rfl
@[simp] theorem State.withMem_moves (s : State) (x : Memory) : (s.withMem x).moves = s.moves := rfl
@[simp] theorem State.withMem_replies (s : State) (x : Memory) : (s.withMem x).replies = s.replies := rfl

@[simp] theorem State.withHs_cfg (s : State) (x : HashUnit) : (s.withHs x).cfg = s.cfg := rfl
@[simp] theorem State.withHs_err (s : State) (x : HashUnit) : (s.withHs x).err = s.err := rfl
@[simp] theorem State.withHs_dlen (s : State) (x : HashUnit) : (s.withHs x).dlen = s.dlen := rfl
@[simp] theorem State.withHs_dolen (s : State) (x : HashUnit) : (s.withHs x).dolen = s.dolen := rfl
@[simp] theorem State.withHs_mem (s : State) (x : HashUnit) : (s.withHs x).mem = s.mem := rfl
@[simp] theorem State.withHs_hs (s : State) (x : HashUnit) : (s.withHs x).hs = x := rfl
@[simp] theorem State.withHs_hm (s : State) (x : HashUnit) : (s.withHs x).hm = s.hm := rfl
@[simp] theorem State.withHs_ck (s : State) (x : HashUnit) : (s.withHs x).ck = s.ck := rfl
@[simp] theorem State.withHs_cs (s : State) (x : HashUnit) : (s.withHs x).cs = s.cs := rfl
@[simp] theorem State.withHs_moves (s : State) (x : HashUnit) : (s.withHs x).moves = s.moves := rfl
@[simp] theorem State.withHs_replies (s : State) (x : HashUnit) : (s.withHs x).replies = s.replies := rfl

@[simp] theorem State.withHm_cfg (s : State) (x : HmacUnit) : (s.withHm x).cfg = s.cfg := rfl
@[simp] theorem State.withHm_err (s : State) (x : HmacUnit) : (s.withHm x).err = s.err := rfl
@[simp] theorem State.withHm_dlen (s : State) (x : HmacUnit) : (s.withHm x).dlen = s.dlen := rfl
@[simp] theorem State.withHm_dolen (s : State) (x : HmacUnit) : (s.withHm x).dolen = s.dolen := rfl
@[simp] theorem State.withHm_mem (s : State) (x : HmacUnit) : (s.withHm x).mem = s.mem := rfl
@[simp] theorem State.withHm_hs (s : State) (x : HmacUnit) : (s.withHm x).hs = s.hs := rfl
@[simp] theorem State.withHm_hm (s : State) (x : HmacUnit) : (s.withHm x).hm = x := rfl
@[simp] theorem State.withHm_ck (s : State) (x : HmacUnit) : (s.withHm x).ck = s.ck := rfl
@[simp] theorem State.withHm_cs (s : State) (x : HmacUnit) : (s.withHm x).cs = s.cs := rfl
@[simp] theorem State.withHm_moves (s : State) (x : HmacUnit) : (s.withHm x).moves = s.moves := rfl
@[simp] theorem State.withHm_replies (s : State) (x : HmacUnit) : (s.withHm x).replies = s.replies := rfl

@[simp] theorem State.withCk_cfg (s : State) (x : CipherUnit) : (s.withCk x).cfg = s.cfg := rfl
@[simp] theorem State.withCk_err (s : State) (x : CipherUnit) : (s.withCk x).err = s.err := rfl
@[simp] theorem State.withCk_dlen (s : State) (x : CipherUnit) : (s.withCk x).dlen = s.dlen := rfl
@[simp] theorem State.withCk_dolen (s : State) (x : CipherUnit) : (s.withCk x).dolen = s.dolen := rfl
@[simp] theorem State.withCk_mem (s : State) (x : CipherUnit) : (s.withCk x).mem = s.mem := rfl
@[simp] theorem State.withCk_hs (s : State) (x : CipherUnit) : (s.withCk x).hs = s.hs := rfl
@[simp] theorem State.withCk_hm (s : State) (x : CipherUnit) : (s.withCk x).hm = s.hm := rfl
@[simp] theorem State.withCk_ck (s : State) (x : CipherUnit) : (s.withCk x).ck = x := rfl
@[simp] theorem State.withCk_cs (s : State) (x : CipherUnit) : (s.withCk x).cs = s.cs := rfl
@[simp] theorem State.withCk_moves (s : State) (x : CipherUnit) : (s.withCk x).moves = s.moves := rfl
@[simp] theorem State.withCk_replies (s : State) (x : CipherUnit) : (s.withCk x).replies = s.replies := rfl

@[simp] theorem State.withCs_cfg (s : State) (x : StreamUnit) : (s.withCs x).cfg = s.cfg := rfl
@[simp] theorem State.withCs_err (s : State) (x : StreamUnit) : (s.withCs x).err = s.err := rfl
@[simp] theorem State.withCs_dlen (s : State) (x : StreamUnit) : (s.withCs x).dlen = s.dlen := rfl
@[simp] theorem State.withCs_dolen (s : State) (x : StreamUnit) : (s.withCs x).dolen = s.dolen := rfl
@[simp] theorem State.withCs_mem (s : State) (x : StreamUnit) : (s.withCs x).mem = s.mem := rfl
@[simp] theorem State.withCs_hs (s : State) (x : StreamUnit) : (s.withCs x).hs = s.hs := rfl
@[simp] theorem State.withCs_hm (s : State) (x : StreamUnit) : (s.withCs x).hm = s.hm := rfl
@[simp] theorem State.withCs_ck (s : State) (x : StreamUnit) : (s.withCs x).ck = s.ck := rfl
@[simp] theorem State.withCs_cs (s : State) (x : StreamUnit) : (s.withCs x).cs = x := rfl
@[simp] theorem State.withCs_moves (s : State) (x : StreamUnit) : (s.withCs x).moves = s.moves := rfl
@[simp] theorem State.withCs_replies (s : State) (x : StreamUnit) : (s.withCs x).replies = s.replies := rfl

@[simp] theorem State.withMoves_cfg (s : State) (x : List HostMove) : (s.withMoves x).cfg = s.cfg := rfl
@[simp] theorem State.withMoves_err (s : State) (x : List HostMove) : (s.withMoves x).err = s.err := rfl
@[simp] theorem State.withMoves_dlen (s : State) (x : List HostMove) : (s.withMoves x).dlen = s.dlen := rfl
@[simp] theorem State.withMoves_dolen (s : State) (x : List HostMove) : (s.withMoves x).dolen = s.dolen := rfl
@[simp] theorem State.withMoves_mem (s : State) (x : List HostMove) : (s.withMoves x).mem = s.mem := rfl
@[simp] theorem State.withMoves_hs (s : State) (x : List HostMove) : (s.withMoves x).hs = s.hs := rfl
@[simp] theorem State.withMoves_hm (s : State) (x : List HostMove) : (s.withMoves x).hm = s.hm := rfl
@[simp] theorem State.withMoves_ck (s : State) (x : List HostMove) : (s.withMoves x).ck = s.ck := rfl
@[simp] theorem State.withMoves_cs (s : State) (x : List HostMove) : (s.withMoves x).cs = s.cs := rfl
@[simp] theorem State.withMoves_moves (s : State) (x : List HostMove) : (s.withMoves x).moves = x := rfl
@[simp] theorem State.withMoves_replies (s : State) (x : List HostMove) : (s.withMoves x).replies = s.replies := rfl

@[simp] theorem State.withReplies_cfg (s : State) (x : List Reply) : (s.withReplies x).cfg = s.cfg := rfl
@[simp] theorem State.withReplies_err (s : State) (x : List Reply) : (s.withReplies x).err = s.err := rfl
@[simp] theorem State.withReplies_dlen (s : State) (x : List Reply) : (s.withReplies x).dlen = s.dlen := rfl
@[simp] theorem State.withReplies_dolen (s : State) (x : List Reply) : (s.withReplies x).dolen = s.dolen := rfl
@[simp] theorem State.withReplies_mem (s : State) (x : List Reply) : (s.withReplies x).mem = s.mem := rfl
@[simp] theorem State.withReplies_hs (s : State) (x : List Reply) : (s.withReplies x).hs = s.hs := rfl
@[simp] theorem State.withReplies_hm (s : State) (x : List Reply) : (s.withReplies x).hm = s.hm := rfl
@[simp] theorem State.withReplies_ck (s : State) (x : List Reply) : (s.withReplies x).ck = s.ck := rfl
@[simp] theorem State.withReplies_cs (s : State) (x : List Reply) : (s.withReplies x).cs = s.cs := rfl
@[simp] theorem State.withReplies_moves (s : State) (x : List Reply) : (s.withReplies x).moves = s.moves := rfl
@[simp] theorem State.withReplies_replies (s : State) (x : List Reply) : (s.withReplies x).replies = x := rfl

/-! The compound updates. -/

@[simp] theorem State.answer_cfg (s : State) (r : Reply) : (s.answer r).cfg = s.cfg := rfl
@[simp] theorem State.answer_err (s : State) (r : Reply) : (s.answer r).err = s.err := rfl
@[simp] theorem State.answer_dlen (s : State) (r : Reply) : (s.answer r).dlen = s.dlen := rfl
@[simp] theorem State.answer_dolen (s : State) (r : Reply) : (s.answer r).dolen = s.dolen := rfl
@[simp] theorem State.answer_mem (s : State) (r : Reply) : (s.answer r).mem = s.mem := rfl
@[simp] theorem State.answer_hs (s : State) (r : Reply) : (s.answer r).hs = s.hs := rfl
@[simp] theorem State.answer_hm (s : State) (r : Reply) : (s.answer r).hm = s.hm := rfl
@[simp] theorem State.answer_ck (s : State) (r : Reply) : (s.answer r).ck = s.ck := rfl
@[simp] theorem State.answer_cs (s : State) (r : Reply) : (s.answer r).cs = s.cs := rfl
@[simp] theorem State.answer_moves (s : State) (r : Reply) : (s.answer r).moves = s.moves := rfl
@[simp] theorem State.answer_replies (s : State) (r : Reply) : (s.answer r).replies = r :: s.replies := rfl

@[simp] theorem State.resetStep_cfg (s : State) : s.resetStep.cfg = s.cfg := rfl
@[simp] theorem State.resetStep_err (s : State) : s.resetStep.err = State.reset.err := rfl
@[simp] theorem State.resetStep_dlen (s : State) : s.resetStep.dlen = State.reset.dlen := rfl
@[simp] theorem State.resetStep_dolen (s : State) : s.resetStep.dolen = State.reset.dolen := rfl
@[simp] theorem State.resetStep_mem (s : State) : s.resetStep.mem = State.reset.mem := rfl
@[simp] theorem State.resetStep_hs (s : State) : s.resetStep.hs = State.reset.hs := rfl
@[simp] theorem State.resetStep_hm (s : State) : s.resetStep.hm = State.reset.hm := rfl
@[simp] theorem State.resetStep_ck (s : State) : s.resetStep.ck = State.reset.ck := rfl
@[simp] theorem State.resetStep_cs (s : State) : s.resetStep.cs = State.reset.cs := rfl
@[simp] theorem State.resetStep_moves (s : State) : s.resetStep.moves = s.moves := rfl
@[simp] theorem State.resetStep_replies (s : State) : s.resetStep.replies = s.replies := rfl

@[simp] theorem State.wipeDin_cfg (s : State) : s.wipeDin.cfg = s.cfg := rfl
@[simp] theorem State.wipeDin_err (s : State) : s.wipeDin.err = s.err := rfl
@[simp] theorem State.wipeDin_dlen (s : State) : s.wipeDin.dlen = s.dlen := rfl
@[simp] theorem State.wipeDin_dolen (s : State) : s.wipeDin.dolen = s.dolen := rfl
@[simp] theorem State.wipeDin_hs (s : State) : s.wipeDin.hs = s.hs := rfl
@[simp] theorem State.wipeDin_hm (s : State) : s.wipeDin.hm = s.hm := rfl
@[simp] theorem State.wipeDin_ck (s : State) : s.wipeDin.ck = s.ck := rfl
@[simp] theorem State.wipeDin_cs (s : State) : s.wipeDin.cs = s.cs := rfl
@[simp] theorem State.wipeDin_moves (s : State) : s.wipeDin.moves = s.moves := rfl
@[simp] theorem State.wipeDin_replies (s : State) : s.wipeDin.replies = s.replies := rfl
theorem State.wipeDin_mem (s : State) : s.wipeDin.mem = s.mem.wipe dinBase s.cfg.dmax := rfl

@[simp] theorem State.completed_cfg (s : State) (out : List Byte) :
    (s.completed out).cfg = s.cfg := rfl
@[simp] theorem State.completed_err (s : State) (out : List Byte) :
    (s.completed out).err = .ok := rfl
@[simp] theorem State.completed_dlen (s : State) (out : List Byte) :
    (s.completed out).dlen = s.dlen := rfl
@[simp] theorem State.completed_dolen (s : State) (out : List Byte) :
    (s.completed out).dolen = BitVec.ofNat 32 out.length := rfl
@[simp] theorem State.completed_hs (s : State) (out : List Byte) :
    (s.completed out).hs = s.hs := rfl
@[simp] theorem State.completed_hm (s : State) (out : List Byte) :
    (s.completed out).hm = s.hm := rfl
@[simp] theorem State.completed_ck (s : State) (out : List Byte) :
    (s.completed out).ck = s.ck := rfl
@[simp] theorem State.completed_cs (s : State) (out : List Byte) :
    (s.completed out).cs = s.cs := rfl
@[simp] theorem State.completed_moves (s : State) (out : List Byte) :
    (s.completed out).moves = s.moves := rfl
@[simp] theorem State.completed_replies (s : State) (out : List Byte) :
    (s.completed out).replies = s.replies := rfl
theorem State.completed_mem (s : State) (out : List Byte) :
    (s.completed out).mem =
      (s.mem.wipe doutBase s.cfg.dmax).writeBytes doutBase (out.take s.cfg.dmax) := rfl

/-! Two states with the same fields are the same. -/

theorem State.ext_fields {s t : State} (h1 : s.cfg = t.cfg) (h2 : s.err = t.err)
    (h3 : s.dlen = t.dlen) (h4 : s.dolen = t.dolen) (h5 : s.mem = t.mem) (h6 : s.hs = t.hs)
    (h7 : s.hm = t.hm) (h8 : s.ck = t.ck) (h9 : s.cs = t.cs) (h10 : s.moves = t.moves)
    (h11 : s.replies = t.replies) : s = t := by
  cases s; cases t; simp_all

end Sys2Proof.Machine
end

