-- ==== Sys2Proof/Laws/Port.lean ====
section
/-! SUPPORT. What serving each kind of access does, offset by offset. -/

namespace Sys2Proof.Machine

theorem offset_eq_iff {n : Nat} (hn : n < 2 ^ 14) (off : Offset) :
    off.toNat = n ↔ off = BitVec.ofNat 14 n := by
  constructor
  · rintro rfl; simp
  · rintro rfl; rw [BitVec.toNat_ofNat, Nat.mod_eq_of_lt hn]

/-- An offset is one of a buffer's cells, or it is not. -/
theorem cell_cases (base n a : Nat) :
    (∃ i, i < n ∧ a = base + i) ∨ ∀ i, i < n → a ≠ base + i := by
  by_cases h : base ≤ a ∧ a < base + n
  · exact .inl ⟨a - base, by omega, by omega⟩
  · exact .inr fun i hi e => h (by omega)

/-! ### Reads -/

theorem read32Reply_status (s : State) : read32Reply 0x0004 s = .word (statusWord s) := rfl
theorem read32Reply_dlen (s : State) : read32Reply 0x0008 s = .word s.dlen := rfl
theorem read32Reply_dolen (s : State) : read32Reply 0x000C s = .word s.dolen := rfl

theorem read32Reply_other {off : Offset} (s : State) (h4 : off ≠ 0x0004) (h8 : off ≠ 0x0008)
    (hc : off ≠ 0x000C) : read32Reply off s = .refusedRead 0 := by
  have e4 := mt (offset_eq_iff (n := statusOffset) (by decide) off).mp h4
  have e8 := mt (offset_eq_iff (n := dlenOffset) (by decide) off).mp h8
  have ec := mt (offset_eq_iff (n := dolenOffset) (by decide) off).mp hc
  unfold read32Reply
  rw [if_neg e4, if_neg e8, if_neg ec]

theorem read8Reply_dout {off : Offset} {s : State} {i : Nat} (hi : i < s.cfg.dmax)
    (h : off.toNat = doutBase + i) : read8Reply off s = .byte (s.dout i) := by
  unfold read8Reply
  rw [if_pos ⟨by omega, by omega⟩, h]
  rfl

theorem read8Reply_other {off : Offset} {s : State}
    (h : ∀ i, i < s.cfg.dmax → off.toNat ≠ doutBase + i) : read8Reply off s = .refusedRead 0 := by
  unfold read8Reply
  rw [if_neg fun hh => h (off.toNat - doutBase) (by omega) (by omega)]

/-! ### Writes -/

theorem serveWrite32_cmd (w : Word) (s : State) :
    serveWrite32 0 w s = executeWord w (s.answer .written) := rfl

theorem serveWrite32_dlen (v : Word) (s : State) :
    serveWrite32 0x0008 v s = .next ((s.withDlen v).answer .written) := rfl

theorem serveWrite32_other {off : Offset} (v : Word) (s : State) (h0 : off ≠ 0) (h8 : off ≠ 0x0008) :
    serveWrite32 off v s = .next (s.answer .refusedWrite) := by
  have e0 := mt (offset_eq_iff (n := cmdOffset) (by decide) off).mp h0
  have e8 := mt (offset_eq_iff (n := dlenOffset) (by decide) off).mp h8
  unfold serveWrite32
  rw [if_neg e0, if_neg e8]

theorem serveWrite8_din {off : Offset} (v : Byte) {s : State} {i : Nat} (hi : i < s.cfg.dmax)
    (h : off.toNat = dinBase + i) :
    serveWrite8 off v s = .next ((s.withMem (s.mem.write (dinBase + i) v)).answer .written) := by
  unfold serveWrite8
  rw [if_pos ⟨by omega, by omega⟩, h]

theorem serveWrite8_other {off : Offset} (v : Byte) {s : State}
    (h : ∀ i, i < s.cfg.dmax → off.toNat ≠ dinBase + i) :
    serveWrite8 off v s = .next (s.answer .refusedWrite) := by
  unfold serveWrite8
  rw [if_neg fun hh => h (off.toNat - dinBase) (by omega) (by omega)]

/-! ### A command word -/

theorem executeWord_legal {w : Word} {i : Instr} (h : decode w = .ok i) (s : State) :
    executeWord w s = exec i s := by rw [executeWord, h]

theorem executeWord_illegal {w : Word} {e : IllegalEncoding} (h : decode w = .error e) (s : State) :
    executeWord w s = .next (s.withErr .illegalCommand) := by rw [executeWord, h]; rfl

end Sys2Proof.Machine
end

