-- ==== Sys2Proof/Laws/HostSequences.lean ====
section
/-! SUPPORT. Delivering accesses to the port: a list cut in two, and what each kind of access that the
pseudo-instructions use does (30_encoding R100, R101). -/

namespace Sys2Proof.Machine

@[simp] theorem State.deliver_nil (s : State) : s.deliver [] = s := rfl

theorem State.deliver_append (s : State) (ms ns : List HostMove) :
    s.deliver (ms ++ ns) = (s.deliver ms).deliver ns := List.foldl_append

theorem State.deliver_read32 (s : State) (off : Offset) (ms : List HostMove) :
    s.deliver (.read32 off :: ms) = (s.answer (read32Reply off s)).deliver ms := rfl

theorem State.deliver_read8 (s : State) (off : Offset) (ms : List HostMove) :
    s.deliver (.read8 off :: ms) = (s.answer (read8Reply off s)).deliver ms := rfl

/-- An accepted 8-bit write. -/
theorem State.deliver_din {s : State} {i : Nat} (hi : i < s.cfg.dmax) (b : Byte)
    (ms : List HostMove) :
    s.deliver (.write8 (BitVec.ofNat 14 (dinBase + i)) b :: ms) =
      ((s.withMem (s.mem.write (dinBase + i) b)).answer .written).deliver ms := by
  have hd := s.cfg.dmax_upper
  have e : (BitVec.ofNat 14 (dinBase + i)).toNat = dinBase + i := by
    rw [BitVec.toNat_ofNat, Nat.mod_eq_of_lt (by unfold dinBase; omega)]
  show (match serveWrite8 _ b s with | .next t => t | _ => s).deliver ms = _
  rw [serveWrite8_din b hi e]

theorem State.deliver_dlen (s : State) (v : Word) (ms : List HostMove) :
    s.deliver (.write32 (BitVec.ofNat 14 dlenOffset) v :: ms) =
      ((s.withDlen v).answer .written).deliver ms := rfl

/-- A command word: the state that the command leaves, the write being answered. -/
theorem State.deliver_command {s t : State} {i : Instr} (hd : decode (encode i) = .ok i)
    (h : exec i (s.answer .written) = .next t) (ms : List HostMove) :
    s.deliver (command i :: ms) = t.deliver ms := by
  show (match serveWrite32 0 (encode i) s with | .next t => t | _ => s).deliver ms = _
  rw [serveWrite32_cmd, executeWord_legal hd, h]

@[simp] theorem State.lastWord_answer (s : State) (r : Reply) :
    (s.answer r).lastWord = r.wordData := rfl

/-- The n that GET reads is DOLEN (30_encoding R101). -/
theorem State.lastWord_dolen (s : State) :
    (s.deliver [.read32 (BitVec.ofNat 14 dolenOffset)]).lastWord = s.dolen := rfl

/-- ERR? reads the low four bits of STATUS (30_encoding R101). -/
theorem State.errQuery_eq (s : State) :
    s.errQuery = (s.answer (.word (statusWord s)), (statusWord s).extractLsb' 0 4) := rfl

end Sys2Proof.Machine
end

