-- ==== Sys2Proof/Laws/Memory.lean ====
section
/-! SUPPORT. The laws of the cells: read after write, what a wipe leaves, and the canonical form,
which every operation keeps. -/

namespace Sys2Proof.Machine

/-! ### Reading -/

@[simp] theorem Memory.read_nil (a : Nat) : Memory.read [] a = 0 := rfl

theorem Memory.read_cons (c : Host.Cell) (m : Memory) (a : Nat) :
    Memory.read (c :: m) a = if c.1 = a then c.2 else Memory.read m a := rfl

/-- A filter that keeps every entry at `a` leaves the cell as it was. -/
theorem Memory.read_filter_keep (p : Host.Cell → Bool) (m : Memory) (a : Nat)
    (h : ∀ c : Host.Cell, c.1 = a → p c = true) : Memory.read (m.filter p) a = Memory.read m a := by
  induction m with
  | nil => rfl
  | cons c m ih =>
    by_cases hp : p c = true
    · rw [List.filter_cons_of_pos hp, Memory.read_cons, Memory.read_cons, ih]
    · have hca : c.1 ≠ a := fun e => hp (h c e)
      rw [List.filter_cons_of_neg hp, Memory.read_cons, if_neg hca, ih]

/-- A filter that drops every entry at `a` leaves the cell at 0. -/
theorem Memory.read_filter_drop (p : Host.Cell → Bool) (m : Memory) (a : Nat)
    (h : ∀ c : Host.Cell, c.1 = a → p c = false) : Memory.read (m.filter p) a = 0 := by
  induction m with
  | nil => rfl
  | cons c m ih =>
    by_cases hp : p c = true
    · have hca : c.1 ≠ a := fun e => by simp [h c e] at hp
      rw [List.filter_cons_of_pos hp, Memory.read_cons, if_neg hca, ih]
    · rw [List.filter_cons_of_neg hp, ih]

theorem Memory.read_erase_same (m : Memory) (a : Nat) : (m.erase a).read a = 0 :=
  Memory.read_filter_drop _ m a fun c hc => by simp [hc]

theorem Memory.read_erase_other (m : Memory) {a x : Nat} (h : x ≠ a) :
    (m.erase a).read x = m.read x :=
  Memory.read_filter_keep _ m x fun c hc => by simp [hc, h]

theorem Memory.read_insert_other (m : Memory) {a x : Nat} (b : Byte) (h : x ≠ a) :
    (Memory.insert m a b).read x = m.read x := by
  induction m with
  | nil => simp [Memory.insert, Memory.read_cons, Ne.symm h]
  | cons c m ih =>
    unfold Memory.insert
    split
    · simp [Memory.read_cons, Ne.symm h]
    · simp [Memory.read_cons, ih]

theorem Memory.read_insert_same (m : Memory) (a : Nat) (b : Byte) (h : ∀ c ∈ m, c.1 ≠ a) :
    (Memory.insert m a b).read a = b := by
  induction m with
  | nil => simp [Memory.insert, Memory.read_cons]
  | cons c m ih =>
    have hc : c.1 ≠ a := h c (by simp)
    unfold Memory.insert
    split
    · simp [Memory.read_cons]
    · rw [Memory.read_cons, if_neg hc]
      exact ih fun d hd => h d (by simp [hd])

/-- A read after a write to the same cell gives the value written. -/
@[simp] theorem Memory.read_write_same (m : Memory) (a : Nat) (b : Byte) :
    (m.write a b).read a = b := by
  unfold Memory.write
  split
  · next h => rw [Memory.read_erase_same, h]; rfl
  · exact Memory.read_insert_same _ _ _ fun c hc => by
      simpa using (List.mem_filter.mp hc).2

/-- A write leaves every other cell alone. -/
theorem Memory.read_write_other (m : Memory) {a x : Nat} (b : Byte) (h : x ≠ a) :
    (m.write a b).read x = m.read x := by
  unfold Memory.write
  split
  · exact Memory.read_erase_other m h
  · rw [Memory.read_insert_other _ _ h, Memory.read_erase_other m h]

/-- What consecutive writes leave in any cell. -/
theorem Memory.read_writeBytes (bs : List Byte) : ∀ (m : Memory) (a x : Nat),
    (m.writeBytes a bs).read x =
      if a ≤ x ∧ x < a + bs.length then bs.getD (x - a) 0 else m.read x := by
  induction bs with
  | nil => intro m a x; simp [Memory.writeBytes]
  | cons b bs ih =>
    intro m a x
    rw [Memory.writeBytes, ih]
    rcases Nat.lt_trichotomy x a with h | h | h
    · rw [if_neg (by omega), if_neg (by omega), Memory.read_write_other _ _ (by omega)]
    · subst h
      rw [if_neg (by omega), if_pos (by simp)]
      simp
    · have e : x - a = (x - (a + 1)) + 1 := by omega
      by_cases hx : x < a + (b :: bs).length
      · rw [if_pos (by simp only [List.length_cons] at hx; omega), if_pos ⟨by omega, hx⟩, e]
        simp
      · rw [if_neg (by simp only [List.length_cons] at hx; omega), if_neg (by tauto),
          Memory.read_write_other _ _ (by omega)]

/-- What a wipe leaves in any cell. -/
theorem Memory.read_wipe (m : Memory) (a n x : Nat) :
    (m.wipe a n).read x = if a ≤ x ∧ x < a + n then 0 else m.read x := by
  split
  · next h => exact Memory.read_filter_drop _ m x fun c hc => by simp [hc]; omega
  · next h => exact Memory.read_filter_keep _ m x fun c hc => by simp [hc]; omega

/-! ### The canonical form -/

theorem Memory.wf_nil : Memory.wf [] := ⟨List.Pairwise.nil, by simp⟩

theorem Memory.wf_filter (p : Host.Cell → Bool) {m : Memory} (h : m.wf) :
    Memory.wf (m.filter p) :=
  ⟨h.1.filter p, fun c hc => h.2 c (List.mem_filter.mp hc).1⟩

theorem Memory.wf_erase {m : Memory} (a : Nat) (h : m.wf) : (m.erase a).wf := Memory.wf_filter _ h

theorem Memory.wf_wipe {m : Memory} (a n : Nat) (h : m.wf) : (m.wipe a n).wf := Memory.wf_filter _ h

/-- What an insertion lists: the new cell and the cells before. -/
theorem Memory.mem_insert (m : Memory) (a : Nat) (b : Byte) (c : Host.Cell) :
    c ∈ Memory.insert m a b ↔ c = (a, b) ∨ c ∈ m := by
  induction m with
  | nil => simp [Memory.insert]
  | cons d m ih =>
    unfold Memory.insert
    split
    · simp
    · simp only [List.mem_cons, ih]; tauto

theorem Memory.wf_insert {m : Memory} (a : Nat) {b : Byte} (hb : b ≠ Memory.unlisted)
    (ha : ∀ c ∈ m, c.1 ≠ a) (h : m.wf) : (Memory.insert m a b).wf := by
  refine ⟨?_, fun c hc => ?_⟩
  · induction m with
    | nil => simp [Memory.insert]
    | cons d m ih =>
      have hd := List.pairwise_cons.mp h.1
      unfold Memory.insert
      split
      · next hlt =>
        refine List.pairwise_cons.mpr ⟨fun c hc => ?_, h.1⟩
        rcases List.mem_cons.mp hc with rfl | hc
        · exact hlt
        · exact Nat.lt_trans hlt (hd.1 c hc)
      · next hge =>
        refine List.pairwise_cons.mpr ⟨fun c hc => ?_, ?_⟩
        · rcases (Memory.mem_insert m a b c).mp hc with rfl | hc
          · have := ha d (by simp)
            show d.1 < a
            omega
          · exact hd.1 c hc
        · exact ih (fun c hc => ha c (by simp [hc])) ⟨hd.2, fun c hc => h.2 c (by simp [hc])⟩
  · rcases (Memory.mem_insert m a b c).mp hc with rfl | hc
    · exact hb
    · exact h.2 c hc

theorem Memory.wf_write {m : Memory} (a : Nat) (b : Byte) (h : m.wf) : (m.write a b).wf := by
  unfold Memory.write
  split
  · exact Memory.wf_erase a h
  · next hb =>
    exact Memory.wf_insert a hb (fun c hc => by simpa using (List.mem_filter.mp hc).2)
      (Memory.wf_erase a h)

theorem Memory.wf_writeBytes (bs : List Byte) : ∀ {m : Memory} (a : Nat), m.wf →
    (m.writeBytes a bs).wf := by
  induction bs with
  | nil => intro m a h; exact h
  | cons b bs ih => intro m a h; exact ih (a + 1) (Memory.wf_write a b h)

theorem Memory.wf_reset : State.reset.mem.wf := Memory.wf_nil

/-! ### Which cells are listed -/

theorem Memory.mem_write {m : Memory} {a : Nat} {b : Byte} {c : Host.Cell} (h : c ∈ m.write a b) :
    c.1 = a ∨ c ∈ m := by
  unfold Memory.write at h
  split at h
  · exact .inr (List.mem_filter.mp h).1
  · rcases (Memory.mem_insert _ a b c).mp h with rfl | h
    · exact .inl rfl
    · exact .inr (List.mem_filter.mp h).1

theorem Memory.mem_writeBytes (bs : List Byte) : ∀ {m : Memory} {a : Nat} {c : Host.Cell},
    c ∈ m.writeBytes a bs → (a ≤ c.1 ∧ c.1 < a + bs.length) ∨ c ∈ m := by
  induction bs with
  | nil => intro m a c h; exact .inr h
  | cons b bs ih =>
    intro m a c h
    rcases ih h with h | h
    · exact .inl ⟨by omega, by simp only [List.length_cons]; omega⟩
    · rcases Memory.mem_write h with h | h
      · exact .inl ⟨by omega, by simp only [List.length_cons]; omega⟩
      · exact .inr h

theorem Memory.mem_wipe {m : Memory} {a n : Nat} {c : Host.Cell} (h : c ∈ m.wipe a n) :
    c ∈ m ∧ (c.1 < a ∨ a + n ≤ c.1) := by
  have := List.mem_filter.mp h
  exact ⟨this.1, by simpa using this.2⟩

/-- Equal memories are equal data: a canonical memory is what its cells read. -/
theorem Memory.ext_read : ∀ {m k : Memory}, m.wf → k.wf → (∀ a, m.read a = k.read a) → m = k := by
  have below : ∀ (m : Memory) (a : Nat), (∀ c ∈ m, a < c.1) → m.read a = 0 := by
    intro m
    induction m with
    | nil => intro a _; rfl
    | cons c m ih =>
      intro a h
      have hc := h c (by simp)
      rw [Memory.read_cons, if_neg (by omega)]
      exact ih a fun d hd => h d (by simp [hd])
  intro m
  induction m with
  | nil =>
    intro k _ hk h
    cases k with
    | nil => rfl
    | cons d k =>
      have := h d.1
      rw [Memory.read_cons, if_pos rfl] at this
      exact absurd this.symm (hk.2 d (by simp))
  | cons c m ih =>
    intro k hm hk h
    have pm := List.pairwise_cons.mp hm.1
    cases k with
    | nil =>
      have := h c.1
      rw [Memory.read_cons, if_pos rfl] at this
      exact absurd this (hm.2 c (by simp))
    | cons d k =>
      have pk := List.pairwise_cons.mp hk.1
      have key : c.1 = d.1 := by
        rcases Nat.lt_trichotomy c.1 d.1 with hl | he | hl
        · have e := h c.1
          rw [Memory.read_cons, if_pos rfl, below (d :: k) c.1 (fun x hx => by
            rcases List.mem_cons.mp hx with rfl | hx
            · exact hl
            · exact Nat.lt_trans hl (pk.1 x hx))] at e
          exact absurd e (hm.2 c (by simp))
        · exact he
        · have e := h d.1
          rw [Memory.read_cons d k, if_pos rfl, below (c :: m) d.1 (fun x hx => by
            rcases List.mem_cons.mp hx with rfl | hx
            · exact hl
            · exact Nat.lt_trans hl (pm.1 x hx))] at e
          exact absurd e.symm (hk.2 d (by simp))
      have val : c.2 = d.2 := by
        have e := h c.1
        rwa [Memory.read_cons, Memory.read_cons, if_pos rfl, if_pos key.symm] at e
      have hcd : c = d := Prod.ext key val
      subst hcd
      congr 1
      refine ih ⟨pm.2, fun x hx => hm.2 x (by simp [hx])⟩
        ⟨pk.2, fun x hx => hk.2 x (by simp [hx])⟩ fun a => ?_
      by_cases ha : c.1 = a
      · subst ha; rw [below m c.1 pm.1, below k c.1 pk.1]
      · have e := h a
        rwa [Memory.read_cons, Memory.read_cons, if_neg ha, if_neg ha] at e

end Sys2Proof.Machine
end

