-- ==== Sys2Proof/Laws/Ops.lean ====
section
/-! SUPPORT. For each shared operation, what it can do, said once: the endings of a command, the
checks, the wipes, the operands, the reset step, the serving of an access. -/

namespace Sys2Proof.Machine

/-! ### The endings -/

theorem done_next {out : List Byte} {s t : State} : done out s = .next t ↔ t = s.completed out := by
  simp [done, eq_comm]

theorem fail_next {e : ErrCode} {s t : State} : fail e s = .next t ↔ t = s.withErr e := by
  simp [fail, eq_comm]

/-- The shape of every meaning with checks: a check finds an error and that error is taken, or none
does and the command completes. -/
theorem checked_next {c : Option ErrCode} {out : List Byte} {s s' t : State} :
    (match c with
      | some e => fail e s
      | none => done out s') = .next t ↔
      (∃ e, c = some e ∧ t = s.withErr e) ∨ (c = none ∧ t = s'.completed out) := by
  cases c <;> simp [fail_next, done_next]

/-- Every cell after `done(out)`: DOUT rewritten in full, the others as before. -/
theorem State.completed_read (s : State) (out : List Byte) (a : Nat) :
    (s.completed out).mem.read a =
      if InDout s a then out.getD (a - doutBase) 0 else s.mem.read a := by
  rw [State.completed_mem, Memory.read_writeBytes, Memory.read_wipe]
  have hl : (out.take s.cfg.dmax).length = min s.cfg.dmax out.length := by simp
  by_cases h : InDout s a
  · rw [if_pos h]
    have h' := h
    unfold InDout at h'
    split
    · next hr =>
      rw [List.getD_eq_getElem?_getD, List.getElem?_take_of_lt (by omega),
        List.getD_eq_getElem?_getD]
    · next hr =>
      rw [List.getD_eq_getElem?_getD, List.getElem?_eq_none (by omega)]
      rfl
  · rw [if_neg h]
    unfold InDout at h
    rw [if_neg (by omega), if_neg h]

theorem State.completed_dout (s : State) (out : List Byte) {i : Nat} (h : i < s.cfg.dmax) :
    (s.completed out).dout i = out.getD i 0 := by
  rw [State.dout, State.completed_read, if_pos ⟨by omega, by omega⟩, Nat.add_sub_cancel_left]

theorem State.completed_onlyDout (s : State) (out : List Byte) :
    OnlyDoutChanged s (s.completed out) := fun a h => by rw [State.completed_read, if_neg h]

/-- DIN lies below DOUT, so `done` leaves it alone. -/
theorem State.completed_din (s : State) (out : List Byte) {i : Nat} (h : i < s.cfg.dmax) :
    (s.completed out).din i = s.din i := by
  have hc := s.cfg.dmax_upper
  have hd : dinBase = 4096 := rfl
  have ho : doutBase = 8192 := rfl
  refine State.completed_onlyDout s out _ fun hh => ?_
  unfold InDout at hh
  omega

/-- What `done(out)` leaves, for a result that fits the buffer (30_encoding R98). -/
theorem State.completed_spec (s : State) {out : List Byte} (h : out.length ≤ s.cfg.dmax) :
    Completed (s.completed out) out where
  err := rfl
  dolen := by
    have := s.cfg.dmax_upper
    simp only [State.completed_dolen, BitVec.toNat_ofNat]
    omega
  dout := fun _ hi => State.completed_dout s out hi

theorem State.completed_samePort (s : State) (out : List Byte) : SamePort s (s.completed out) :=
  ⟨rfl, rfl, rfl⟩

theorem State.completed_wf {s : State} (out : List Byte) (h : s.mem.wf) :
    (s.completed out).mem.wf := by
  rw [State.completed_mem]
  exact Memory.wf_writeBytes _ _ (Memory.wf_wipe _ _ h)

theorem State.completed_mem_cells {s : State} {out : List Byte} {c : Host.Cell}
    (h : c ∈ (s.completed out).mem) : InDout s c.1 ∨ c ∈ s.mem := by
  rw [State.completed_mem] at h
  rcases Memory.mem_writeBytes _ h with h | h
  · have := List.length_take_le s.cfg.dmax out
    exact .inl ⟨h.1, by omega⟩
  · exact .inr (Memory.mem_wipe h).1

/-! ### The checks -/

theorem lengthCheck_cases (s : State) :
    (s.dlen.toNat ≤ s.cfg.dmax ∧ lengthCheck s = none) ∨
      (s.cfg.dmax < s.dlen.toNat ∧ lengthCheck s = some .invalidLength) := by
  unfold lengthCheck
  split
  · exact .inr ⟨by omega, rfl⟩
  · exact .inl ⟨by omega, rfl⟩

theorem limitCheck_cases (limit total : Nat) (s : State) :
    (total + s.dlen.toNat < limit ∧ limitCheck limit total s = none) ∨
      (limit ≤ total + s.dlen.toNat ∧ limitCheck limit total s = some .invalidLength) := by
  unfold limitCheck
  split
  · exact .inr ⟨by omega, rfl⟩
  · exact .inl ⟨by omega, rfl⟩

@[simp] theorem phaseCheck_active : phaseCheck .active = none := rfl
@[simp] theorem phaseCheck_empty : phaseCheck .empty = some .noState := rfl
@[simp] theorem phaseCheck_final : phaseCheck .final = some .invalidStateReuse := rfl
@[simp] theorem existsCheck_true : existsCheck true = none := rfl
@[simp] theorem existsCheck_false : existsCheck false = some .noState := rfl

/-! ### The wipe of DIN -/

theorem State.wipeDin_read (s : State) (a : Nat) :
    s.wipeDin.mem.read a = if InDin s a then 0 else s.mem.read a := by
  rw [State.wipeDin_mem, Memory.read_wipe]

theorem State.wipeDin_din (s : State) {i : Nat} (h : i < s.cfg.dmax) : s.wipeDin.din i = 0 := by
  rw [State.din, State.wipeDin_read, if_pos ⟨by omega, by omega⟩]

/-- What a command that wipes DIN and completes leaves in the cells. -/
theorem State.wipeDin_completed_dinWiped (s : State) (out : List Byte) :
    DinWiped s (s.wipeDin.completed out) := by
  refine ⟨fun i hi => ?_, fun a hi ho => ?_⟩
  · rw [State.completed_din _ _ (by simpa using hi), State.wipeDin_din s hi]
  · rw [State.completed_onlyDout s.wipeDin out a (by simpa using ho), State.wipeDin_read, if_neg hi]

/-! ### Operands -/

@[simp] theorem State.length_operand (s : State) (n : Nat) : (s.operand n).length = n := by
  simp [State.operand]

@[simp] theorem State.length_dlenOperand (s : State) : s.dlenOperand.length = s.dlen.toNat := by
  simp [State.dlenOperand]

theorem State.operand_getD (s : State) {n i : Nat} (h : i < n) : (s.operand n).getD i 0 = s.din i := by
  simp [State.operand, List.getD_eq_getElem?_getD, h]

/-- A PUT makes its bytes the operand. -/
theorem State.loaded_dlenOperand (s : State) {x : List Byte} (h : x.length ≤ s.cfg.dmax) :
    (s.loaded x).dlenOperand = x := by
  have hc := s.cfg.dmax_upper
  have hl : (s.loaded x).dlen.toNat = x.length := by
    show (BitVec.ofNat 32 x.length).toNat = x.length
    rw [BitVec.toNat_ofNat]
    omega
  refine List.ext_getElem (by simp [hl]) fun i h1 h2 => ?_
  have e : (s.loaded x).din i = x.getD i 0 := by
    show (s.mem.writeBytes dinBase x).read (dinBase + i) = _
    rw [Memory.read_writeBytes, if_pos ⟨by omega, by omega⟩, Nat.add_sub_cancel_left]
  simp only [State.dlenOperand, State.operand, List.getElem_map, List.getElem_range]
  rw [e, List.getD_eq_getElem?_getD, List.getElem?_eq_getElem h2, Option.getD_some]

theorem keyWordsOf_eq_some {kbits : Nat} {k : KeyWords} :
    keyWordsOf kbits = some k ↔
      (kbits = 128 ∧ k = .four) ∨ (kbits = 192 ∧ k = .six) ∨ (kbits = 256 ∧ k = .eight) := by
  unfold keyWordsOf
  split_ifs <;> subst_vars <;> cases k <;> simp_all

theorem keyWordsOf_eq_none {kbits : Nat} :
    keyWordsOf kbits = none ↔ kbits ≠ 128 ∧ kbits ≠ 192 ∧ kbits ≠ 256 := by
  unfold keyWordsOf
  split_ifs <;> simp_all

theorem keyWordsOf_count {kbits : Nat} {k : KeyWords} (h : keyWordsOf kbits = some k) :
    k.count = kbits / 32 ∧ 4 * k.count = kbits / 8 := by
  rcases keyWordsOf_eq_some.mp h with ⟨rfl, rfl⟩ | ⟨rfl, rfl⟩ | ⟨rfl, rfl⟩ <;> exact ⟨rfl, rfl⟩

/-! ### Reset -/

/-- A state whose elements all have their reset value is the state that a reset step leaves. -/
theorem State.resetStep_of_fields {s t : State} (hc : t.cfg = s.cfg) (he : t.err = .ok)
    (hl : t.dlen = 0) (ho : t.dolen = 0) (hm : t.mem = []) (hhs : t.hs = HashUnit.wiped)
    (hhm : t.hm = HmacUnit.wiped) (hck : t.ck = CipherUnit.wiped) (hcs : t.cs = StreamUnit.wiped)
    (hmv : t.moves = s.moves) (hr : t.replies = s.replies) : t = s.resetStep :=
  State.ext_fields hc he hl ho hm hhs hhm hck hcs hmv hr

/-! ### Serving an access -/

theorem step_idle {s : State} (h : s.moves = []) : step s = .next s := by
  simp [step, serveNext, h]

theorem step_serves {s : State} {m : HostMove} {rest : List HostMove} (h : s.moves = m :: rest) :
    step s = serve m (s.withMoves rest) := by
  simp [step, serveNext, h]

end Sys2Proof.Machine
end

