-- ==== Sys2Proof/Laws/PerInstr.lean ====
section
/-! SUPPORT. Per command: the fields of its word (30_encoding R91). -/

namespace Sys2Proof.Laws

/-- A word in format C gives back its three fields. -/
theorem formatC_fields (arg : BitVec 16) (op : BitVec 8) :
    rsvField (formatC arg op) = 0 ∧ opField (formatC arg op) = op ∧ argField (formatC arg op) = arg := by
  refine ⟨?_, ?_, ?_⟩ <;>
    (refine BitVec.eq_of_getLsbD_eq fun i hi => ?_
     simp only [rsvField, opField, argField, formatC, BitVec.getLsbD_extractLsb',
       BitVec.getLsbD_append, BitVec.getLsbD_zero])
  · simp [hi, show ¬ 8 + i < 8 by omega, show 8 + i < 16 by omega]
  · simp [hi, show i < 16 by omega]
  · simp [hi, show ¬ 16 + i < 16 by omega]

/-- The word of a command has RSV zero, the command's OP and its argument. -/
def EncodeFields.Statement (i : Instr) : Prop :=
  rsvField (encode i) = 0 ∧ opField (encode i) = i.opcode ∧ argField (encode i) = i.argument

theorem EncodeFields.hashInit (alg : HashAlg) : EncodeFields.Statement (.hashInit alg) :=
  formatC_fields _ _
theorem EncodeFields.hashUpdate : EncodeFields.Statement .hashUpdate := formatC_fields _ _
theorem EncodeFields.hashFinal : EncodeFields.Statement .hashFinal := formatC_fields _ _
theorem EncodeFields.hmacInit (alg : HashAlg) : EncodeFields.Statement (.hmacInit alg) :=
  formatC_fields _ _
theorem EncodeFields.hmacUpdate : EncodeFields.Statement .hmacUpdate := formatC_fields _ _
theorem EncodeFields.hmacFinal : EncodeFields.Statement .hmacFinal := formatC_fields _ _
theorem EncodeFields.aesSchedule (kbits : Nat) : EncodeFields.Statement (.aesSchedule kbits) :=
  formatC_fields _ _
theorem EncodeFields.aesEncrypt : EncodeFields.Statement .aesEncrypt := formatC_fields _ _
theorem EncodeFields.ctrInit : EncodeFields.Statement .ctrInit := formatC_fields _ _
theorem EncodeFields.ctrProcess : EncodeFields.Statement .ctrProcess := formatC_fields _ _
theorem EncodeFields.zeroize (zmask : BitVec 5) : EncodeFields.Statement (.zeroize zmask) :=
  formatC_fields _ _

end Sys2Proof.Laws
end

