-- ==== Sys2Proof/Laws/System.lean ====
section
/-! SUPPORT. One lemma per field for each of the five wipes of ZEROIZE. -/

namespace Sys2Proof.Machine

@[simp] theorem State.zeroizeHash_cfg (s : State) (go : Bool) : (s.zeroizeHash go).cfg = s.cfg := by
  cases go <;> rfl
@[simp] theorem State.zeroizeHash_err (s : State) (go : Bool) : (s.zeroizeHash go).err = s.err := by
  cases go <;> rfl
@[simp] theorem State.zeroizeHash_dlen (s : State) (go : Bool) : (s.zeroizeHash go).dlen = s.dlen := by
  cases go <;> rfl
@[simp] theorem State.zeroizeHash_dolen (s : State) (go : Bool) : (s.zeroizeHash go).dolen = s.dolen := by
  cases go <;> rfl
@[simp] theorem State.zeroizeHash_mem (s : State) (go : Bool) : (s.zeroizeHash go).mem = s.mem := by
  cases go <;> rfl
@[simp] theorem State.zeroizeHash_hs (s : State) (go : Bool) :
    (s.zeroizeHash go).hs = if go then HashUnit.wiped else s.hs := by cases go <;> rfl
@[simp] theorem State.zeroizeHash_hm (s : State) (go : Bool) : (s.zeroizeHash go).hm = s.hm := by
  cases go <;> rfl
@[simp] theorem State.zeroizeHash_ck (s : State) (go : Bool) : (s.zeroizeHash go).ck = s.ck := by
  cases go <;> rfl
@[simp] theorem State.zeroizeHash_cs (s : State) (go : Bool) : (s.zeroizeHash go).cs = s.cs := by
  cases go <;> rfl
@[simp] theorem State.zeroizeHash_moves (s : State) (go : Bool) : (s.zeroizeHash go).moves = s.moves := by
  cases go <;> rfl
@[simp] theorem State.zeroizeHash_replies (s : State) (go : Bool) : (s.zeroizeHash go).replies = s.replies := by
  cases go <;> rfl

@[simp] theorem State.zeroizeHmac_cfg (s : State) (go : Bool) : (s.zeroizeHmac go).cfg = s.cfg := by
  cases go <;> rfl
@[simp] theorem State.zeroizeHmac_err (s : State) (go : Bool) : (s.zeroizeHmac go).err = s.err := by
  cases go <;> rfl
@[simp] theorem State.zeroizeHmac_dlen (s : State) (go : Bool) : (s.zeroizeHmac go).dlen = s.dlen := by
  cases go <;> rfl
@[simp] theorem State.zeroizeHmac_dolen (s : State) (go : Bool) : (s.zeroizeHmac go).dolen = s.dolen := by
  cases go <;> rfl
@[simp] theorem State.zeroizeHmac_mem (s : State) (go : Bool) : (s.zeroizeHmac go).mem = s.mem := by
  cases go <;> rfl
@[simp] theorem State.zeroizeHmac_hs (s : State) (go : Bool) : (s.zeroizeHmac go).hs = s.hs := by
  cases go <;> rfl
@[simp] theorem State.zeroizeHmac_hm (s : State) (go : Bool) :
    (s.zeroizeHmac go).hm = if go then HmacUnit.wiped else s.hm := by cases go <;> rfl
@[simp] theorem State.zeroizeHmac_ck (s : State) (go : Bool) : (s.zeroizeHmac go).ck = s.ck := by
  cases go <;> rfl
@[simp] theorem State.zeroizeHmac_cs (s : State) (go : Bool) : (s.zeroizeHmac go).cs = s.cs := by
  cases go <;> rfl
@[simp] theorem State.zeroizeHmac_moves (s : State) (go : Bool) : (s.zeroizeHmac go).moves = s.moves := by
  cases go <;> rfl
@[simp] theorem State.zeroizeHmac_replies (s : State) (go : Bool) : (s.zeroizeHmac go).replies = s.replies := by
  cases go <;> rfl

@[simp] theorem State.zeroizeCipher_cfg (s : State) (go : Bool) : (s.zeroizeCipher go).cfg = s.cfg := by
  cases go <;> rfl
@[simp] theorem State.zeroizeCipher_err (s : State) (go : Bool) : (s.zeroizeCipher go).err = s.err := by
  cases go <;> rfl
@[simp] theorem State.zeroizeCipher_dlen (s : State) (go : Bool) : (s.zeroizeCipher go).dlen = s.dlen := by
  cases go <;> rfl
@[simp] theorem State.zeroizeCipher_dolen (s : State) (go : Bool) : (s.zeroizeCipher go).dolen = s.dolen := by
  cases go <;> rfl
@[simp] theorem State.zeroizeCipher_mem (s : State) (go : Bool) : (s.zeroizeCipher go).mem = s.mem := by
  cases go <;> rfl
@[simp] theorem State.zeroizeCipher_hs (s : State) (go : Bool) : (s.zeroizeCipher go).hs = s.hs := by
  cases go <;> rfl
@[simp] theorem State.zeroizeCipher_hm (s : State) (go : Bool) : (s.zeroizeCipher go).hm = s.hm := by
  cases go <;> rfl
@[simp] theorem State.zeroizeCipher_ck (s : State) (go : Bool) :
    (s.zeroizeCipher go).ck = if go then CipherUnit.wiped else s.ck := by cases go <;> rfl
@[simp] theorem State.zeroizeCipher_cs (s : State) (go : Bool) :
    (s.zeroizeCipher go).cs = if go then StreamUnit.wiped else s.cs := by cases go <;> rfl
@[simp] theorem State.zeroizeCipher_moves (s : State) (go : Bool) : (s.zeroizeCipher go).moves = s.moves := by
  cases go <;> rfl
@[simp] theorem State.zeroizeCipher_replies (s : State) (go : Bool) : (s.zeroizeCipher go).replies = s.replies := by
  cases go <;> rfl

@[simp] theorem State.zeroizeStream_cfg (s : State) (go : Bool) : (s.zeroizeStream go).cfg = s.cfg := by
  cases go <;> rfl
@[simp] theorem State.zeroizeStream_err (s : State) (go : Bool) : (s.zeroizeStream go).err = s.err := by
  cases go <;> rfl
@[simp] theorem State.zeroizeStream_dlen (s : State) (go : Bool) : (s.zeroizeStream go).dlen = s.dlen := by
  cases go <;> rfl
@[simp] theorem State.zeroizeStream_dolen (s : State) (go : Bool) : (s.zeroizeStream go).dolen = s.dolen := by
  cases go <;> rfl
@[simp] theorem State.zeroizeStream_mem (s : State) (go : Bool) : (s.zeroizeStream go).mem = s.mem := by
  cases go <;> rfl
@[simp] theorem State.zeroizeStream_hs (s : State) (go : Bool) : (s.zeroizeStream go).hs = s.hs := by
  cases go <;> rfl
@[simp] theorem State.zeroizeStream_hm (s : State) (go : Bool) : (s.zeroizeStream go).hm = s.hm := by
  cases go <;> rfl
@[simp] theorem State.zeroizeStream_ck (s : State) (go : Bool) : (s.zeroizeStream go).ck = s.ck := by
  cases go <;> rfl
@[simp] theorem State.zeroizeStream_cs (s : State) (go : Bool) :
    (s.zeroizeStream go).cs = if go then StreamUnit.wiped else s.cs := by cases go <;> rfl
@[simp] theorem State.zeroizeStream_moves (s : State) (go : Bool) : (s.zeroizeStream go).moves = s.moves := by
  cases go <;> rfl
@[simp] theorem State.zeroizeStream_replies (s : State) (go : Bool) : (s.zeroizeStream go).replies = s.replies := by
  cases go <;> rfl

@[simp] theorem State.zeroizeDin_cfg (s : State) (go : Bool) : (s.zeroizeDin go).cfg = s.cfg := by
  cases go <;> rfl
@[simp] theorem State.zeroizeDin_err (s : State) (go : Bool) : (s.zeroizeDin go).err = s.err := by
  cases go <;> rfl
@[simp] theorem State.zeroizeDin_dlen (s : State) (go : Bool) :
    (s.zeroizeDin go).dlen = if go then 0 else s.dlen := by cases go <;> rfl
@[simp] theorem State.zeroizeDin_dolen (s : State) (go : Bool) : (s.zeroizeDin go).dolen = s.dolen := by
  cases go <;> rfl
@[simp] theorem State.zeroizeDin_mem (s : State) (go : Bool) :
    (s.zeroizeDin go).mem = if go then s.mem.wipe dinBase s.cfg.dmax else s.mem := by cases go <;> rfl
@[simp] theorem State.zeroizeDin_hs (s : State) (go : Bool) : (s.zeroizeDin go).hs = s.hs := by
  cases go <;> rfl
@[simp] theorem State.zeroizeDin_hm (s : State) (go : Bool) : (s.zeroizeDin go).hm = s.hm := by
  cases go <;> rfl
@[simp] theorem State.zeroizeDin_ck (s : State) (go : Bool) : (s.zeroizeDin go).ck = s.ck := by
  cases go <;> rfl
@[simp] theorem State.zeroizeDin_cs (s : State) (go : Bool) : (s.zeroizeDin go).cs = s.cs := by
  cases go <;> rfl
@[simp] theorem State.zeroizeDin_moves (s : State) (go : Bool) : (s.zeroizeDin go).moves = s.moves := by
  cases go <;> rfl
@[simp] theorem State.zeroizeDin_replies (s : State) (go : Bool) : (s.zeroizeDin go).replies = s.replies := by
  cases go <;> rfl

end Sys2Proof.Machine
end

