-- ==== Sys2Proof/Tests/Slice0.lean ====
section
/-! SUPPORT. Tests against the spec's vectors (95 and 95b, which derive every value from the rules
and checked it against independent implementations; named TESTED nowhere, since no hardware ran
them), and a witness for the hypotheses of each statement that has any. -/

namespace Sys2Proof.Tests

open Sys2Proof Sys2Proof.Machine

/-! ### Small states -/

/-- From reset, HS open on `m`. -/
def hashing (alg : HashAlg) (m : List Byte) : State :=
  State.reset.withHs ⟨.active, alg, ctxAbsorb alg (ctxInit alg) m⟩

/-- From reset, HM open under `key` on `m`. -/
def macing (alg : HashAlg) (key m : List Byte) : State :=
  State.reset.withHm ⟨.active, alg, ctxAbsorb alg (ctxInit alg) (innerPad alg key ++ m),
    ctxAbsorb alg (ctxInit alg) (outerPad alg key)⟩

/-- From reset, `key` scheduled. -/
def keyed (nk : KeyWords) (key : List Byte) : State := State.reset.withCk (scheduleOf nk key)

/-- From reset, `key` scheduled and a stream at counter `c0`. -/
def streaming (nk : KeyWords) (key c0 : List Byte) : State :=
  (keyed nk key).withCs (freshStream (padTo 16 c0))

/-- An access from reset. -/
def asking (m : HostMove) : State := State.reset.withMoves [m]

/-- The outcome is a next state with this property. -/
def next (o : Host.Outcome State Fault Refusal) (p : State → Bool) : Bool :=
  match o with
  | .next t => p t
  | .fault _ => false
  | .refused _ => false

def abc : List Byte := [0x61, 0x62, 0x63]
def jefe : List Byte := bytesBE 0x4a656665 4
def key128 : List Byte := bytesBE 0x2b7e151628aed2a6abf7158809cf4f3c 16
def key192 : List Byte := bytesBE 0x8e73b0f7da0e6452c810f32b809079e562f8ead2522c6b7b 24
def key256 : List Byte :=
  bytesBE 0x603deb1015ca71be2b73aef0857d77811f352c073b6108d72d9810a30914dff4 32
def counter0 : List Byte := bytesBE 0xf0f1f2f3f4f5f6f7f8f9fafbfcfdfeff 16
def lastCounter : List Byte := List.replicate 16 0xff
def zeros (n : Nat) : List Byte := List.replicate n 0

/-! ### WellFormed -/

/-- KBITS is a 16-bit field (30_encoding R92): 65536 has no encoding. -/
theorem test_kbits_of_17_bits_is_refused : (Instr.aesSchedule 65536).wellFormed = false := by decide

/-- "every value 0 to 65535 is a well-formed command" (30_encoding R92). -/
theorem test_kbits_of_16_bits_is_well_formed :
    (Instr.aesSchedule 0).wellFormed = true ∧ (Instr.aesSchedule 65535).wellFormed = true := by decide

/-! ### Decode: one word for each constructor, written from 30_encoding R91 and R93 as
`ARG ++ RSV ++ OP` -/

theorem test_decode_hashInit : decode (1#16 ++ 0#8 ++ 0x10#8) = .ok (.hashInit .sha512) := by decide
theorem test_decode_hashUpdate : decode (0#16 ++ 0#8 ++ 0x11#8) = .ok .hashUpdate := by decide
theorem test_decode_hashFinal : decode (0#16 ++ 0#8 ++ 0x12#8) = .ok .hashFinal := by decide
theorem test_decode_hmacInit : decode (1#16 ++ 0#8 ++ 0x20#8) = .ok (.hmacInit .sha512) := by decide
theorem test_decode_hmacUpdate : decode (0#16 ++ 0#8 ++ 0x21#8) = .ok .hmacUpdate := by decide
theorem test_decode_hmacFinal : decode (0#16 ++ 0#8 ++ 0x22#8) = .ok .hmacFinal := by decide
theorem test_decode_aesSchedule : decode (192#16 ++ 0#8 ++ 0x30#8) = .ok (.aesSchedule 192) := by
  decide
theorem test_decode_aesEncrypt : decode (0#16 ++ 0#8 ++ 0x31#8) = .ok .aesEncrypt := by decide
theorem test_decode_ctrInit : decode (0#16 ++ 0#8 ++ 0x40#8) = .ok .ctrInit := by decide
theorem test_decode_ctrProcess : decode (0#16 ++ 0#8 ++ 0x41#8) = .ok .ctrProcess := by decide
theorem test_decode_zeroize : decode (12#16 ++ 0#8 ++ 0xF0#8) = .ok (.zeroize 12) := by decide

/-- Illegal words of 95b section 6. -/
theorem test_illegal_words :
    ([0x00020010, 0x80000010, 0x00000110, 0x00010011, 0x00000013, 0x0000000F, 0xFFFF0020, 0x00000023,
      0x00808030, 0x00800031, 0x00000032, 0x00000042, 0x00000141, 0x00000050, 0x002000F0, 0x801F00F0,
      0x001FFFF0, 0x000000F1, 0x000000EF, 0x00000080, 0x11000000, 0x10000000] : List Word).all
      (fun w => (decode w).toOption.isNone) = true := by decide

/-- The host's two questions, on one word. -/
theorem test_table_word_is_fetched :
    decodeTableWord 32 0x00010010 = some (.hashInit .sha512) ∧
      next (step (State.reset.withFetchWord 32 0x00010010)) (fun t => statusWord t == 0x50) = true := by
  decide +kernel

/-! ### Tables -/

/-- The examples of 42_aes R182. -/
theorem test_gmul : gmul 0x57 0x83 = 0xC1 ∧ gmul 0x57 0x13 = 0xFE ∧ xtime 0x80 = 0x1B := by decide

/-- RCON[1] = 1 and RCON[i+1] = xtime(RCON[i]) (42_aes R184). -/
theorem test_rcon : rcon 1 = 1 ∧ ∀ i, i < 9 → rcon (i + 2) = xtime (rcon (i + 1)) := by decide

/-- The 256 entries of SBOX are different. -/
theorem test_sbox_is_a_permutation :
    ((List.range 256).map fun i => (sbox (BitVec.ofNat 8 i)).toNat).Nodup := by decide +kernel

/-- Inside round 1 of 95 section 4.3. -/
theorem test_round_steps :
    subBytes (bytesBE 0x00102030405060708090a0b0c0d0e0f0 16) =
        bytesBE 0x63cab7040953d051cd60e0e7ba70e18c 16 ∧
      shiftRows (bytesBE 0x63cab7040953d051cd60e0e7ba70e18c 16) =
        bytesBE 0x6353e08c0960e104cd70b751bacad0e7 16 ∧
      mixColumns (bytesBE 0x6353e08c0960e104cd70b751bacad0e7 16) =
        bytesBE 0x5f72641557f5bc92f7be3b291db9f91a 16 := by decide +kernel

/-! ### The commands, against 95 -/

/-- 95 section 2.3, first row of trace H3. -/
theorem test_hashInit :
    next (exec (.hashInit .sha512) State.reset)
      (fun t => statusWord t == 0x50 && t.hs.ctx.h.h7 == 0x5be0cd19137e2179) = true := by decide +kernel

/-- 95 section 2.3, trace H2: a chunk of one block is compressed at once. -/
theorem test_hashUpdate :
    next (exec .hashUpdate ((hashing .sha256 []).loaded (List.replicate 64 0x61)))
      (fun t => t.hs.ctx.h.toList == [0xdf5bb81c, 0xe81e0626, 0xfb45a894, 0x4fd40f31, 0xb25e6816,
        0xd6d499c1, 0xab904929, 0x00635e66] && t.hs.ctx.total == 64) = true := by decide +kernel

/-- 95 section 2.1, "abc". -/
theorem test_hashFinal_sha256 :
    next (exec .hashFinal (hashing .sha256 abc))
      (fun t => t.result 32 == bytesBE
        0xba7816bf8f01cfea414140de5dae2223b00361a396177a9cb410ff61f20015ad 32 &&
        statusWord t == 0x20) = true := by decide +kernel

/-- 95 section 2.2, "abc". -/
theorem test_hashFinal_sha512 :
    next (exec .hashFinal (hashing .sha512 abc))
      (fun t => t.result 64 == bytesBE
        0xddaf35a193617abacc417349ae20413112e6fa4e89a97ea20a9eeee64b55d39a2192992a274fc1a836ba3c23a3feebbd454d4423643ce80e2a9ac94fa54ca49f
        64) = true := by decide +kernel

/-- 95 section 3.2, first row. -/
theorem test_hmacInit :
    next (exec (.hmacInit .sha256) (State.reset.loaded jefe))
      (fun t => t.hm.inner.h.h0 == 0x655da7fa && t.hm.outer.h.h7 == 0x52f141d5 && t.din 0 == 0 &&
        t.dlen == 4 && statusWord t == 0x100) = true := by decide +kernel

/-- 95 section 3.3, the first HMAC_UPDATE of trace M1 has 10 bytes. -/
theorem test_hmacUpdate :
    next (exec .hmacUpdate ((macing .sha256 jefe []).loaded (bytesBE 0x7768617420646f207961 10)))
      (fun t => t.hm.inner.total == 74 && t.hm.outer.total == 64 &&
        t.hm.inner.buf.toList.take 2 == [0x77, 0x68]) = true := by decide +kernel

/-- 95 section 3.1, case T9 with SHA-256: the empty key, "abc". -/
theorem test_hmacFinal :
    next (exec .hmacFinal (macing .sha256 [] abc))
      (fun t => t.result 32 == bytesBE
        0xfd7adb152c05ef80dccf50a1fa4c05d5a3ec6da95575fc312ae7c5d091836351 32 &&
        statusWord t == 0x200) = true := by decide +kernel

/-- 95 section 4.2, the last words of the 192-bit schedule. -/
theorem test_aesSchedule_192 :
    next (exec (.aesSchedule 192) (State.reset.loaded key192))
      (fun t => (t.ck.rk.toList.drop 48) ==
        [0xe98ba06f, 0x448c773c, 0x8ecc7204, 0x01002202, 0, 0, 0, 0, 0, 0, 0, 0] && t.din 23 == 0 &&
        statusWord t == 0x5000) = true := by decide +kernel

/-- 95 section 4.2, the last words of the 256-bit schedule. -/
theorem test_aesSchedule_256 :
    next (exec (.aesSchedule 256) (State.reset.loaded key256))
      (fun t => (t.ck.rk.toList.drop 56) == [0xfe4890d1, 0xe6188d0b, 0x046df344, 0x706c631e]) = true := by
  decide +kernel

/-- 95 section 4.1, row A4. -/
theorem test_aesEncrypt_128 :
    next (exec .aesEncrypt ((keyed .four key128).loaded (bytesBE 0x3243f6a8885a308d313198a2e0370734 16)))
      (fun t => t.result 16 == bytesBE 0x3925841d02dc09fbdc118597196a0b32 16) = true := by
  decide +kernel

/-- 95 section 4.1, row A7. -/
theorem test_aesEncrypt_256 :
    next (exec .aesEncrypt ((keyed .eight key256).loaded (bytesBE 0x6bc1bee22e409f96e93d7e117393172a 16)))
      (fun t => t.result 16 == bytesBE 0xf3eed1bdb5d2a03c064b5a7e3db181f8 16) = true := by
  decide +kernel

/-- 95 section 5.3, second row of trace S1. -/
theorem test_ctrInit :
    next (exec .ctrInit ((keyed .four key128).loaded counter0))
      (fun t => t.cs.ctr.toList == counter0 && t.cs.cur == 16 && statusWord t == 0x13000) = true := by
  decide +kernel

/-- 95 section 5.3, third row of trace S1. -/
theorem test_ctrProcess :
    next (exec .ctrProcess ((streaming .four key128 counter0).loaded (bytesBE 0x6bc1bee22e 5)))
      (fun t => t.result 6 == bytesBE 0x874d6191b600 6 && t.cs.cur == 5 &&
        t.cs.ctr.toList == bytesBE 0xf0f1f2f3f4f5f6f7f8f9fafbfcfdff00 16) = true := by decide +kernel

/-- 95 section 5.5: from the last counter value 16 bytes come and the wrap is shown, 17 fail whole. -/
theorem test_ctrProcess_at_the_wrap :
    next (exec .ctrProcess ((streaming .four key128 lastCounter).loaded (zeros 16)))
        (fun t => statusWord t == 0x33000 && t.cs.ctr.toList == zeros 16) = true ∧
      next (exec .ctrProcess ((streaming .four key128 lastCounter).loaded (zeros 17)))
        (fun t => statusWord t == 0x13003 && t.cs.ctr.toList == lastCounter) = true := by
  decide +kernel

/-- 95b section 9: mask 4 ends the stream with the schedule, mask 8 the stream alone. -/
theorem test_zeroize :
    next (exec (.zeroize 4) (streaming .four key128 counter0)) (fun t => statusWord t == 0) = true ∧
      next (exec (.zeroize 8) (streaming .four key128 counter0)) (fun t => statusWord t == 0x3000)
        = true := by decide +kernel

/-! ### Errors and the port, against 95b -/

/-- 95b section 7: HASH_UPDATE from reset, at DLEN = 256 and 257. -/
theorem test_error_priority :
    next (exec .hashUpdate (State.reset.withDlen 257)) (fun t => t.err == .invalidLength) = true ∧
      next (exec .hashUpdate (State.reset.withDlen 256)) (fun t => t.err == .noState) = true := by
  decide

/-- 95b section 8: accepted and refused accesses at the edges of DOUT and DIN, DMAX = 256. -/
theorem test_bus_edges :
    [HostMove.read8 0x20FF, .read8 0x2100, .read8 0x1000, .read32 0x0000, .read32 0x0005,
        .write8 0x10FF 1, .write8 0x1100 1, .write32 0x000C 5, .write8 0x0000 0x10].map
      (fun m => next (step (asking m)) fun t =>
        t.replies == [Reply.byte 0] || t.replies == [Reply.written]) =
    [true, false, false, false, false, true, false, false, false] := by decide +kernel

/-- 30_encoding R101: GET reads as many bytes as DOLEN says, three after a result of three bytes and
none from reset; ERR? reads the code that STATUS shows. -/
theorem test_get_and_errQuery :
    (State.reset.completed abc).get.2 = abc ∧ State.reset.get.2 = [] ∧
      (State.reset.withErr .noState).errQuery.2 = 6 := by decide +kernel

/-! ### Witnesses: states and operands that meet the hypotheses of the statements -/

theorem witness_DecodeInvertsEncode :
    (Instr.aesSchedule 65535).wellFormed = true ∧ (Instr.zeroize 31).wellFormed = true := by decide

theorem witness_EncodeInvertsDecode :
    decode 0xFFFF0030 = .ok (.aesSchedule 65535) ∧ decode 0x001F00F0 = .ok (.zeroize 31) := by decide

theorem witness_StepRunsTheDecodedCommand :
    (asking (.write32 0 0x001F00F0)).moves = .write32 0 0x001F00F0 :: [] ∧
      decode 0x001F00F0 = .ok (.zeroize 31) ∧ (Instr.zeroize 31).wellFormed = true := by decide

theorem witness_IllegalWordChangesOnlyErr :
    (asking (.write32 0 0x002000F0)).moves = .write32 0 0x002000F0 :: [] ∧
      decode 0x002000F0 = .error .reservedMask := by decide

theorem witness_Read32AnswersAndChangesNothing :
    (asking (.read32 0x000C)).moves = .read32 0x000C :: [] ∧
      (asking (.read32 0x0005)).moves = .read32 0x0005 :: [] := ⟨rfl, rfl⟩

/-- The last cell of DOUT, and the offset after it. -/
theorem witness_Read8AnswersAndChangesNothing :
    ((asking (.read8 0x20FF)).moves = .read8 0x20FF :: [] ∧ 255 < (asking (.read8 0x20FF)).cfg.dmax ∧
      (0x20FF : Offset).toNat = 0x2000 + 255) ∧
    ((asking (.read8 0x2100)).moves = .read8 0x2100 :: [] ∧
      ∀ i, i < (asking (.read8 0x2100)).cfg.dmax → (0x2100 : Offset).toNat ≠ 0x2000 + i) :=
  ⟨⟨rfl, by decide, by decide⟩, rfl, by decide +kernel⟩

theorem witness_Write32StoresDlenOrIsRefused :
    (asking (.write32 0x0008 0xFFFFFFFF)).moves = .write32 0x0008 0xFFFFFFFF :: [] ∧
      (0x0008 : Offset) ≠ 0x0000 ∧
      (asking (.write32 0x0004 1)).moves = .write32 0x0004 1 :: [] ∧ (0x0004 : Offset) ≠ 0x0000 := by
  decide

/-- The first cell of DIN, and the offset before it. -/
theorem witness_Write8StoresOneDinCellOrIsRefused :
    ((asking (.write8 0x1000 7)).moves = .write8 0x1000 7 :: [] ∧ 0 < (asking (.write8 0x1000 7)).cfg.dmax ∧
      (0x1000 : Offset).toNat = 0x1000 + 0) ∧
    ((asking (.write8 0x0FFF 7)).moves = .write8 0x0FFF 7 :: [] ∧
      ∀ i, i < (asking (.write8 0x0FFF 7)).cfg.dmax → (0x0FFF : Offset).toNat ≠ 0x1000 + i) :=
  ⟨⟨rfl, by decide, by decide⟩, rfl, by decide +kernel⟩

/-- Two states that differ in the counter alone. -/
theorem witness_AnswersDoNotShowHiddenState :
    ∃ s t s' t' : State, s.moves = [.read32 4] ∧ t.moves = [.read32 4] ∧
      (∀ w, HostMove.read32 4 ≠ .write32 0 w) ∧ t.cfg = s.cfg ∧ t.err = s.err ∧ t.dlen = s.dlen ∧
      t.dolen = s.dolen ∧ (∀ i, i < s.cfg.dmax → t.dout i = s.dout i) ∧ t.hs.phase = s.hs.phase ∧
      t.hs.alg = s.hs.alg ∧ t.hm.phase = s.hm.phase ∧ t.hm.alg = s.hm.alg ∧
      t.ck.valid = s.ck.valid ∧ t.ck.nk = s.ck.nk ∧ t.cs.active = s.cs.active ∧
      t.cs.wrapped = s.cs.wrapped ∧ t.replies = s.replies ∧ step s = .next s' ∧ step t = .next t' ∧
      t ≠ s :=
  ⟨asking (.read32 4), (asking (.read32 4)).withCs { StreamUnit.wiped with cur := 5 }, _, _, rfl, rfl,
    fun _ => by simp, rfl, rfl, rfl, rfl, fun _ _ => rfl, rfl, rfl, rfl, rfl, rfl, rfl, rfl, rfl,
    rfl, rfl, rfl, fun h => absurd (congrArg (fun s => s.cs.cur) h) (by decide)⟩

theorem witness_ResetStepRestoresResetValues : (asking .reset).moves = .reset :: [] := rfl

theorem witness_FailingCommandChangesOnlyErr :
    exec .ctrProcess State.reset = .next (State.reset.withErr .noState) ∧
      (State.reset.withErr ErrCode.noState).err ≠ .ok ∧
      next (executeWord 0x002000F0 State.reset) (fun t => t.err == .illegalCommand) = true :=
  ⟨rfl, by decide, by decide⟩

/-- 95b section 7, the first two rows: the same state, an illegal word and a legal one. -/
theorem witness_FirstCauseOfErrorIsReported :
    decode 0x00010011 = .error .argumentNotZero ∧ decode 0x00000011 = .ok .hashUpdate ∧
      reportedError .hashUpdate (State.reset.withDlen 257) = .invalidLength := by decide

/-- One command for each of the three clauses. -/
theorem witness_DinAndDlenChangeOnlyByWipes :
    (∃ t, exec (.zeroize 15) State.reset = .next t) ∧ (∃ t, exec (.hmacInit .sha512) State.reset = .next t) ∧
      ∃ t, exec (.zeroize 16) State.reset = .next t := ⟨⟨_, rfl⟩, ⟨_, rfl⟩, _, rfl⟩

/-- KBITS next to a legal value, and the field's largest value. -/
theorem witness_InvalidKeySizeExactlyForOtherKeyLengths :
    (129 ≠ 128 ∧ 129 ≠ 192 ∧ 129 ≠ 256) ∧
      (exec (.aesSchedule 65535) State.reset = .next (State.reset.withErr .invalidKeySize) ∧
        (State.reset.withErr ErrCode.invalidKeySize).err = .invalidKeySize) :=
  ⟨by decide, rfl, rfl⟩

/-- From FINAL: at DLEN = DMAX the code is reported, at DMAX + 1 another one is. -/
theorem witness_InvalidStateReuseExactlyAfterFinal :
    next (exec .hashUpdate ((State.reset.withHs { HashUnit.wiped with phase := .final }).withDlen 256))
        (fun t => t.err == .invalidStateReuse) = true ∧
      next (exec .hashUpdate ((State.reset.withHs { HashUnit.wiped with phase := .final }).withDlen 257))
        (fun t => t.err == .invalidLength) = true ∧
      next (exec .hmacFinal (State.reset.withHm { HmacUnit.wiped with phase := .final }))
        (fun t => t.err == .invalidStateReuse) = true := by decide

/-- An INIT after FINAL, at DLEN = DMAX. -/
theorem witness_init_after_final :
    ((State.reset.withHm { HmacUnit.wiped with phase := .final }).withDlen 256).hm.phase = .final ∧
      ((State.reset.withHm { HmacUnit.wiped with phase := .final }).withDlen 256).dlen.toNat ≤ 256 := by
  decide

theorem witness_NoStateExactlyWithoutContext :
    [Instr.hashUpdate, .hashFinal, .hmacUpdate, .hmacFinal, .aesEncrypt, .ctrInit, .ctrProcess].all
      (fun i => next (exec i State.reset) fun t => t.err == .noState) = true := by decide

/-- At the last counter value: 17 bytes overflow, 16 do not (95 section 5.5); on a wrapped stream one
byte overflows. -/
theorem witness_CounterOverflowExactlyPastLastCounter :
    next (exec .ctrProcess ((State.reset.withCs (freshStream (padTo 16 lastCounter))).withDlen 17))
        (fun t => t.err == .counterOverflow) = true ∧
      next (exec .ctrProcess ((State.reset.withCs (freshStream (padTo 16 lastCounter))).withDlen 16))
        (fun t => t.err == .ok) = true ∧
      next (exec .ctrProcess ((State.reset.withCs
          { freshStream (padTo 16 (zeros 16)) with wrapped := true }).withDlen 1))
        (fun t => t.err == .counterOverflow) = true := by decide +kernel

/-- 95b section 7, last two rows: one byte past the buffer, one byte past the bound. -/
theorem witness_InvalidLengthExactlyPastBufferOrBound :
    next (exec .hashUpdate ((State.reset.withHs
        ⟨.active, .sha256, { HashCtx.zero with total := 2 ^ 61 - 1 }⟩).withDlen 1))
        (fun t => t.err == .invalidLength) = true ∧
      next (exec (.hmacInit .sha256) (State.reset.withDlen 257))
        (fun t => t.err == .invalidLength) = true ∧
      next (exec (.hmacInit .sha256) (State.reset.withDlen 256))
        (fun t => t.err == .ok) = true := by decide +kernel

/-- A state one byte below the length bound, with the longest chunk. -/
def nearLimit : State :=
  (State.reset.withHs ⟨.active, .sha256, { HashCtx.zero with total := 2 ^ 61 - 257 }⟩).withDlen 256

theorem witness_HashUpdateAbsorbsOperand :
    nearLimit.dlen.toNat ≤ nearLimit.cfg.dmax ∧ nearLimit.hs.phase = .active ∧
      nearLimit.hs.ctx.total + nearLimit.dlen.toNat < lengthLimit nearLimit.hs.alg := by decide

theorem witness_HashFinalGivesDigestAndWipes : (hashing .sha512 []).hs.phase = .active := rfl

theorem witness_HmacInitSeedsBothRecordsAndWipesKey :
    (State.reset.withDlen 256).dlen.toNat ≤ (State.reset.withDlen 256).cfg.dmax := by decide

theorem witness_HmacUpdateAbsorbsIntoInner :
    (macing .sha256 [] []).dlen.toNat ≤ (macing .sha256 [] []).cfg.dmax ∧
      (macing .sha256 [] []).hm.phase = .active ∧
      (macing .sha256 [] []).hm.inner.total + (macing .sha256 [] []).dlen.toNat <
        lengthLimit (macing .sha256 [] []).hm.alg := by decide +kernel

theorem witness_HmacFinalGivesTagAndWipes : (macing .sha512 [] []).hm.phase = .active := rfl

theorem witness_AesScheduleExpandsKeyAndWipes :
    (128 = 128 ∨ 128 = 192 ∨ 128 = 256) ∧ (192 = 128 ∨ 192 = 192 ∨ 192 = 256) ∧
      (256 = 128 ∨ 256 = 192 ∨ 256 = 256) := by decide

theorem witness_AesEncryptGivesCipherOfBlock : (keyed .six key192).ck.valid = true := rfl

theorem witness_CtrInitStartsStreamAtCounter : (keyed .eight key256).ck.valid = true := rfl

/-- The last block of the counter, whole. -/
theorem witness_CtrProcessXorsWithKeystream :
    ∃ s : State, s.dlen.toNat = 16 ∧ s.dlen.toNat ≤ s.cfg.dmax ∧ s.cs.active = true ∧ s.cs.cur ≤ 16 ∧
      (16 - s.cs.cur < s.dlen.toNat) ∧ s.cs.wrapped = false ∧
      s.dlen.toNat ≤ 16 * (2 ^ 128 - be s.cs.ctr.toList) + (16 - s.cs.cur) :=
  ⟨(State.reset.withCs (freshStream (padTo 16 lastCounter))).withDlen 16, by decide +kernel⟩

/-- The invariant holds of a state with a schedule and a stream. -/
theorem streaming_invariant (c0 : List Byte) : Invariant (streaming .four (zeros 16) c0) where
  wf := Memory.wf_nil
  implemented := by intro c hc; cases hc
  dolen := Nat.zero_le _
  dout := fun _ _ _ => rfl
  hs := ⟨rfl, rfl⟩
  hm := ⟨rfl, rfl, rfl⟩
  ck := ⟨fun h => KeyWords.noConfusion h, scheduleOf_rk (by decide)⟩
  cs := ⟨rfl, .inl ⟨rfl, rfl, rfl⟩⟩

theorem witness_ZeroizeAllEqualsReset : Invariant (streaming .four (zeros 16) counter0) :=
  streaming_invariant counter0

theorem witness_UnitsDoNotReadOrWriteOthers :
    (∃ t, exec .hmacFinal State.reset = .next t) ∧ (∃ t, exec (.aesSchedule 128) State.reset = .next t) :=
  ⟨⟨_, rfl⟩, ⟨_, rfl⟩⟩

/-- The byte at the last counter value sets the flag, and an empty chunk leaves it set. -/
theorem witness_WrappedStreamMakesNoBlock :
    next (exec .ctrProcess ((streaming .four (zeros 16) lastCounter).loaded [0]))
        (fun t => t.cs.wrapped) = true ∧
      next (exec .ctrProcess (State.reset.withCs
          { freshStream (padTo 16 (zeros 16)) with wrapped := true }))
        (fun t => t.cs.wrapped && t.err == .ok) = true := by decide +kernel

/-- A record with one byte of its block to go. -/
theorem witness_AbsorbEqualsBlockwiseCompression :
    (ctxAbsorb .sha256 (ctxInit .sha256) (zeros 63)).Clear .sha256 := ctxAbsorb_clear _ (ctxInit_clear _)

/-- One byte below the bound. -/
theorem witness_PaddingEndsOnBlockBoundary :
    { HashCtx.zero with total := 2 ^ 125 - 1 }.total < lengthLimit .sha512 := by decide

theorem witness_MessageScheduleSatisfiesRecurrence :
    (List.replicate 16 (0 : BitVec 32)).length = 16 ∧ (List.replicate 16 (0 : BitVec 64)).length = 16 := by
  decide

theorem witness_KeyExpansionSatisfiesRecurrence :
    key128.length = 4 * 4 ∧ key192.length = 4 * 6 ∧ key256.length = 4 * 8 := by decide

theorem witness_CipherPermutesBlocks : counter0.length = 16 ∧ lastCounter.length = 16 := by decide

/-- A key of one block, and one byte more (95 section 3.1, T11 and T12). -/
theorem witness_NormalizedKeyFollowsKeyRule :
    (zeros 64).length ≤ blockSize .sha256 ∧ blockSize .sha256 < (zeros 65).length := by decide

/-- An empty piece and one that fills the buffer. -/
theorem witness_HashOfPiecesIsHashOfMessage :
    (∀ x ∈ [[], zeros 256, abc], x.length ≤ State.reset.cfg.dmax) ∧
      ([[], zeros 256, abc].flatten).length < lengthLimit .sha256 ∧
      ∃ s1, exec (.hashInit .sha256) State.reset = .next s1 :=
  ⟨by decide +kernel, by decide +kernel, _, rfl⟩

theorem witness_HmacOfPiecesIsHmacOfMessage :
    (zeros 256).length ≤ State.reset.cfg.dmax ∧ (∀ x ∈ [[], zeros 256], x.length ≤ State.reset.cfg.dmax) ∧
      blockSize .sha512 + ([[], zeros 256].flatten).length < lengthLimit .sha512 ∧
      ∃ s1, exec (.hmacInit .sha512) (State.reset.loaded abc) = .next s1 :=
  ⟨by decide +kernel, by decide +kernel, by decide +kernel, _, rfl⟩

/-- Every byte that the last counter value has. -/
theorem witness_StreamFollowsClosedForm :
    (zeros 16).length = 16 * (2 ^ 128 - be (padTo 16 lastCounter).toList) ∧ 0 < (zeros 16).length := by
  decide +kernel

/-- An empty piece and one that uses up the counter. -/
theorem witness_CtrOfPiecesIsStreamOfMessage :
    (keyed .four key128).ck.valid = true ∧
      (∀ x ∈ [[], zeros 16], x.length ≤ (keyed .four key128).cfg.dmax) ∧
      ([[], zeros 16].flatten).length ≤ 16 * (2 ^ 128 - be lastCounter) ∧
      (List.range 16).map ((keyed .four key128).loaded lastCounter).din = lastCounter ∧
      ∃ s1, exec .ctrInit ((keyed .four key128).loaded lastCounter) = .next s1 :=
  ⟨rfl, by decide +kernel, by decide +kernel, by decide +kernel, _, rfl⟩

theorem witness_StreamingEquivalence :
    Invariant (streaming .four (zeros 16) counter0) ∧
      (abc ++ [0]).length ≤ (streaming .four (zeros 16) counter0).cfg.dmax ∧
      next (exec .ctrProcess ((streaming .four (zeros 16) counter0).loaded (abc ++ [0])))
        (fun t => t.err == .ok) = true :=
  ⟨streaming_invariant counter0, by decide, by decide +kernel⟩

theorem witness_HashSequenceReturnsHash : (zeros 300).length < lengthLimit .sha256 := by
  decide +kernel

/-- A key that does not fit the buffer. -/
theorem witness_HmacSequenceReturnsHmac :
    (zeros 300).length < lengthLimit .sha512 ∧ State.reset.cfg.dmax < (zeros 300).length ∧
      blockSize .sha512 + abc.length < lengthLimit .sha512 := by decide +kernel

/-- The three key lengths and one that is none of them; the last message that the counter has values
for, and one byte more. -/
theorem witness_AesCtrSequenceTransformsAndReleases :
    key256.length ≤ State.reset.cfg.dmax ∧ lastCounter.length = 16 ∧
      (zeros 16).length ≤ 16 * (2 ^ 128 - be lastCounter) ∧
      16 * (2 ^ 128 - be lastCounter) < (zeros 17).length ∧
      keyWordsOf (8 * key128.length) = some .four ∧ keyWordsOf (8 * key192.length) = some .six ∧
      keyWordsOf (8 * key256.length) = some .eight ∧ keyWordsOf (8 * abc.length) = none := by
  decide +kernel

/-- A message that fills the buffer. -/
theorem witness_PutLoadsOperand : (zeros 256).length ≤ State.reset.cfg.dmax := by decide +kernel

/-- A result that fills DOUT. -/
theorem witness_GetReadsResult :
    (State.reset.withDolen 256).dolen.toNat ≤ (State.reset.withDolen 256).cfg.dmax := by decide

theorem witness_EveryStepKeepsInvariant :
    Invariant (streaming .four (zeros 16) counter0) ∧
      ∃ t, step (streaming .four (zeros 16) counter0) = .next t :=
  ⟨streaming_invariant counter0, _, rfl⟩

end Sys2Proof.Tests
end

/-!
SUPPORT and the proof of O36 (00_scope R2, 41_hmac R165, 44_system R246): no engine reads or writes
the state of another.

The idea: an exchange of a unit is a function `g` on states. If `g` leaves the port's elements and the
unit of a command alone, in that reading them and writing them does not see `g`, then the command runs
the same on `g s` as on `s`, and ends in `g` of the same state. That is shown once per command for any
such `g`; the four clauses of O36 are four exchanges.
-/

namespace Sys2Proof.Machine

/-! ### Exchanges -/

/-- The exchange `g` leaves alone the element of the state that `get` reads and `put` writes. -/
structure Spares {α : Type} (g : State → State) (get : State → α) (put : State → α → State) :
    Prop where
  read (s : State) : get (g s) = get s
  write (s : State) (u : α) : put (g s) u = g (put s u)

/-- The exchange `g` leaves alone what the commands of all engines share: DMAX, ERR, DLEN, DOLEN and
the cells of DIN and DOUT. -/
structure PortExchange (g : State → State) : Prop where
  cfg (s : State) : (g s).cfg = s.cfg
  err : Spares g State.err State.withErr
  dlen : Spares g State.dlen State.withDlen
  dolen : Spares g State.dolen State.withDolen
  mem : Spares g State.mem State.withMem

/-- Both cipher units exchanged. -/
def State.exchangeCipher (ck : CipherUnit) (cs : StreamUnit) (s : State) : State :=
  (s.withCk ck).withCs cs

/-- Both hash units exchanged. -/
def State.exchangeHash (hs : HashUnit) (hm : HmacUnit) (s : State) : State :=
  (s.withHs hs).withHm hm

theorem exchangeCipher_port (ck : CipherUnit) (cs : StreamUnit) :
    PortExchange (State.exchangeCipher ck cs) :=
  ⟨fun _ => rfl, ⟨fun _ => rfl, fun _ _ => rfl⟩, ⟨fun _ => rfl, fun _ _ => rfl⟩,
    ⟨fun _ => rfl, fun _ _ => rfl⟩, ⟨fun _ => rfl, fun _ _ => rfl⟩⟩

theorem exchangeHash_port (hs : HashUnit) (hm : HmacUnit) : PortExchange (State.exchangeHash hs hm) :=
  ⟨fun _ => rfl, ⟨fun _ => rfl, fun _ _ => rfl⟩, ⟨fun _ => rfl, fun _ _ => rfl⟩,
    ⟨fun _ => rfl, fun _ _ => rfl⟩, ⟨fun _ => rfl, fun _ _ => rfl⟩⟩

theorem withHs_port (hs : HashUnit) : PortExchange (State.withHs · hs) :=
  ⟨fun _ => rfl, ⟨fun _ => rfl, fun _ _ => rfl⟩, ⟨fun _ => rfl, fun _ _ => rfl⟩,
    ⟨fun _ => rfl, fun _ _ => rfl⟩, ⟨fun _ => rfl, fun _ _ => rfl⟩⟩

theorem withHm_port (hm : HmacUnit) : PortExchange (State.withHm · hm) :=
  ⟨fun _ => rfl, ⟨fun _ => rfl, fun _ _ => rfl⟩, ⟨fun _ => rfl, fun _ _ => rfl⟩,
    ⟨fun _ => rfl, fun _ _ => rfl⟩, ⟨fun _ => rfl, fun _ _ => rfl⟩⟩

theorem exchangeCipher_spares_hs (ck : CipherUnit) (cs : StreamUnit) :
    Spares (State.exchangeCipher ck cs) State.hs State.withHs := ⟨fun _ => rfl, fun _ _ => rfl⟩

theorem exchangeCipher_spares_hm (ck : CipherUnit) (cs : StreamUnit) :
    Spares (State.exchangeCipher ck cs) State.hm State.withHm := ⟨fun _ => rfl, fun _ _ => rfl⟩

theorem exchangeHash_spares_ck (hs : HashUnit) (hm : HmacUnit) :
    Spares (State.exchangeHash hs hm) State.ck State.withCk := ⟨fun _ => rfl, fun _ _ => rfl⟩

theorem exchangeHash_spares_cs (hs : HashUnit) (hm : HmacUnit) :
    Spares (State.exchangeHash hs hm) State.cs State.withCs := ⟨fun _ => rfl, fun _ _ => rfl⟩

theorem withHs_spares_hm (hs : HashUnit) : Spares (State.withHs · hs) State.hm State.withHm :=
  ⟨fun _ => rfl, fun _ _ => rfl⟩

theorem withHm_spares_hs (hm : HmacUnit) : Spares (State.withHm · hm) State.hs State.withHs :=
  ⟨fun _ => rfl, fun _ _ => rfl⟩

/-! ### Every command is its checks and one of two endings -/

/-- The end of a command whose checks found `c`: the error is taken in `s`, or the command completes
in `s'` with `out` (30_encoding R96, R98). -/
def checkedEnding (c : Option ErrCode) (out : List Byte) (s s' : State) :
    Host.Outcome State Fault Refusal :=
  match c with
  | some e => fail e s
  | none => done out s'

theorem exec_hashInit (alg : HashAlg) (s : State) :
    exec (.hashInit alg) s = checkedEnding none [] s (s.withHs ⟨.active, alg, ctxInit alg⟩) := rfl

theorem exec_hashUpdate (s : State) :
    exec .hashUpdate s =
      checkedEnding ((lengthCheck s).or ((phaseCheck s.hs.phase).or
          (limitCheck (lengthLimit s.hs.alg) s.hs.ctx.total s))) [] s
        (s.withHs { s.hs with ctx := ctxAbsorb s.hs.alg s.hs.ctx s.dlenOperand }) := rfl

theorem exec_hashFinal (s : State) :
    exec .hashFinal s =
      checkedEnding (phaseCheck s.hs.phase) (ctxFinish s.hs.alg s.hs.ctx) s
        (s.withHs ⟨.final, .sha256, HashCtx.zero⟩) := rfl

theorem exec_hmacInit (alg : HashAlg) (s : State) :
    exec (.hmacInit alg) s =
      checkedEnding (lengthCheck s) [] s
        (s.withHm ⟨.active, alg, ctxAbsorb alg (ctxInit alg) (innerPad alg s.dlenOperand),
          ctxAbsorb alg (ctxInit alg) (outerPad alg s.dlenOperand)⟩).wipeDin := rfl

theorem exec_hmacUpdate (s : State) :
    exec .hmacUpdate s =
      checkedEnding ((lengthCheck s).or ((phaseCheck s.hm.phase).or
          (limitCheck (lengthLimit s.hm.alg) s.hm.inner.total s))) [] s
        (s.withHm { s.hm with inner := ctxAbsorb s.hm.alg s.hm.inner s.dlenOperand }) := rfl

theorem exec_hmacFinal (s : State) :
    exec .hmacFinal s =
      checkedEnding (phaseCheck s.hm.phase)
        (ctxFinish s.hm.alg (ctxAbsorb s.hm.alg s.hm.outer (ctxFinish s.hm.alg s.hm.inner))) s
        (s.withHm ⟨.final, .sha256, HashCtx.zero, HashCtx.zero⟩) := rfl

theorem exec_aesSchedule_of_none {kbits : Nat} (h : keyWordsOf kbits = none) (s : State) :
    exec (.aesSchedule kbits) s = checkedEnding (some .invalidKeySize) [] s s := by
  show execAesSchedule kbits s = _
  rw [execAesSchedule, h]
  rfl

theorem exec_aesSchedule_of_some {kbits : Nat} {nk : KeyWords} (h : keyWordsOf kbits = some nk)
    (s : State) :
    exec (.aesSchedule kbits) s =
      checkedEnding none [] s
        ((s.withCk (scheduleOf nk (s.operand (4 * nk.count)))).withCs StreamUnit.wiped).wipeDin := by
  show execAesSchedule kbits s = _
  rw [execAesSchedule, h]
  rfl

theorem exec_aesEncrypt (s : State) :
    exec .aesEncrypt s =
      checkedEnding (existsCheck s.ck.valid) (s.ck.encrypt (s.operand 16)) s s := rfl

theorem exec_ctrInit (s : State) :
    exec .ctrInit s =
      checkedEnding (existsCheck s.ck.valid) [] s
        (s.withCs ⟨true, padTo 16 (s.operand 16), Vector.replicate 16 0, 16, false⟩) := rfl

theorem exec_ctrProcess (s : State) :
    exec .ctrProcess s =
      checkedEnding ((lengthCheck s).or ((existsCheck s.cs.active).or (overflowCheck s)))
        (StreamUnit.process s.ck s.cs s.dlenOperand).1 s
        (s.withCs (StreamUnit.process s.ck s.cs s.dlenOperand).2) := rfl

/-! ### The shared operations do not see an exchange -/

section PortExchange

variable {g : State → State} (hg : PortExchange g)
include hg

theorem PortExchange.lengthCheck (s : State) : lengthCheck (g s) = lengthCheck s := by
  simp only [Machine.lengthCheck, hg.dlen.read, hg.cfg]

theorem PortExchange.limitCheck (limit total : Nat) (s : State) :
    limitCheck limit total (g s) = limitCheck limit total s := by
  simp only [Machine.limitCheck, hg.dlen.read]

theorem PortExchange.operand (s : State) (n : Nat) : (g s).operand n = s.operand n := by
  have hdin : (g s).din = s.din := funext fun i => by simp only [State.din, hg.mem.read]
  rw [State.operand, hdin, State.operand]

theorem PortExchange.dlenOperand (s : State) : (g s).dlenOperand = s.dlenOperand := by
  rw [State.dlenOperand, hg.operand, hg.dlen.read, State.dlenOperand]

theorem PortExchange.wipeDin (s : State) : (g s).wipeDin = g s.wipeDin := by
  rw [State.wipeDin, hg.mem.read, hg.cfg, hg.mem.write, State.wipeDin]

theorem PortExchange.setDout (s : State) (out : List Byte) : (g s).setDout out = g (s.setDout out) := by
  rw [State.setDout, hg.mem.read, hg.cfg, hg.mem.write, State.setDout]

theorem PortExchange.completed (s : State) (out : List Byte) :
    (g s).completed out = g (s.completed out) := by
  rw [State.completed, hg.err.write, hg.dolen.write, hg.setDout, State.completed]

/-- Both endings carry an exchange through. -/
theorem PortExchange.checkedEnding {c : Option ErrCode} {out : List Byte} {s s' t : State}
    (h : checkedEnding c out s s' = .next t) :
    Machine.checkedEnding c out (g s) (g s') = .next (g t) := by
  cases c with
  | some e =>
    obtain rfl := fail_next.mp h
    exact fail_next.mpr (hg.err.write s e).symm
  | none =>
    obtain rfl := done_next.mp h
    exact done_next.mpr (hg.completed s' out).symm

/-! ### The commands do not see an exchange that leaves their unit alone -/

variable {s t : State}

theorem PortExchange.hashInit (hu : Spares g State.hs State.withHs) {alg : HashAlg}
    (h : exec (.hashInit alg) s = .next t) : exec (.hashInit alg) (g s) = .next (g t) := by
  rw [exec_hashInit] at h ⊢
  rw [hu.write]
  exact hg.checkedEnding h

theorem PortExchange.hashUpdate (hu : Spares g State.hs State.withHs)
    (h : exec .hashUpdate s = .next t) : exec .hashUpdate (g s) = .next (g t) := by
  rw [exec_hashUpdate] at h ⊢
  rw [hg.lengthCheck, hg.limitCheck, hg.dlenOperand, hu.read, hu.write]
  exact hg.checkedEnding h

theorem PortExchange.hashFinal (hu : Spares g State.hs State.withHs)
    (h : exec .hashFinal s = .next t) : exec .hashFinal (g s) = .next (g t) := by
  rw [exec_hashFinal] at h ⊢
  rw [hu.read, hu.write]
  exact hg.checkedEnding h

theorem PortExchange.hmacInit (hu : Spares g State.hm State.withHm) {alg : HashAlg}
    (h : exec (.hmacInit alg) s = .next t) : exec (.hmacInit alg) (g s) = .next (g t) := by
  rw [exec_hmacInit] at h ⊢
  rw [hg.lengthCheck, hg.dlenOperand, hu.write, hg.wipeDin]
  exact hg.checkedEnding h

theorem PortExchange.hmacUpdate (hu : Spares g State.hm State.withHm)
    (h : exec .hmacUpdate s = .next t) : exec .hmacUpdate (g s) = .next (g t) := by
  rw [exec_hmacUpdate] at h ⊢
  rw [hg.lengthCheck, hg.limitCheck, hg.dlenOperand, hu.read, hu.write]
  exact hg.checkedEnding h

theorem PortExchange.hmacFinal (hu : Spares g State.hm State.withHm)
    (h : exec .hmacFinal s = .next t) : exec .hmacFinal (g s) = .next (g t) := by
  rw [exec_hmacFinal] at h ⊢
  rw [hu.read, hu.write]
  exact hg.checkedEnding h

theorem PortExchange.aesSchedule (hk : Spares g State.ck State.withCk)
    (hc : Spares g State.cs State.withCs) {kbits : Nat} (h : exec (.aesSchedule kbits) s = .next t) :
    exec (.aesSchedule kbits) (g s) = .next (g t) := by
  cases hw : keyWordsOf kbits with
  | none =>
    rw [exec_aesSchedule_of_none hw] at h ⊢
    exact hg.checkedEnding h
  | some nk =>
    rw [exec_aesSchedule_of_some hw] at h ⊢
    rw [hg.operand, hk.write, hc.write, hg.wipeDin]
    exact hg.checkedEnding h

theorem PortExchange.aesEncrypt (hk : Spares g State.ck State.withCk)
    (h : exec .aesEncrypt s = .next t) : exec .aesEncrypt (g s) = .next (g t) := by
  rw [exec_aesEncrypt] at h ⊢
  rw [hg.operand, hk.read]
  exact hg.checkedEnding h

theorem PortExchange.ctrInit (hk : Spares g State.ck State.withCk)
    (hc : Spares g State.cs State.withCs) (h : exec .ctrInit s = .next t) :
    exec .ctrInit (g s) = .next (g t) := by
  rw [exec_ctrInit] at h ⊢
  rw [hg.operand, hk.read, hc.write]
  exact hg.checkedEnding h

theorem PortExchange.overflowCheck (hc : Spares g State.cs State.withCs) (s : State) :
    overflowCheck (g s) = overflowCheck s := by
  simp only [Machine.overflowCheck, hc.read, hg.dlen.read]

theorem PortExchange.ctrProcess (hk : Spares g State.ck State.withCk)
    (hc : Spares g State.cs State.withCs) (h : exec .ctrProcess s = .next t) :
    exec .ctrProcess (g s) = .next (g t) := by
  rw [exec_ctrProcess] at h ⊢
  rw [hg.lengthCheck, hg.overflowCheck hc, hg.dlenOperand, hk.read, hc.read, hc.write]
  exact hg.checkedEnding h

/-! ### Engine by engine -/

/-- The HashEngine has no part in anything but HS (00_scope R2). -/
theorem PortExchange.hashEngine (hu : Spares g State.hs State.withHs) {i : Instr}
    (hi : i ∈ ([.hashInit .sha256, .hashInit .sha512, .hashUpdate, .hashFinal] : List Instr))
    (h : exec i s = .next t) : exec i (g s) = .next (g t) := by
  simp only [List.mem_cons, List.not_mem_nil, or_false] at hi
  obtain rfl | rfl | rfl | rfl := hi
  · exact hg.hashInit hu h
  · exact hg.hashInit hu h
  · exact hg.hashUpdate hu h
  · exact hg.hashFinal hu h

/-- The HmacEngine has no part in anything but HM (00_scope R2, 41_hmac R165). -/
theorem PortExchange.hmacEngine (hu : Spares g State.hm State.withHm) {i : Instr}
    (hi : i ∈ ([.hmacInit .sha256, .hmacInit .sha512, .hmacUpdate, .hmacFinal] : List Instr))
    (h : exec i s = .next t) : exec i (g s) = .next (g t) := by
  simp only [List.mem_cons, List.not_mem_nil, or_false] at hi
  obtain rfl | rfl | rfl | rfl := hi
  · exact hg.hmacInit hu h
  · exact hg.hmacInit hu h
  · exact hg.hmacUpdate hu h
  · exact hg.hmacFinal hu h

/-- The cipher engines have no part in anything but CK and CS (00_scope R2). -/
theorem PortExchange.cipherEngines (hk : Spares g State.ck State.withCk)
    (hc : Spares g State.cs State.withCs) {i : Instr}
    (hi : i ∈ ([.aesEncrypt, .ctrInit, .ctrProcess] : List Instr) ∨ ∃ k, i = .aesSchedule k)
    (h : exec i s = .next t) : exec i (g s) = .next (g t) := by
  simp only [List.mem_cons, List.not_mem_nil, or_false] at hi
  obtain (rfl | rfl | rfl) | ⟨kbits, rfl⟩ := hi
  · exact hg.aesEncrypt hk h
  · exact hg.ctrInit hk hc h
  · exact hg.ctrProcess hk hc h
  · exact hg.aesSchedule hk hc h

end PortExchange

/-- Settles O36: each clause is an exchange of units that spares the engine it speaks of. -/
theorem unitsDoNotReadOrWriteOthers : Obligations.UnitsDoNotReadOrWriteOthers := by
  intro i s t h
  refine ⟨fun hi ck cs => ?_, fun hi hs hm => ?_, fun hi hs => ?_, fun hi hm => ?_⟩
  · have hport := exchangeCipher_port ck cs
    have split : i ∈ ([.hashInit .sha256, .hashInit .sha512, .hashUpdate, .hashFinal] : List Instr) ∨
        i ∈ ([.hmacInit .sha256, .hmacInit .sha512, .hmacUpdate, .hmacFinal] : List Instr) :=
      List.mem_append.mp hi
    obtain hash | hmac := split
    · exact hport.hashEngine (exchangeCipher_spares_hs ck cs) hash h
    · exact hport.hmacEngine (exchangeCipher_spares_hm ck cs) hmac h
  · exact (exchangeHash_port hs hm).cipherEngines (exchangeHash_spares_ck hs hm)
      (exchangeHash_spares_cs hs hm) hi h
  · exact (withHs_port hs).hmacEngine (withHs_spares_hm hs) hi h
  · exact (withHm_port hm).hashEngine (withHm_spares_hs hm) hi h

end Sys2Proof.Machine

/-!
SUPPORT and the proofs of O55 and O56 (10_state R26, R28, R30 to R34, 43_ctr R224): reset satisfies
the invariant and every step keeps it.

The layers: which units are legal, one update of the state at a time, the two endings of a command,
command by command, access by access. The clause with an idea of its own is that of CS: a keystream
block is made only while the wrap flag is down, because CTR_PROCESS refuses a chunk that needs a block
after the last counter value.
-/

namespace Sys2Proof.Machine

/-! ### A check that finds no error -/

theorem phaseCheck_eq_none {p : Phase} : phaseCheck p = none ↔ p = .active := by
  cases p <;> simp

theorem existsCheck_eq_none {flag : Bool} : existsCheck flag = none ↔ flag = true := by
  cases flag <;> simp

theorem lengthCheck_eq_none {s : State} : lengthCheck s = none ↔ s.dlen.toNat ≤ s.cfg.dmax := by
  obtain ⟨hle, hc⟩ | ⟨hlt, hc⟩ := lengthCheck_cases s
  · simp [hc, hle]
  · simp [hc, hlt]

theorem limitCheck_eq_none {limit total : Nat} {s : State} :
    limitCheck limit total s = none ↔ total + s.dlen.toNat < limit := by
  obtain ⟨hlt, hc⟩ | ⟨hle, hc⟩ := limitCheck_cases limit total s
  · simp [hc, hlt]
  · simp [hc, hle]

theorem overflowCheck_eq_none {s : State} :
    overflowCheck s = none ↔ s.cs.overflows s.dlen.toNat = false := by
  cases h : s.cs.overflows s.dlen.toNat <;> simp [overflowCheck, h]

/-! ### Legal hash units -/

theorem HashUnit.legal_of_active {u : HashUnit} (h : u.phase = .active) :
    u.Legal ↔ u.ctx.InUse u.alg := by rw [HashUnit.Legal, h]

theorem HashUnit.wiped_legal : HashUnit.wiped.Legal := ⟨rfl, rfl⟩

theorem HashUnit.finalised_legal : HashUnit.Legal ⟨.final, .sha256, HashCtx.zero⟩ := ⟨rfl, rfl⟩

theorem HashUnit.started_legal (alg : HashAlg) : HashUnit.Legal ⟨.active, alg, ctxInit alg⟩ :=
  ctxInit_inUse alg

/-- HASH_UPDATE below the length bound (40_hash R136). -/
theorem HashUnit.absorb_legal {u : HashUnit} {x : List Byte} (hu : u.Legal) (hp : u.phase = .active)
    (hx : u.ctx.total + x.length < lengthLimit u.alg) :
    HashUnit.Legal { u with ctx := ctxAbsorb u.alg u.ctx x } :=
  (HashUnit.legal_of_active (by exact hp)).mpr
    (ctxAbsorb_inUse ((HashUnit.legal_of_active hp).mp hu) hx)

theorem HmacUnit.legal_of_active {u : HmacUnit} (h : u.phase = .active) :
    u.Legal ↔ u.inner.InUse u.alg ∧ u.outer.InUse u.alg ∧ blockSize u.alg ≤ u.inner.total ∧
      u.outer.total = blockSize u.alg ∧ u.outer.buf = Vector.replicate 128 0 := by
  rw [HmacUnit.Legal, h]

theorem HmacUnit.wiped_legal : HmacUnit.wiped.Legal := ⟨rfl, rfl, rfl⟩

theorem HmacUnit.finalised_legal :
    HmacUnit.Legal ⟨.final, .sha256, HashCtx.zero, HashCtx.zero⟩ := ⟨rfl, rfl, rfl⟩

@[simp] theorem ctxInit_total (alg : HashAlg) : (ctxInit alg).total = 0 := rfl

/-- A fresh record that has absorbed one block is in use, counts that block, and buffers nothing. -/
theorem ctxAbsorb_block {alg : HashAlg} {pad : List Byte} (h : pad.length = blockSize alg) :
    (ctxAbsorb alg (ctxInit alg) pad).InUse alg ∧
      (ctxAbsorb alg (ctxInit alg) pad).total = blockSize alg ∧
      (ctxAbsorb alg (ctxInit alg) pad).buf = Vector.replicate 128 0 := by
  have total : (ctxAbsorb alg (ctxInit alg) pad).total = blockSize alg := by simp [h]
  have inUse : (ctxAbsorb alg (ctxInit alg) pad).InUse alg :=
    ctxAbsorb_inUse (ctxInit_inUse alg) (by simpa [h] using blockSize_lt_lengthLimit alg)
  exact ⟨inUse, total, HashCtx.Clear.buf_zero inUse.clear (by rw [total, Nat.mod_self])⟩

/-- HMAC_INIT (41_hmac R162). -/
theorem HmacUnit.started_legal (alg : HashAlg) (key : List Byte) :
    HmacUnit.Legal ⟨.active, alg, ctxAbsorb alg (ctxInit alg) (innerPad alg key),
      ctxAbsorb alg (ctxInit alg) (outerPad alg key)⟩ := by
  obtain ⟨innerUse, innerTotal, -⟩ := ctxAbsorb_block (length_innerPad alg key)
  obtain ⟨outerUse, outerTotal, outerBuf⟩ := ctxAbsorb_block (length_outerPad alg key)
  exact ⟨innerUse, outerUse, innerTotal.ge, outerTotal, outerBuf⟩

/-- HMAC_UPDATE below the length bound (41_hmac R163). -/
theorem HmacUnit.absorb_legal {u : HmacUnit} {x : List Byte} (hu : u.Legal) (hp : u.phase = .active)
    (hx : u.inner.total + x.length < lengthLimit u.alg) :
    HmacUnit.Legal { u with inner := ctxAbsorb u.alg u.inner x } := by
  obtain ⟨innerUse, outerUse, innerTotal, outerFresh⟩ := (HmacUnit.legal_of_active hp).mp hu
  refine (HmacUnit.legal_of_active (by exact hp)).mpr
    ⟨ctxAbsorb_inUse innerUse hx, outerUse, ?_, outerFresh⟩
  rw [ctxAbsorb_total]
  exact innerTotal.trans (Nat.le_add_right _ _)

/-! ### Legal cipher units -/

theorem CipherUnit.wiped_legal : CipherUnit.wiped.Legal := rfl

theorem keyWordsOf_ne_none {kbits : Nat} {nk : KeyWords} (h : keyWordsOf kbits = some nk) :
    nk ≠ .none := by
  rintro rfl
  simp [keyWordsOf_eq_some] at h

theorem scheduleOf_legal {nk : KeyWords} {key : List Byte} (hk : nk ≠ .none)
    (hl : key.length = 4 * nk.count) : (scheduleOf nk key).Legal := ⟨hk, scheduleOf_rk hl⟩

/-! ### Legal streams -/

/-- The stream has made no keystream block yet (43_ctr R222). -/
def StreamUnit.Unstarted (u : StreamUnit) : Prop :=
  u.cur = 16 ∧ u.ks = Vector.replicate 16 0 ∧ u.wrapped = false

/-- The stream's block is the encryption of the counter value just before its counter, and the wrap
flag is up exactly when that value is the last one (43_ctr R223, R224). -/
def StreamUnit.InBlock (ck : CipherUnit) (u : StreamUnit) : Prop :=
  1 ≤ u.cur ∧ u.cur ≤ 16 ∧
    ∃ c : Vector Byte 16, u.ks = padTo 16 (ck.encrypt c.toList) ∧ u.ctr = incCounter c ∧
      u.wrapped = (be c.toList == 2 ^ 128 - 1)

theorem StreamUnit.legal_of_active {ck : CipherUnit} {u : StreamUnit} (h : u.active = true) :
    u.Legal ck ↔ ck.valid = true ∧ (u.Unstarted ∨ u.InBlock ck) := by rw [StreamUnit.Legal, h]; rfl

theorem StreamUnit.wiped_legal (ck : CipherUnit) : StreamUnit.wiped.Legal ck := rfl

/-- CTR_INIT over a schedule (43_ctr R222). -/
theorem StreamUnit.fresh_legal {ck : CipherUnit} (h : ck.valid = true) (c0 : Vector Byte 16) :
    StreamUnit.Legal ck ⟨true, c0, Vector.replicate 16 0, 16, false⟩ := ⟨h, .inl ⟨rfl, rfl, rfl⟩⟩

theorem StreamUnit.cur_le_of_legal {ck : CipherUnit} {u : StreamUnit} (h : u.Legal ck)
    (ha : u.active = true) : u.cur ≤ 16 := by
  obtain ⟨-, ⟨hcur, -⟩ | ⟨-, hcur, -⟩⟩ := (StreamUnit.legal_of_active ha).mp h
  · exact hcur.le
  · exact hcur

/-- The integer of the next counter block (43_ctr R221). -/
theorem be_incCounter (c : Vector Byte 16) :
    be (incCounter c).toList = (be c.toList + 1) % 2 ^ 128 := by
  rw [incCounter, padTo_toList_of_length (length_bytesBE _ 16), be_bytesBE,
    show (256 : Nat) ^ 16 = 2 ^ 128 by norm_num, Nat.mod_mod]

/-- A byte that the current block still has moves the cursor alone. -/
theorem StreamUnit.processByte_of_not_full {ck : CipherUnit} {cs : StreamUnit} (b : Byte)
    (h : cs.cur ≠ 16) : (cs.processByte ck b).2 = { cs with cur := cs.cur + 1 } := by
  rw [StreamUnit.processByte, StreamUnit.ready_of_not_full h]

/-- A byte past the current block is the first one of a fresh block. -/
theorem StreamUnit.processByte_of_full {ck : CipherUnit} {cs : StreamUnit} (b : Byte)
    (h : cs.cur = 16) : (cs.processByte ck b).2 = { cs.refill ck with cur := 1 } := by
  rw [StreamUnit.processByte, StreamUnit.ready_of_full h]
  rfl

/-- A chunk that completes: it needs no new block, or the wrap flag is down and the counter has
values for all its blocks. -/
theorem StreamUnit.overflows_eq_false_iff {cs : StreamUnit} {n : Nat} :
    cs.overflows n = false ↔ 1 ≤ cs.newBlocks n →
      cs.wrapped = false ∧ be cs.ctr.toList + cs.newBlocks n ≤ 2 ^ 128 := by
  rw [← Bool.not_eq_true, StreamUnit.overflows_iff, not_and, not_or, Bool.not_eq_true, not_lt]

/-- What is left of a chunk that completes completes. -/
theorem StreamUnit.processByte_not_overflows {ck : CipherUnit} {cs : StreamUnit} {n : Nat}
    (b : Byte) (hc : cs.cur ≤ 16) (h : cs.overflows (n + 1) = false) :
    (cs.processByte ck b).2.overflows n = false := by
  rw [StreamUnit.overflows_eq_false_iff, StreamUnit.newBlocks_eq] at h ⊢
  by_cases hcur : cs.cur = 16
  · obtain ⟨hw, hroom⟩ := h (by omega)
    rw [StreamUnit.processByte_of_full b hcur]
    intro hneed
    simp only [StreamUnit.refill] at hneed ⊢
    rw [be_incCounter, hw, Bool.false_or, beq_eq_false_iff_ne]
    omega
  · rw [StreamUnit.processByte_of_not_full b hcur]
    dsimp only
    rwa [show n - (16 - (cs.cur + 1)) = n + 1 - (16 - cs.cur) by omega]

/-- One byte of a chunk that completes keeps the stream legal. -/
theorem StreamUnit.processByte_legal {ck : CipherUnit} {cs : StreamUnit} {n : Nat} (b : Byte)
    (hl : cs.Legal ck) (ha : cs.active = true) (h : cs.overflows (n + 1) = false) :
    (cs.processByte ck b).2.Legal ck := by
  have hcur := StreamUnit.cur_le_of_legal hl ha
  obtain ⟨hv, hstream⟩ := (StreamUnit.legal_of_active ha).mp hl
  by_cases hfull : cs.cur = 16
  · rw [StreamUnit.overflows_eq_false_iff, StreamUnit.newBlocks_eq] at h
    obtain ⟨hw, -⟩ := h (by omega)
    rw [StreamUnit.processByte_of_full b hfull]
    refine (StreamUnit.legal_of_active (by exact ha)).mpr
      ⟨hv, .inr ⟨le_rfl, by norm_num, cs.ctr, rfl, rfl, ?_⟩⟩
    simp only [StreamUnit.refill, hw, Bool.false_or]
  · rw [StreamUnit.processByte_of_not_full b hfull]
    obtain ⟨hunstarted, -⟩ | ⟨-, -, hblock⟩ := hstream
    · exact absurd hunstarted hfull
    · exact (StreamUnit.legal_of_active (by exact ha)).mpr
        ⟨hv, .inr ⟨Nat.le_add_left 1 _, by dsimp only; omega, hblock⟩⟩

/-- A chunk that completes keeps the stream legal. -/
theorem StreamUnit.process_legal {ck : CipherUnit} (x : List Byte) : ∀ {cs : StreamUnit},
    cs.Legal ck → cs.active = true → cs.overflows x.length = false →
      (StreamUnit.process ck cs x).2.Legal ck := by
  induction x with
  | nil => intro cs hl _ _; exact hl
  | cons b x ih =>
    intro cs hl ha h
    rw [StreamUnit.process_cons]
    exact ih (StreamUnit.processByte_legal b hl ha h)
      ((StreamUnit.process_active ck [b] cs).trans ha)
      (StreamUnit.processByte_not_overflows b (StreamUnit.cur_le_of_legal hl ha) h)

/-! ### One update at a time -/

section Updates

variable {s : State}

theorem Invariant.withErr (h : Invariant s) (e : ErrCode) : Invariant (s.withErr e) :=
  ⟨h.wf, h.implemented, h.dolen, h.dout, h.hs, h.hm, h.ck, h.cs⟩

theorem Invariant.withDlen (h : Invariant s) (v : Word) : Invariant (s.withDlen v) :=
  ⟨h.wf, h.implemented, h.dolen, h.dout, h.hs, h.hm, h.ck, h.cs⟩

theorem Invariant.withMoves (h : Invariant s) (ms : List HostMove) : Invariant (s.withMoves ms) :=
  ⟨h.wf, h.implemented, h.dolen, h.dout, h.hs, h.hm, h.ck, h.cs⟩

theorem Invariant.answer (h : Invariant s) (r : Reply) : Invariant (s.answer r) :=
  ⟨h.wf, h.implemented, h.dolen, h.dout, h.hs, h.hm, h.ck, h.cs⟩

theorem Invariant.withHs (h : Invariant s) {u : HashUnit} (hu : u.Legal) : Invariant (s.withHs u) :=
  ⟨h.wf, h.implemented, h.dolen, h.dout, hu, h.hm, h.ck, h.cs⟩

theorem Invariant.withHm (h : Invariant s) {u : HmacUnit} (hu : u.Legal) : Invariant (s.withHm u) :=
  ⟨h.wf, h.implemented, h.dolen, h.dout, h.hs, hu, h.ck, h.cs⟩

theorem Invariant.withCs (h : Invariant s) {u : StreamUnit} (hu : u.Legal s.ck) :
    Invariant (s.withCs u) :=
  ⟨h.wf, h.implemented, h.dolen, h.dout, h.hs, h.hm, h.ck, hu⟩

/-- A new schedule keeps the invariant when the stream is given up with the old one. -/
theorem Invariant.withCk_wipedCs (h : Invariant s) {u : CipherUnit} (hu : u.Legal) :
    Invariant ((s.withCk u).withCs StreamUnit.wiped) :=
  ⟨h.wf, h.implemented, h.dolen, h.dout, h.hs, h.hm, hu, StreamUnit.wiped_legal u⟩

/-- New cells that read in DOUT as the old ones. -/
theorem Invariant.withMem (h : Invariant s) {m : Memory} (wf : m.wf)
    (implemented : ∀ c ∈ m, InDin s c.1 ∨ InDout s c.1)
    (dout : ∀ i, i < s.cfg.dmax → m.read (doutBase + i) = s.dout i) : Invariant (s.withMem m) :=
  ⟨wf, implemented, h.dolen, fun i hi hd => (dout i hd).trans (h.dout i hi hd), h.hs, h.hm, h.ck,
    h.cs⟩

/-- DIN lies below DOUT (20_memory R61). -/
theorem not_inDin_dout (s : State) (i : Nat) : ¬ InDin s (doutBase + i) := by
  have hd := s.cfg.dmax_upper
  unfold InDin dinBase doutBase
  omega

theorem Invariant.wipeDin (h : Invariant s) : Invariant s.wipeDin :=
  h.withMem (Memory.wf_wipe _ _ h.wf) (fun c hc => h.implemented c (Memory.mem_wipe hc).1)
    fun i _ => (s.wipeDin_read _).trans (if_neg (not_inDin_dout s i))

/-- One cell of DIN written. -/
theorem Invariant.writeDin (h : Invariant s) {a : Nat} (ha : InDin s a) (b : Byte) :
    Invariant (s.withMem (s.mem.write a b)) := by
  refine h.withMem (Memory.wf_write a b h.wf) (fun c hc => ?_) fun i _ => ?_
  · obtain rfl | hc := Memory.mem_write hc
    · exact .inl ha
    · exact h.implemented c hc
  · exact Memory.read_write_other _ b fun e => not_inDin_dout s i (e ▸ ha)

/-- `done(out)` for a result that fits the buffer (30_encoding R98). -/
theorem Invariant.completed (h : Invariant s) {out : List Byte} (hl : out.length ≤ s.cfg.dmax) :
    Invariant (s.completed out) where
  wf := State.completed_wf out h.wf
  implemented := fun c hc =>
    (State.completed_mem_cells hc).elim .inr (h.implemented c)
  dolen := (State.completed_spec s hl).dolen.trans_le hl
  dout := fun i hi hd => by
    rw [(State.completed_spec s hl).dolen] at hi
    rw [State.completed_dout s out hd, List.getD_eq_default _ _ hi]
  hs := h.hs
  hm := h.hm
  ck := h.ck
  cs := h.cs

/-- Both endings of a command keep the invariant, if the effect of the completed one does. -/
theorem Invariant.checkedEnding {c : Option ErrCode} {out : List Byte} {s' t : State}
    (h : Invariant s) (hdone : c = none → Invariant s' ∧ out.length ≤ s'.cfg.dmax)
    (ht : checkedEnding c out s s' = .next t) : Invariant t := by
  obtain ⟨e, -, rfl⟩ | ⟨hc, rfl⟩ := checked_next.mp ht
  · exact h.withErr e
  · obtain ⟨hs', hl⟩ := hdone hc
    exact hs'.completed hl

end Updates

/-! ### The reset step -/

/-- The reset step leaves the invariant true, whatever held before (70_reset R300, R301). -/
theorem State.resetStep_invariant (s : State) : Invariant s.resetStep where
  wf := Memory.wf_reset
  implemented := fun _ hc => absurd hc List.not_mem_nil
  dolen := Nat.zero_le _
  dout := fun _ _ _ => rfl
  hs := HashUnit.wiped_legal
  hm := HmacUnit.wiped_legal
  ck := CipherUnit.wiped_legal
  cs := StreamUnit.wiped_legal _

/-- Settles O55: the reset step leaves the reset state as it is. -/
theorem resetSatisfiesInvariant : Obligations.ResetSatisfiesInvariant :=
  State.resetStep_invariant State.reset

/-! ### Command by command -/

section Commands

variable {s t : State}

/-- The longest result that does not depend on DLEN fits DOUT (00_scope R8). -/
theorem length_ctxFinish_le_dmax (s : State) (alg : HashAlg) (c : HashCtx) :
    (ctxFinish alg c).length ≤ s.cfg.dmax := by
  have hd := digestSize_le alg
  have hc := s.cfg.dmax_lower
  rw [length_ctxFinish]
  omega

theorem Invariant.hashInit {alg : HashAlg} (h : Invariant s)
    (ht : exec (.hashInit alg) s = .next t) : Invariant t := by
  rw [exec_hashInit] at ht
  exact h.checkedEnding (fun _ => ⟨h.withHs (HashUnit.started_legal alg), Nat.zero_le _⟩) ht

theorem Invariant.hashUpdate (h : Invariant s) (ht : exec .hashUpdate s = .next t) :
    Invariant t := by
  rw [exec_hashUpdate] at ht
  refine h.checkedEnding (fun hc => ⟨h.withHs ?_, Nat.zero_le _⟩) ht
  obtain ⟨-, hphase, hlimit⟩ := by simpa only [Option.or_eq_none_iff] using hc
  exact HashUnit.absorb_legal h.hs (phaseCheck_eq_none.mp hphase)
    (by rw [State.length_dlenOperand]; exact limitCheck_eq_none.mp hlimit)

theorem Invariant.hashFinal (h : Invariant s) (ht : exec .hashFinal s = .next t) :
    Invariant t := by
  rw [exec_hashFinal] at ht
  exact h.checkedEnding
    (fun _ => ⟨h.withHs HashUnit.finalised_legal, length_ctxFinish_le_dmax s _ _⟩) ht

theorem Invariant.hmacInit {alg : HashAlg} (h : Invariant s)
    (ht : exec (.hmacInit alg) s = .next t) : Invariant t := by
  rw [exec_hmacInit] at ht
  exact h.checkedEnding
    (fun _ => ⟨(h.withHm (HmacUnit.started_legal alg _)).wipeDin, Nat.zero_le _⟩) ht

theorem Invariant.hmacUpdate (h : Invariant s) (ht : exec .hmacUpdate s = .next t) :
    Invariant t := by
  rw [exec_hmacUpdate] at ht
  refine h.checkedEnding (fun hc => ⟨h.withHm ?_, Nat.zero_le _⟩) ht
  obtain ⟨-, hphase, hlimit⟩ := by simpa only [Option.or_eq_none_iff] using hc
  exact HmacUnit.absorb_legal h.hm (phaseCheck_eq_none.mp hphase)
    (by rw [State.length_dlenOperand]; exact limitCheck_eq_none.mp hlimit)

theorem Invariant.hmacFinal (h : Invariant s) (ht : exec .hmacFinal s = .next t) :
    Invariant t := by
  rw [exec_hmacFinal] at ht
  exact h.checkedEnding
    (fun _ => ⟨h.withHm HmacUnit.finalised_legal, length_ctxFinish_le_dmax s _ _⟩) ht

theorem Invariant.aesSchedule {kbits : Nat} (h : Invariant s)
    (ht : exec (.aesSchedule kbits) s = .next t) : Invariant t := by
  cases hw : keyWordsOf kbits with
  | none =>
    rw [exec_aesSchedule_of_none hw] at ht
    exact h.checkedEnding (fun hc => by cases hc) ht
  | some nk =>
    rw [exec_aesSchedule_of_some hw] at ht
    have legal := scheduleOf_legal (keyWordsOf_ne_none hw) (s.length_operand (4 * nk.count))
    exact h.checkedEnding (fun _ => ⟨(h.withCk_wipedCs legal).wipeDin, Nat.zero_le _⟩) ht

theorem Invariant.aesEncrypt (h : Invariant s) (ht : exec .aesEncrypt s = .next t) :
    Invariant t := by
  have hd := s.cfg.dmax_lower
  rw [exec_aesEncrypt] at ht
  exact h.checkedEnding (fun _ => ⟨h, by rw [length_encrypt]; omega⟩) ht

theorem Invariant.ctrInit (h : Invariant s) (ht : exec .ctrInit s = .next t) : Invariant t := by
  rw [exec_ctrInit] at ht
  exact h.checkedEnding
    (fun hc => ⟨h.withCs (StreamUnit.fresh_legal (existsCheck_eq_none.mp hc) _), Nat.zero_le _⟩) ht

theorem Invariant.ctrProcess (h : Invariant s) (ht : exec .ctrProcess s = .next t) :
    Invariant t := by
  rw [exec_ctrProcess] at ht
  refine h.checkedEnding (fun hc => ?_) ht
  obtain ⟨hlength, hexists, hoverflow⟩ := by simpa only [Option.or_eq_none_iff] using hc
  have hl := s.length_dlenOperand
  refine ⟨h.withCs (StreamUnit.process_legal _ h.cs (existsCheck_eq_none.mp hexists) ?_), ?_⟩
  · rw [hl]; exact overflowCheck_eq_none.mp hoverflow
  · rw [StreamUnit.length_process, hl]; exact lengthCheck_eq_none.mp hlength

theorem Invariant.zeroizeHash (h : Invariant s) : ∀ go, Invariant (s.zeroizeHash go)
  | true => h.withHs HashUnit.wiped_legal
  | false => h

theorem Invariant.zeroizeHmac (h : Invariant s) : ∀ go, Invariant (s.zeroizeHmac go)
  | true => h.withHm HmacUnit.wiped_legal
  | false => h

theorem Invariant.zeroizeCipher (h : Invariant s) : ∀ go, Invariant (s.zeroizeCipher go)
  | true => h.withCk_wipedCs CipherUnit.wiped_legal
  | false => h

theorem Invariant.zeroizeStream (h : Invariant s) : ∀ go, Invariant (s.zeroizeStream go)
  | true => h.withCs (StreamUnit.wiped_legal _)
  | false => h

theorem Invariant.zeroizeDin (h : Invariant s) : ∀ go, Invariant (s.zeroizeDin go)
  | true => h.wipeDin.withDlen 0
  | false => h

theorem exec_zeroize (zmask : BitVec 5) (s : State) :
    exec (.zeroize zmask) s = checkedEnding none [] s
      (((((s.zeroizeHash (wipesHash zmask)).zeroizeHmac (wipesHmac zmask)).zeroizeCipher
        (wipesCipher zmask)).zeroizeStream (wipesStream zmask)).zeroizeDin (wipesDin zmask)) := rfl

theorem Invariant.zeroize {zmask : BitVec 5} (h : Invariant s)
    (ht : exec (.zeroize zmask) s = .next t) : Invariant t := by
  rw [exec_zeroize] at ht
  exact h.checkedEnding (fun _ =>
    ⟨((((h.zeroizeHash _).zeroizeHmac _).zeroizeCipher _).zeroizeStream _).zeroizeDin _,
      Nat.zero_le _⟩) ht

/-- Every command keeps the invariant. -/
theorem Invariant.exec {i : Instr} (h : Invariant s) (ht : exec i s = .next t) : Invariant t := by
  cases i with
  | hashInit alg => exact h.hashInit ht
  | hashUpdate => exact h.hashUpdate ht
  | hashFinal => exact h.hashFinal ht
  | hmacInit alg => exact h.hmacInit ht
  | hmacUpdate => exact h.hmacUpdate ht
  | hmacFinal => exact h.hmacFinal ht
  | aesSchedule kbits => exact h.aesSchedule ht
  | aesEncrypt => exact h.aesEncrypt ht
  | ctrInit => exact h.ctrInit ht
  | ctrProcess => exact h.ctrProcess ht
  | zeroize zmask => exact h.zeroize ht

/-! ### Access by access -/

theorem Invariant.executeWord {w : Word} (h : Invariant s) (ht : executeWord w s = .next t) :
    Invariant t := by
  cases hw : decode w with
  | error e =>
    rw [executeWord_illegal hw] at ht
    obtain rfl := Host.Outcome.next.inj ht
    exact h.withErr _
  | ok i =>
    rw [executeWord_legal hw] at ht
    exact h.exec ht

theorem Invariant.serveWrite32 {off : Offset} {v : Word} (h : Invariant s)
    (ht : serveWrite32 off v s = .next t) : Invariant t := by
  by_cases h0 : off = 0
  · rw [h0, serveWrite32_cmd] at ht
    exact (h.answer _).executeWord ht
  by_cases h8 : off = 0x0008
  · rw [h8, serveWrite32_dlen] at ht
    obtain rfl := Host.Outcome.next.inj ht
    exact (h.withDlen v).answer _
  · rw [serveWrite32_other v s h0 h8] at ht
    obtain rfl := Host.Outcome.next.inj ht
    exact h.answer _

theorem Invariant.serveWrite8 {off : Offset} {v : Byte} (h : Invariant s)
    (ht : serveWrite8 off v s = .next t) : Invariant t := by
  obtain ⟨i, hi, hoff⟩ | hoff := cell_cases dinBase s.cfg.dmax off.toNat
  · rw [serveWrite8_din v hi hoff] at ht
    obtain rfl := Host.Outcome.next.inj ht
    exact (h.writeDin ⟨Nat.le_add_right _ _, Nat.add_lt_add_left hi _⟩ v).answer _
  · rw [serveWrite8_other v hoff] at ht
    obtain rfl := Host.Outcome.next.inj ht
    exact h.answer _

/-- Serving any access keeps the invariant. -/
theorem Invariant.serve {m : HostMove} (h : Invariant s) (ht : serve m s = .next t) :
    Invariant t := by
  cases m with
  | read32 off =>
    obtain rfl := Host.Outcome.next.inj ht
    exact h.answer _
  | read8 off =>
    obtain rfl := Host.Outcome.next.inj ht
    exact h.answer _
  | write32 off v => exact h.serveWrite32 ht
  | write8 off v => exact h.serveWrite8 ht
  | reset =>
    obtain rfl := Host.Outcome.next.inj ht
    exact s.resetStep_invariant

end Commands

/-- Settles O56: the step is the idle one or serves an access. -/
theorem everyStepKeepsInvariant : Obligations.EveryStepKeepsInvariant := by
  intro s t h ht
  cases hm : s.moves with
  | nil =>
    rw [step_idle hm] at ht
    obtain rfl := Host.Outcome.next.inj ht
    exact h
  | cons m rest =>
    rw [step_serves hm] at ht
    exact (h.withMoves rest).serve ht

end Sys2Proof.Machine

/-!
SUPPORT and the proofs of O11 and O12: what the host can see (10_state R23, R39).

STATUS is a sum of fields, each times its place value; a field is read back by dividing by the place
value. What an access answers is read from STATUS, DLEN, DOLEN, DOUT and DMAX alone.
-/

namespace Sys2Proof.Machine

/-! ### The widths of the fields of STATUS -/

theorem ErrCode.code_lt (e : ErrCode) : e.code < 16 := by cases e <;> decide

theorem Phase.code_lt (p : Phase) : p.code < 4 := by cases p <;> decide

theorem keySizeField_lt (k : KeyWords) : keySizeField k < 4 := by cases k <;> decide

theorem algBit_eq_toNat (alg : HashAlg) : algBit alg = (decide (alg = .sha512)).toNat := by
  cases alg <;> rfl

/-! ### Reading a field of a number -/

/-- A field of a word is the number over the field's place value, cut to the field's width. -/
theorem extractLsb'_ofNat_eq {n k w f : Nat} (hk : k + w ≤ 32) (h : n / 2 ^ k % 2 ^ w = f % 2 ^ w) :
    (BitVec.ofNat 32 n).extractLsb' k w = BitVec.ofNat w f := by
  refine BitVec.eq_of_getLsbD_eq fun i hi => ?_
  have hbit : (n / 2 ^ k % 2 ^ w).testBit i = (f % 2 ^ w).testBit i := by rw [h]
  rw [Nat.testBit_mod_two_pow, Nat.testBit_mod_two_pow, Nat.testBit_div_two_pow] at hbit
  rw [BitVec.getLsbD_extractLsb', BitVec.getLsbD_ofNat, BitVec.getLsbD_ofNat, ← hbit,
    decide_eq_true hi, decide_eq_true (show k + i < 32 by omega), Bool.true_and, Bool.true_and,
    Bool.true_and, Nat.add_comm]

/-- A bit of a word is the parity of the number over the bit's place value. -/
theorem getLsbD_ofNat_eq {n k : Nat} {b : Bool} (hk : k < 32) (h : n / 2 ^ k % 2 = b.toNat) :
    (BitVec.ofNat 32 n).getLsbD k = b := by
  rw [BitVec.getLsbD_ofNat, Nat.testBit_eq_decide_div_mod_eq, h]
  cases b <;> simp [hk]

/-- Settles O11: STATUS divided by the place value of each field. -/
theorem statusFieldsAreLiveViews : Obligations.StatusFieldsAreLiveViews := by
  intro s
  have herr := s.err.code_lt
  have hhs := s.hs.phase.code_lt
  have hhm := s.hm.phase.code_lt
  have hkey := keySizeField_lt s.ck.nk
  have hsAlg := Bool.toNat_lt (decide (s.hs.alg = .sha512))
  have hmAlg := Bool.toNat_lt (decide (s.hm.alg = .sha512))
  have hvalid := s.ck.valid.toNat_lt
  have hactive := s.cs.active.toNat_lt
  have hwrapped := s.cs.wrapped.toNat_lt
  rw [statusWord, algBit_eq_toNat, algBit_eq_toNat]
  exact ⟨extractLsb'_ofNat_eq (by decide) (by omega),
    extractLsb'_ofNat_eq (by decide) (by omega),
    getLsbD_ofNat_eq (by decide) (by omega),
    getLsbD_ofNat_eq (by decide) (by rw [Bool.toNat_false]; omega),
    extractLsb'_ofNat_eq (by decide) (by omega),
    getLsbD_ofNat_eq (by decide) (by omega),
    getLsbD_ofNat_eq (by decide) (by rw [Bool.toNat_false]; omega),
    getLsbD_ofNat_eq (by decide) (by omega),
    extractLsb'_ofNat_eq (by decide) (by omega),
    getLsbD_ofNat_eq (by decide) (by rw [Bool.toNat_false]; omega),
    getLsbD_ofNat_eq (by decide) (by omega),
    getLsbD_ofNat_eq (by decide) (by omega),
    extractLsb'_ofNat_eq (f := 0) (by decide) (by omega)⟩

/-! ### What the answers are read from -/

/-- The two states agree in all that 10_state R39 lets the host read. -/
structure SameView (s t : State) : Prop where
  cfg : t.cfg = s.cfg
  err : t.err = s.err
  dlen : t.dlen = s.dlen
  dolen : t.dolen = s.dolen
  dout : ∀ i, i < s.cfg.dmax → t.dout i = s.dout i
  hsPhase : t.hs.phase = s.hs.phase
  hsAlg : t.hs.alg = s.hs.alg
  hmPhase : t.hm.phase = s.hm.phase
  hmAlg : t.hm.alg = s.hm.alg
  valid : t.ck.valid = s.ck.valid
  nk : t.ck.nk = s.ck.nk
  active : t.cs.active = s.cs.active
  wrapped : t.cs.wrapped = s.cs.wrapped
  replies : t.replies = s.replies

section SameView

variable {s t : State}

theorem SameView.statusWord (h : SameView s t) : statusWord t = statusWord s := by
  simp only [Machine.statusWord, h.err, h.hsPhase, h.hsAlg, h.hmPhase, h.hmAlg, h.valid, h.nk,
    h.active, h.wrapped]

theorem SameView.read32Reply (h : SameView s t) (off : Offset) :
    read32Reply off t = read32Reply off s := by
  simp only [Machine.read32Reply, h.statusWord, h.dlen, h.dolen]

theorem SameView.read8Reply (h : SameView s t) (off : Offset) :
    read8Reply off t = read8Reply off s := by
  obtain ⟨i, hi, hoff⟩ | hoff := cell_cases doutBase s.cfg.dmax off.toNat
  · rw [read8Reply_dout (by rwa [h.cfg]) hoff, read8Reply_dout hi hoff, h.dout i hi]
  · rw [read8Reply_other (by rwa [h.cfg]), read8Reply_other hoff]

variable {s' t' : State}

/-- The same answer to states with the same answers before. -/
theorem SameView.answer (h : SameView s t) (r : Reply) :
    (t.answer r).replies = (s.answer r).replies :=
  congrArg (r :: ·) h.replies

theorem SameView.serveWrite32 (h : SameView s t) {off : Offset} {v : Word} (h0 : off ≠ 0)
    (hs : serveWrite32 off v s = .next s') (ht : serveWrite32 off v t = .next t') :
    t'.replies = s'.replies := by
  by_cases h8 : off = 0x0008
  · rw [h8, serveWrite32_dlen] at hs ht
    obtain rfl := Host.Outcome.next.inj hs
    obtain rfl := Host.Outcome.next.inj ht
    exact h.answer _
  · rw [serveWrite32_other v _ h0 h8] at hs ht
    obtain rfl := Host.Outcome.next.inj hs
    obtain rfl := Host.Outcome.next.inj ht
    exact h.answer _

theorem SameView.serveWrite8 (h : SameView s t) {off : Offset} {v : Byte}
    (hs : serveWrite8 off v s = .next s') (ht : serveWrite8 off v t = .next t') :
    t'.replies = s'.replies := by
  obtain ⟨i, hi, hoff⟩ | hoff := cell_cases dinBase s.cfg.dmax off.toNat
  · rw [serveWrite8_din v hi hoff] at hs
    rw [serveWrite8_din v (by rwa [h.cfg]) hoff] at ht
    obtain rfl := Host.Outcome.next.inj hs
    obtain rfl := Host.Outcome.next.inj ht
    exact h.answer _
  · rw [serveWrite8_other v hoff] at hs
    rw [serveWrite8_other v (by rwa [h.cfg])] at ht
    obtain rfl := Host.Outcome.next.inj hs
    obtain rfl := Host.Outcome.next.inj ht
    exact h.answer _

/-- An access other than a write of CMD answers alike in states that the host sees alike. -/
theorem SameView.serve (h : SameView s t) {m : HostMove} (hm : ∀ w, m ≠ .write32 0 w)
    (hs : serve m s = .next s') (ht : serve m t = .next t') : t'.replies = s'.replies := by
  cases m with
  | read32 off =>
    obtain rfl := Host.Outcome.next.inj hs
    obtain rfl := Host.Outcome.next.inj ht
    rw [h.read32Reply]
    exact h.answer _
  | read8 off =>
    obtain rfl := Host.Outcome.next.inj hs
    obtain rfl := Host.Outcome.next.inj ht
    rw [h.read8Reply]
    exact h.answer _
  | write32 off v => exact h.serveWrite32 (fun h0 => hm v (by rw [h0])) hs ht
  | write8 off v => exact h.serveWrite8 hs ht
  | reset =>
    obtain rfl := Host.Outcome.next.inj hs
    obtain rfl := Host.Outcome.next.inj ht
    exact h.replies

end SameView

/-- Settles O12: the states agree in all that the serving of the access reads. -/
theorem answersDoNotShowHiddenState : Obligations.AnswersDoNotShowHiddenState := by
  intro s t s' t' m hsm htm hm cfg err dlen dolen dout hsPhase hsAlg hmPhase hmAlg valid nk active
    wrapped replies hs ht
  rw [step_serves hsm] at hs
  rw [step_serves htm] at ht
  have view : SameView (s.withMoves []) (t.withMoves []) :=
    ⟨cfg, err, dlen, dolen, dout, hsPhase, hsAlg, hmPhase, hmAlg, valid, nk, active, wrapped,
      replies⟩
  exact view.serve hm hs ht

end Sys2Proof.Machine

/-!
SUPPORT and the proofs of O15, O7, O8, O9 and O10 (20_memory R64 to R66, 93 section 1): every run goes
on, and what each kind of access does, offset by offset.

The idea of O15: every command is its checks and one of two endings, and both endings are next states;
so is all else that the port can serve. The other four are the laws of the port, read on the state
with the access taken.
-/

namespace Sys2Proof.Machine

/-! ### No command stops the machine -/

/-- Every command ends as its checks say, in an error taken or in a result (30_encoding R96, R98). -/
theorem exec_eq_checkedEnding (i : Instr) (s : State) :
    ∃ c out s', exec i s = checkedEnding c out s s' := by
  cases i with
  | hashInit alg => exact ⟨_, _, _, exec_hashInit alg s⟩
  | hashUpdate => exact ⟨_, _, _, exec_hashUpdate s⟩
  | hashFinal => exact ⟨_, _, _, exec_hashFinal s⟩
  | hmacInit alg => exact ⟨_, _, _, exec_hmacInit alg s⟩
  | hmacUpdate => exact ⟨_, _, _, exec_hmacUpdate s⟩
  | hmacFinal => exact ⟨_, _, _, exec_hmacFinal s⟩
  | aesSchedule kbits =>
    cases hk : keyWordsOf kbits with
    | none => exact ⟨_, _, _, exec_aesSchedule_of_none hk s⟩
    | some nk => exact ⟨_, _, _, exec_aesSchedule_of_some hk s⟩
  | aesEncrypt => exact ⟨_, _, _, exec_aesEncrypt s⟩
  | ctrInit => exact ⟨_, _, _, exec_ctrInit s⟩
  | ctrProcess => exact ⟨_, _, _, exec_ctrProcess s⟩
  | zeroize zmask => exact ⟨_, _, _, exec_zeroize zmask s⟩

theorem checkedEnding_goesOn (c : Option ErrCode) (out : List Byte) (s s' : State) :
    ∃ t, checkedEnding c out s s' = .next t := by
  cases c with
  | some e => exact ⟨s.withErr e, rfl⟩
  | none => exact ⟨s'.completed out, rfl⟩

theorem exec_goesOn (i : Instr) (s : State) : ∃ t, exec i s = .next t := by
  obtain ⟨c, out, s', h⟩ := exec_eq_checkedEnding i s
  rw [h]
  exact checkedEnding_goesOn c out s s'

/-! ### No access stops the machine -/

theorem executeWord_goesOn (w : Word) (s : State) : ∃ t, executeWord w s = .next t := by
  cases hw : decode w with
  | error e => exact ⟨_, executeWord_illegal hw s⟩
  | ok i =>
    rw [executeWord_legal hw]
    exact exec_goesOn i s

theorem serveWrite32_goesOn (off : Offset) (v : Word) (s : State) :
    ∃ t, serveWrite32 off v s = .next t := by
  by_cases h0 : off = 0
  · rw [h0, serveWrite32_cmd]
    exact executeWord_goesOn v _
  by_cases h8 : off = 0x0008
  · rw [h8]
    exact ⟨_, serveWrite32_dlen v s⟩
  · exact ⟨_, serveWrite32_other v s h0 h8⟩

theorem serveWrite8_goesOn (off : Offset) (v : Byte) (s : State) :
    ∃ t, serveWrite8 off v s = .next t := by
  obtain ⟨i, hi, hoff⟩ | hoff := cell_cases dinBase s.cfg.dmax off.toNat
  · exact ⟨_, serveWrite8_din v hi hoff⟩
  · exact ⟨_, serveWrite8_other v hoff⟩

theorem serve_goesOn (m : HostMove) (s : State) : ∃ t, serve m s = .next t := by
  cases m with
  | read32 off => exact ⟨_, rfl⟩
  | read8 off => exact ⟨_, rfl⟩
  | write32 off v => exact serveWrite32_goesOn off v s
  | write8 off v => exact serveWrite8_goesOn off v s
  | reset => exact ⟨_, rfl⟩

theorem step_goesOn (s : State) : ∃ t, step s = .next t := by
  cases hm : s.moves with
  | nil => exact ⟨s, step_idle hm⟩
  | cons m rest =>
    rw [step_serves hm]
    exact serve_goesOn m _

/-! ### Runs -/

theorem run_succ_of_step {M : Host.Core} {s t : M.State} (h : M.step s = .next t) (k : Nat) :
    M.run (k + 1) s = M.run k t := by
  rw [Host.Core.run, h]

/-- Settles O15, by induction on the number of steps. -/
theorem everyRunGoesOn : Obligations.EveryRunGoesOn := by
  intro k
  induction k with
  | zero => exact fun s => ⟨s, rfl⟩
  | succ k ih =>
    intro s
    obtain ⟨t, ht⟩ := step_goesOn s
    rw [run_succ_of_step (M := core) ht]
    exact ih t

/-! ### The four kinds of access -/

/-- The 32-bit read in one equation over all offsets (20_memory R64, R66). -/
theorem read32Reply_eq (off : Offset) (s : State) :
    read32Reply off s =
      if off = 0x0004 then .word (statusWord s)
      else if off = 0x0008 then .word s.dlen
      else if off = 0x000C then .word s.dolen
      else .refusedRead 0 := by
  split_ifs with h4 h8 hc
  · rw [h4, read32Reply_status]
  · rw [h8, read32Reply_dlen]
  · rw [hc, read32Reply_dolen]
  · exact read32Reply_other s h4 h8 hc

/-- Settles O7: what the read returns is the same before and after the access is taken. -/
theorem read32AnswersAndChangesNothing : Obligations.Read32AnswersAndChangesNothing := by
  intro s off rest hm
  rw [step_serves hm, serve, read32Reply_eq]
  rfl

/-- Settles O8: the offset is that of a cell of DOUT, or of none. -/
theorem read8AnswersAndChangesNothing : Obligations.Read8AnswersAndChangesNothing := by
  intro s off rest hm
  rw [step_serves hm, serve]
  refine ⟨fun i hi hoff => ?_, fun hoff => ?_⟩
  · rw [read8Reply_dout (s := s.withMoves rest) hi hoff]
    rfl
  · rw [read8Reply_other (s := s.withMoves rest) hoff]

/-- Settles O9: the offset is that of DLEN, or one at which nothing can be written. -/
theorem write32StoresDlenOrIsRefused : Obligations.Write32StoresDlenOrIsRefused := by
  intro s off v rest hm h0
  rw [step_serves hm, serve]
  split_ifs with h8
  · rw [h8, serveWrite32_dlen]
  · exact serveWrite32_other v _ h0 h8

/-- Settles O10: the offset is that of a cell of DIN, and the memory after it is a write of that one
cell; or it is that of none. -/
theorem write8StoresOneDinCellOrIsRefused : Obligations.Write8StoresOneDinCellOrIsRefused := by
  intro s off v rest hm
  rw [step_serves hm, serve]
  refine ⟨fun i hi hoff => ⟨s.mem.write off.toNat v, ?_, s.mem.read_write_same off.toNat v,
    fun a ha => s.mem.read_write_other v ha⟩, fun hoff => ?_⟩
  · rw [serveWrite8_din (s := s.withMoves rest) v hi hoff, hoff]
    rfl
  · exact serveWrite8_other (s := s.withMoves rest) v hoff

end Sys2Proof.Machine

/-!
SUPPORT and the proofs of O1, O2, O3, O4 and O5 (30_encoding R90 to R97): commands and their words.

The idea: a word is its three fields, and the decoder reads a command from exactly the word whose
fields are that command's (`decode_eq_ok_iff`). Both directions of the encoding follow. Which words
are legal is said once by their fields (`LegalFields`); the decoder, the opcode map and the rule of
R97 are each shown to say that.
-/

namespace Sys2Proof

/-! ### A word is its three fields (30_encoding R91) -/

theorem word_eq_fields (w : Word) : argField w ++ (rsvField w ++ opField w) = w := by
  refine BitVec.eq_of_getLsbD_eq fun i hi => ?_
  simp only [argField, rsvField, opField, BitVec.getLsbD_append, BitVec.getLsbD_extractLsb']
  split_ifs with h16 h8
  · simp [h8]
  · simp [show i - 8 < 8 by omega, show 8 + (i - 8) = i by omega]
  · simp [show i - 16 < 16 by omega, show 16 + (i - 16) = i by omega]

theorem word_ext_fields {v w : Word} :
    v = w ↔ rsvField v = rsvField w ∧ opField v = opField w ∧ argField v = argField w := by
  constructor
  · rintro rfl
    exact ⟨rfl, rfl, rfl⟩
  · rintro ⟨hrsv, hop, harg⟩
    rw [← word_eq_fields v, ← word_eq_fields w, hrsv, hop, harg]

theorem fields_and (v w : Word) :
    rsvField (v &&& w) = rsvField v &&& rsvField w ∧ opField (v &&& w) = opField v &&& opField w ∧
      argField (v &&& w) = argField v &&& argField w :=
  ⟨BitVec.extractLsb'_and, BitVec.extractLsb'_and, BitVec.extractLsb'_and⟩

/-- The word of a command is the one with that command's fields. -/
theorem encode_eq_iff (i : Instr) (w : Word) :
    encode i = w ↔ rsvField w = 0 ∧ opField w = i.opcode ∧ argField w = i.argument := by
  obtain ⟨hrsv, hop, harg⟩ := Laws.formatC_fields i.argument i.opcode
  rw [encode, word_ext_fields, hrsv, hop, harg]
  exact and_congr eq_comm (and_congr eq_comm eq_comm)

/-! ### Reading the argument (30_encoding R92) -/

theorem decodeAlg_eq_ok_iff {arg : BitVec 16} {alg : HashAlg} :
    decodeAlg arg = .ok alg ↔ arg = alg.code := by
  unfold decodeAlg
  split_ifs with h0 h1 <;> cases alg <;> simp_all [HashAlg.code]

theorem decodePlain_eq_ok_iff {arg : BitVec 16} {i j : Instr} :
    decodePlain arg i = .ok j ↔ arg = 0 ∧ i = j := by
  unfold decodePlain
  split_ifs with h0 <;> simp_all

/-- ARG[15:5] is zero and ARG[4:0] the mask exactly when ARG is the mask in 16 bits. -/
theorem decodeMask_eq_ok_iff {arg : BitVec 16} {zmask : BitVec 5} :
    decodeMask arg = .ok zmask ↔ arg = zmask.setWidth 16 := by
  have harg := arg.isLt
  have hz := zmask.isLt
  unfold decodeMask
  split_ifs with h <;>
    simp only [← BitVec.toNat_inj, BitVec.extractLsb'_toNat, BitVec.toNat_setWidth,
      Nat.shiftRight_eq_div_pow, BitVec.ofNat_eq_ofNat, BitVec.toNat_ofNat,
      Except.ok.injEq, false_iff] at h ⊢ <;>
    omega

theorem map_eq_ok_iff {α : Type} {x : Except IllegalEncoding α} {f : α → Instr} {i : Instr} :
    x.map f = .ok i ↔ ∃ a, x = .ok a ∧ f a = i := by
  cases x <;> simp [Except.map]

theorem aesSchedule_argument (arg : BitVec 16) : (Instr.aesSchedule arg.toNat).argument = arg := by
  rw [Instr.argument, BitVec.ofNat_toNat, BitVec.setWidth_eq]

/-! ### The decoder reads a command from exactly the word of that command -/

theorem decode_encode {i : Instr} (h : i.wellFormed = true) : decode (encode i) = .ok i := by
  obtain ⟨hrsv, hop, harg⟩ := (encode_eq_iff i _).mp rfl
  unfold decode
  rw [hrsv, hop, harg]
  cases i with
  | hashInit alg => exact map_eq_ok_iff.mpr ⟨alg, decodeAlg_eq_ok_iff.mpr rfl, rfl⟩
  | hmacInit alg => exact map_eq_ok_iff.mpr ⟨alg, decodeAlg_eq_ok_iff.mpr rfl, rfl⟩
  | aesSchedule kbits =>
    have hk : (BitVec.ofNat 16 kbits).toNat = kbits :=
      Nat.mod_eq_of_lt (of_decide_eq_true h)
    exact congrArg (fun n => Except.ok (Instr.aesSchedule n)) hk
  | zeroize zmask => exact map_eq_ok_iff.mpr ⟨zmask, decodeMask_eq_ok_iff.mpr rfl, rfl⟩
  | hashUpdate | hashFinal | hmacUpdate | hmacFinal | aesEncrypt | ctrInit | ctrProcess => rfl

theorem decode_eq_ok {w : Word} {i : Instr} (h : decode w = .ok i) :
    i.wellFormed = true ∧ encode i = w := by
  by_cases hrsv : rsvField w = 0
  case neg =>
    rw [decode, if_pos hrsv] at h
    contradiction
  rw [decode, if_neg (not_not.mpr hrsv)] at h
  rw [encode_eq_iff]
  simp only [ite_eq_iff, map_eq_ok_iff, decodeAlg_eq_ok_iff, decodePlain_eq_ok_iff,
    decodeMask_eq_ok_iff, Except.ok.injEq, reduceCtorEq, and_false, or_false] at h
  obtain ⟨hop, alg, harg, rfl⟩ | ⟨-, ⟨hop, harg, rfl⟩ | ⟨-, ⟨hop, harg, rfl⟩ |
    ⟨-, ⟨hop, alg, harg, rfl⟩ | ⟨-, ⟨hop, harg, rfl⟩ | ⟨-, ⟨hop, harg, rfl⟩ |
    ⟨-, ⟨hop, rfl⟩ | ⟨-, ⟨hop, harg, rfl⟩ | ⟨-, ⟨hop, harg, rfl⟩ |
    ⟨-, ⟨hop, harg, rfl⟩ | ⟨-, hop, zmask, harg, rfl⟩⟩⟩⟩⟩⟩⟩⟩⟩⟩ := h
  pick_goal 7 -- AES_SCHEDULE, whose KBITS is the whole of ARG
  · exact ⟨decide_eq_true (argField w).isLt, hrsv, hop, (aesSchedule_argument _).symm⟩
  all_goals exact ⟨rfl, hrsv, hop, harg⟩

theorem decode_eq_ok_iff {w : Word} {i : Instr} :
    decode w = .ok i ↔ i.wellFormed = true ∧ encode i = w :=
  ⟨decode_eq_ok, fun ⟨hwf, hw⟩ => hw ▸ decode_encode hwf⟩

/-- Settles O1: the word of a command has the fields that the decoder reads that command from. -/
theorem decodeInvertsEncode : Obligations.DecodeInvertsEncode := fun _ => decode_encode

/-- Settles O2: the fields of a word that the decoder accepts are those of the command it reads. -/
theorem encodeInvertsDecode : Obligations.EncodeInvertsDecode := fun _ _ => decode_eq_ok

/-! ### Which words are legal, by their fields (30_encoding R92, R93, R97) -/

/-- The eleven OP values, each with the number of low bits of ARG that it leaves free. -/
def argWidths : List (BitVec 8 × Nat) :=
  [(0x10, 1), (0x11, 0), (0x12, 0), (0x20, 1), (0x21, 0), (0x22, 0), (0x30, 16), (0x31, 0),
    (0x40, 0), (0x41, 0), (0xF0, 5)]

/-- RSV is 0, OP one of the eleven, ARG a legal value of that OP. -/
def LegalFields (w : Word) : Prop :=
  rsvField w = 0 ∧ ∃ c ∈ argWidths, opField w = c.1 ∧ (argField w).toNat < 2 ^ c.2

/-- The argument of a command stays in the bits that its OP leaves free. -/
theorem Instr.argument_lt (i : Instr) :
    ∃ c ∈ argWidths, i.opcode = c.1 ∧ i.argument.toNat < 2 ^ c.2 := by
  cases i with
  | hashInit alg | hmacInit alg => exact ⟨(_, 1), by decide, rfl, by cases alg <;> decide⟩
  | aesSchedule kbits => exact ⟨(_, 16), by decide, rfl, (BitVec.ofNat 16 kbits).isLt⟩
  | zeroize zmask =>
    exact ⟨(_, 5), by decide, rfl,
      (BitVec.toNat_setWidth_of_le (by decide)).trans_lt zmask.isLt⟩
  | hashUpdate | hashFinal | hmacUpdate | hmacFinal | aesEncrypt | ctrInit | ctrProcess =>
    exact ⟨(_, 0), by decide, rfl, by decide⟩

theorem exists_alg_of_lt {arg : BitVec 16} (h : arg.toNat < 2 ^ 1) :
    ∃ alg, arg = HashAlg.code alg := by
  obtain h0 | h1 : arg.toNat = 0 ∨ arg.toNat = 1 := by omega
  · exact ⟨.sha256, BitVec.eq_of_toNat_eq h0⟩
  · exact ⟨.sha512, BitVec.eq_of_toNat_eq h1⟩

theorem eq_zero_of_lt {arg : BitVec 16} (h : arg.toNat < 2 ^ 0) : arg = 0 :=
  BitVec.eq_of_toNat_eq (Nat.lt_one_iff.mp h)

/-- Every ARG in the free bits of its OP is the argument of a command. -/
theorem exists_instr_of_lt {op : BitVec 8} {k : Nat} (hc : (op, k) ∈ argWidths) {arg : BitVec 16}
    (h : arg.toNat < 2 ^ k) :
    ∃ i : Instr, i.wellFormed = true ∧ op = i.opcode ∧ arg = i.argument := by
  simp only [argWidths, List.mem_cons, Prod.mk.injEq, List.not_mem_nil, or_false] at hc
  obtain ⟨rfl, rfl⟩ | ⟨rfl, rfl⟩ | ⟨rfl, rfl⟩ | ⟨rfl, rfl⟩ | ⟨rfl, rfl⟩ | ⟨rfl, rfl⟩ |
    ⟨rfl, rfl⟩ | ⟨rfl, rfl⟩ | ⟨rfl, rfl⟩ | ⟨rfl, rfl⟩ | ⟨rfl, rfl⟩ := hc
  · obtain ⟨alg, halg⟩ := exists_alg_of_lt h
    exact ⟨.hashInit alg, rfl, rfl, halg⟩
  · exact ⟨.hashUpdate, rfl, rfl, eq_zero_of_lt h⟩
  · exact ⟨.hashFinal, rfl, rfl, eq_zero_of_lt h⟩
  · obtain ⟨alg, halg⟩ := exists_alg_of_lt h
    exact ⟨.hmacInit alg, rfl, rfl, halg⟩
  · exact ⟨.hmacUpdate, rfl, rfl, eq_zero_of_lt h⟩
  · exact ⟨.hmacFinal, rfl, rfl, eq_zero_of_lt h⟩
  · exact ⟨.aesSchedule arg.toNat, decide_eq_true h, rfl, (aesSchedule_argument arg).symm⟩
  · exact ⟨.aesEncrypt, rfl, rfl, eq_zero_of_lt h⟩
  · exact ⟨.ctrInit, rfl, rfl, eq_zero_of_lt h⟩
  · exact ⟨.ctrProcess, rfl, rfl, eq_zero_of_lt h⟩
  · exact ⟨.zeroize (arg.setWidth 5), rfl, rfl, BitVec.eq_of_toNat_eq (by
      simp [Instr.argument]; omega)⟩

/-- The decoder reads a command from the words with legal fields. -/
theorem exists_decode_ok_iff {w : Word} : (∃ i, decode w = .ok i) ↔ LegalFields w := by
  simp only [decode_eq_ok_iff, encode_eq_iff]
  constructor
  · rintro ⟨i, -, hrsv, hop, harg⟩
    rw [LegalFields, hop, harg]
    exact ⟨hrsv, i.argument_lt⟩
  · rintro ⟨hrsv, c, hc, hop, hlt⟩
    obtain ⟨i, hwf, hop', harg⟩ := exists_instr_of_lt hc hlt
    exact ⟨i, hwf, hrsv, hop.trans hop', harg⟩

theorem exists_decode_error_iff {w : Word} : (∃ e, decode w = .error e) ↔ ¬ LegalFields w := by
  rw [← exists_decode_ok_iff]
  cases decode w <;> simp

/-! ### The opcode map (30_encoding R93) -/

/-- The rows test all of RSV and OP, and want zeros in RSV and in the bits of ARG they test. -/
theorem opcodeRows_fields : ∀ r ∈ opcodeRows,
    rsvField r.mask = BitVec.allOnes 8 ∧ opField r.mask = BitVec.allOnes 8 ∧
      rsvField r.pattern = 0 ∧ argField r.pattern = 0 := by decide

/-- Row by row, OP and the bits of ARG that are tested: all but the free ones. -/
theorem opcodeRows_argWidths :
    opcodeRows.map (fun r => (opField r.pattern, argField r.mask)) =
      argWidths.map (fun c => (c.1, BitVec.allOnes 16 <<< c.2)) := by decide

theorem OpcodeRow.selects_iff {r : OpcodeRow} (hr : r ∈ opcodeRows) (w : Word) :
    r.selects w = true ↔
      rsvField w = 0 ∧ opField w = opField r.pattern ∧ argField w &&& argField r.mask = 0 := by
  obtain ⟨hrsv, hop, hrsv0, harg0⟩ := opcodeRows_fields r hr
  obtain ⟨handRsv, handOp, handArg⟩ := fields_and w r.mask
  rw [OpcodeRow.selects, beq_iff_eq, word_ext_fields, handRsv, handOp, handArg, hrsv, hop, hrsv0,
    harg0, BitVec.and_allOnes, BitVec.and_allOnes]

/-- The bits from `k` up are all zero exactly when the number is below 2^k. -/
theorem and_allOnes_shiftLeft_eq_zero_iff {w k : Nat} {x : BitVec w} :
    x &&& BitVec.allOnes w <<< k = 0 ↔ x.toNat < 2 ^ k := by
  have hbit (i : Nat) : (x &&& BitVec.allOnes w <<< k).getLsbD i =
      (!decide (i < k) && x.getLsbD i) := by
    rw [BitVec.getLsbD_and, BitVec.getLsbD_shiftLeft, BitVec.getLsbD_allOnes]
    by_cases hi : i < w
    · simp [hi, show i - k < w by omega, Bool.and_comm]
    · simp [BitVec.getLsbD_of_ge x i (by omega)]
  constructor
  · intro h
    refine Nat.lt_pow_two_of_testBit _ fun i hi => ?_
    have hzero := hbit i
    rw [h] at hzero
    simpa [hi, BitVec.testBit_toNat] using hzero
  · intro h
    refine BitVec.eq_of_getLsbD_eq fun i _ => ?_
    rw [hbit]
    by_cases hi : i < k
    · simp [hi]
    · have hpow : x.toNat < 2 ^ i := h.trans_le (Nat.pow_le_pow_right (by decide) (by omega))
      simp [← BitVec.testBit_toNat, Nat.testBit_lt_two_pow hpow]

/-- What holds of OP and the tested bits of some row holds of some OP and all but its free bits. -/
theorem exists_row_iff {p : BitVec 8 × BitVec 16 → Prop} :
    (∃ r ∈ opcodeRows, p (opField r.pattern, argField r.mask)) ↔
      ∃ c ∈ argWidths, p (c.1, BitVec.allOnes 16 <<< c.2) := by
  have h := congrArg (∃ c ∈ ·, p c) opcodeRows_argWidths
  simpa only [List.mem_map, exists_exists_and_eq_and] using iff_of_eq h

/-- The rows of the opcode map select the words with legal fields. -/
theorem exists_row_selects_iff {w : Word} :
    (∃ r ∈ opcodeRows, r.selects w = true) ↔ LegalFields w :=
  calc (∃ r ∈ opcodeRows, r.selects w = true)
      ↔ ∃ r ∈ opcodeRows, rsvField w = 0 ∧ opField w = opField r.pattern ∧
          argField w &&& argField r.mask = 0 :=
        exists_congr fun r => and_congr_right fun hr => OpcodeRow.selects_iff hr w
    _ ↔ ∃ c ∈ argWidths, rsvField w = 0 ∧ opField w = c.1 ∧
          argField w &&& BitVec.allOnes 16 <<< c.2 = 0 :=
        exists_row_iff (p := fun c => rsvField w = 0 ∧ opField w = c.1 ∧ argField w &&& c.2 = 0)
    _ ↔ LegalFields w := by
        simp only [and_allOnes_shiftLeft_eq_zero_iff, LegalFields,
          and_left_comm (b := rsvField w = 0), exists_and_left]

/-! ### The rule (30_encoding R97) -/

/-- Settles O3: the words that are no command are those without legal fields. By the rule, that is
RSV not 0, or an OP that is none of the eleven, or for each of the eleven an ARG past its bits. -/
theorem illegalWordsAreThoseOfTheRule : Obligations.IllegalWordsAreThoseOfTheRule := by
  intro w
  rw [exists_decode_error_iff]
  have hrows : ¬ LegalFields w ↔ ∀ r ∈ opcodeRows, r.selects w = false := by
    rw [← exists_row_selects_iff]
    simp only [not_exists, not_and, Bool.not_eq_true]
  refine ⟨?_, hrows⟩
  by_cases hrsv : rsvField w = 0
  case neg => exact iff_of_true (fun h => hrsv h.1) (.inl hrsv)
  by_cases hop : ∃ c ∈ argWidths, opField w = c.1
  case neg =>
    refine iff_of_true (fun ⟨_, c, hc, hcop, _⟩ => hop ⟨c, hc, hcop⟩) (.inr (.inl ?_))
    simpa [argWidths] using hop
  obtain ⟨c, hc, hop⟩ := hop
  have harg := (argField w).isLt
  simp only [argWidths, List.mem_cons, List.not_mem_nil, or_false] at hc
  rcases hc with rfl | rfl | rfl | rfl | rfl | rfl | rfl | rfl | rfl | rfl | rfl <;>
    simp [LegalFields, argWidths, hrsv, hop, ← BitVec.toNat_inj] <;> omega

/-- Settles O4, word by word. -/
theorem specWordsDecodeAsListed : Obligations.SpecWordsDecodeAsListed := by
  unfold Obligations.SpecWordsDecodeAsListed
  decide

end Sys2Proof

namespace Sys2Proof.Machine

/-- Settles O5: serving a write of CMD executes the word, and a legal word executes as its
command. -/
theorem stepRunsTheDecodedCommand : Obligations.StepRunsTheDecodedCommand := by
  intro s w i rest hm hd _
  rw [step_serves hm, serve, serveWrite32_cmd, executeWord_legal hd]

end Sys2Proof.Machine

/-!
SUPPORT and the proofs of O57 and O58 (30_encoding R101): what PUT and GET do.

Each is one equation: the state after it is the one before with the operand loaded, or as it was,
and the answers given.
-/

namespace Sys2Proof.Machine

/-! ### PUT -/

/-- The writes of an operand from cell `k` up, all of them accepted. -/
theorem State.deliver_dinWrites (x : List Byte) : ∀ (s : State) (k : Nat),
    k + x.length ≤ s.cfg.dmax →
    s.deliver (dinWrites k x) =
      (s.withMem (s.mem.writeBytes (dinBase + k) x)).withReplies
        (List.replicate x.length .written ++ s.replies) := by
  induction x with
  | nil => intro s k _; rfl
  | cons b x ih =>
    intro s k h
    rw [List.length_cons] at h
    rw [dinWrites, State.deliver_din (by omega), ih _ _ (by simp; omega), List.length_cons,
      List.replicate_succ', List.append_assoc]
    rfl

/-- PUT loads its bytes and their number, and every write is accepted. -/
theorem State.deliver_put {s : State} {x : List Byte} (h : x.length ≤ s.cfg.dmax) :
    s.deliver (put x) =
      (s.loaded x).withReplies (List.replicate (x.length + 1) .written ++ s.replies) := by
  rw [put, putb, State.deliver_append, State.deliver_dinWrites x s 0 (by omega), State.deliver_dlen]
  rfl

theorem State.loaded_dlen_toNat {s : State} {x : List Byte} (h : x.length ≤ s.cfg.dmax) :
    (s.loaded x).dlen.toNat = x.length :=
  Nat.mod_eq_of_lt (by have := s.cfg.dmax_upper; omega)

/-- PUT leaves every cell but the operand's alone. -/
theorem State.loaded_read_other (s : State) (x : List Byte) {a : Nat}
    (h : ¬ (dinBase ≤ a ∧ a < dinBase + x.length)) : (s.loaded x).mem.read a = s.mem.read a :=
  (Memory.read_writeBytes x s.mem dinBase a).trans (if_neg h)

/-- Settles O57: the answers aside, the state after PUT is the loaded one. -/
theorem putLoadsOperand : Obligations.PutLoadsOperand := by
  intro s x h
  rw [State.deliver_put h]
  exact ⟨State.loaded_dlen_toNat h, s.loaded_dlenOperand h, fun _ => s.loaded_read_other x,
    rfl, rfl, rfl, rfl, rfl, rfl, rfl, rfl⟩

/-! ### GET -/

theorem State.result_succ (s : State) (n : Nat) : s.result (n + 1) = s.result n ++ [s.dout n] := by
  simp [State.result, List.range_succ]

@[simp] theorem State.length_result (s : State) (n : Nat) : (s.result n).length = n := by
  simp [State.result]

/-- An accepted 8-bit read, whatever was answered before. -/
theorem State.deliver_dout {s : State} {i : Nat} (hi : i < s.cfg.dmax) (rs : List Reply) :
    (s.withReplies rs).deliver [.read8 (BitVec.ofNat 14 (doutBase + i))] =
      s.withReplies (.byte (s.dout i) :: rs) := by
  have hd := s.cfg.dmax_upper
  have hoff : (BitVec.ofNat 14 (doutBase + i)).toNat = doutBase + i :=
    Nat.mod_eq_of_lt (by unfold doutBase; omega)
  rw [State.deliver_read8, read8Reply_dout (s := s.withReplies rs) hi hoff]
  rfl

/-- The reads of the first cells of DOUT answer with those cells, the last one first. -/
theorem State.deliver_doutReads (s : State) : ∀ {n : Nat}, n ≤ s.cfg.dmax →
    s.deliver (doutReads n) =
      s.withReplies (((s.result n).map Reply.byte).reverse ++ s.replies) := by
  intro n
  induction n with
  | zero => intro _; rfl
  | succ n ih =>
    intro h
    have hreads : doutReads (n + 1) = doutReads n ++ [.read8 (BitVec.ofNat 14 (doutBase + n))] := by
      simp [doutReads, List.range_succ]
    rw [hreads, State.deliver_append, ih (by omega), State.deliver_dout h, State.result_succ,
      List.map_append, List.reverse_append]
    rfl

/-- The bytes that the last reads returned are read back in order. -/
theorem State.lastBytes_of_replies (s : State) (x : List Byte) (rs : List Reply) :
    (s.withReplies ((x.map Reply.byte).reverse ++ rs)).lastBytes x.length = x := by
  have hlen : x.length = ((x.map Reply.byte).reverse).length := by simp
  have hdata : Reply.byteData ∘ Reply.byte = id := rfl
  rw [State.lastBytes, State.withReplies_replies, hlen, List.take_left, List.map_reverse,
    List.reverse_reverse, List.map_map, hdata, List.map_id]

/-- GET returns the result, after the answers of its accesses. -/
theorem State.get_eq {s : State} (h : s.dolen.toNat ≤ s.cfg.dmax) :
    s.get = (s.withReplies (((s.result s.dolen.toNat).map Reply.byte).reverse ++
      .word s.dolen :: s.replies), s.result s.dolen.toNat) := by
  have hdolen : s.deliver [.read32 (BitVec.ofNat 14 dolenOffset)] = s.answer (.word s.dolen) := rfl
  have hdout : (s.answer (.word s.dolen)).deliver (doutReads s.dolen.toNat) =
      s.withReplies (((s.result s.dolen.toNat).map Reply.byte).reverse ++
        .word s.dolen :: s.replies) := (s.answer _).deliver_doutReads h
  have hlast := s.lastBytes_of_replies (s.result s.dolen.toNat) (.word s.dolen :: s.replies)
  rw [State.length_result] at hlast
  simp only [State.get, hdolen, State.lastWord_answer, Reply.wordData, hdout, hlast]

/-- Settles O58: the answers aside, the state after GET is the one before. -/
theorem getReadsResult : Obligations.GetReadsResult := by
  intro s h
  rw [State.get_eq h]
  exact ⟨rfl, _, rfl⟩

end Sys2Proof.Machine

/-!
SUPPORT and the proofs of O23, O24, O25 and O46 (40_hash R135 to R139): the HashEngine commands, and
a message hashed piece by piece.

The idea of O46: on an active context below its bound, one PUT and one HASH_UPDATE absorb the piece
and leave an active context (`State.loaded_hashUpdate`), so the pieces absorb their concatenation.
-/

namespace Sys2Proof.Machine

/-! ### Each command on a context that lets it complete -/

theorem exec_hashInit_completes (alg : HashAlg) (s : State) :
    exec (.hashInit alg) s =
      .next ((s.withHs ⟨.active, alg, ctxInit alg⟩).completed []) := rfl

theorem exec_hashUpdate_completes {s : State} (hlength : s.dlen.toNat ≤ s.cfg.dmax)
    (hactive : s.hs.phase = .active)
    (hlimit : s.hs.ctx.total + s.dlen.toNat < lengthLimit s.hs.alg) :
    exec .hashUpdate s =
      .next ((s.withHs ⟨.active, s.hs.alg,
        ctxAbsorb s.hs.alg s.hs.ctx s.dlenOperand⟩).completed []) := by
  rw [exec_hashUpdate, lengthCheck_eq_none.mpr hlength, phaseCheck_eq_none.mpr hactive,
    limitCheck_eq_none.mpr hlimit, ← hactive]
  rfl

theorem exec_hashFinal_completes {s : State} (hactive : s.hs.phase = .active) :
    exec .hashFinal s =
      .next ((s.withHs ⟨.final, .sha256, HashCtx.zero⟩).completed
        (ctxFinish s.hs.alg s.hs.ctx)) := by
  rw [exec_hashFinal, phaseCheck_eq_none.mpr hactive]
  rfl

/-- What a HashEngine command that completes leaves alone (40_hash R135 to R137). -/
theorem State.withHs_completed_frame (s : State) (u : HashUnit) (out : List Byte) :
    ((s.withHs u).completed out).hm = s.hm ∧ ((s.withHs u).completed out).ck = s.ck ∧
      ((s.withHs u).completed out).cs = s.cs ∧ ((s.withHs u).completed out).dlen = s.dlen ∧
      SamePort s ((s.withHs u).completed out) ∧ OnlyDoutChanged s ((s.withHs u).completed out) :=
  ⟨rfl, rfl, rfl, rfl, ⟨rfl, rfl, rfl⟩, (s.withHs u).completed_onlyDout out⟩

/-- Settles O23: no check stands before HASH_INIT. -/
theorem hashInitCreatesFreshContext : Obligations.HashInitCreatesFreshContext := by
  intro alg s
  have hzero : ∀ b ∈ (ctxInit alg).buf.toList, b = 0 := fun b hb => by
    rw [ctxInit, Vector.toList_replicate] at hb
    exact List.eq_of_mem_replicate hb
  exact ⟨_, exec_hashInit_completes alg s, State.completed_spec _ (Nat.zero_le _),
    rfl, rfl, rfl, hzero, rfl, s.withHs_completed_frame _ _⟩

/-- Settles O24: the three checks of HASH_UPDATE find no error. -/
theorem hashUpdateAbsorbsOperand : Obligations.HashUpdateAbsorbsOperand := by
  intro s hlength hactive hlimit
  exact ⟨_, exec_hashUpdate_completes hlength hactive hlimit,
    State.completed_spec _ (Nat.zero_le _), rfl, s.withHs_completed_frame _ _⟩

/-- Settles O25: the one check of HASH_FINAL finds no error, and the digest fits DOUT. -/
theorem hashFinalGivesDigestAndWipes : Obligations.HashFinalGivesDigestAndWipes := by
  intro s hactive
  have hspec := State.completed_spec (s.withHs ⟨.final, .sha256, HashCtx.zero⟩)
    (length_ctxFinish_le_dmax s s.hs.alg s.hs.ctx)
  exact ⟨_, exec_hashFinal_completes hactive, hspec, hspec.dolen.trans (length_ctxFinish _ _),
    rfl, rfl, rfl, s.withHs_completed_frame _ _⟩

/-! ### One piece, and a list of pieces -/

@[simp] theorem State.fed_nil (i : Instr) (s : State) : s.fed i [] = s := rfl

/-- The first piece, if its command goes on. -/
theorem State.fed_cons {i : Instr} {s t : State} {x : List Byte} (h : exec i (s.loaded x) = .next t)
    (xs : List (List Byte)) : s.fed i (x :: xs) = t.fed i xs := by
  rw [State.fed, List.foldl_cons, h, State.fed]

/-- One PUT and one HASH_UPDATE absorb the piece (40_hash R136). -/
theorem State.loaded_hashUpdate {s : State} {alg : HashAlg} {c : HashCtx} {x : List Byte}
    (hs : s.hs = ⟨.active, alg, c⟩) (hx : x.length ≤ s.cfg.dmax)
    (hlimit : c.total + x.length < lengthLimit alg) :
    ∃ t, exec .hashUpdate (s.loaded x) = .next t ∧ t.cfg = s.cfg ∧
      t.hs = ⟨.active, alg, ctxAbsorb alg c x⟩ := by
  have hu : (s.loaded x).hs = ⟨.active, alg, c⟩ := hs
  have hdlen := State.loaded_dlen_toNat hx
  refine ⟨_, exec_hashUpdate_completes (hdlen.trans_le hx) (by rw [hu]) ?_, rfl, ?_⟩
  · rw [hu, hdlen]
    exact hlimit
  · rw [State.completed_hs, State.withHs_hs, hu, s.loaded_dlenOperand hx]

/-- The pieces absorb their concatenation. -/
theorem State.fed_hashUpdate {alg : HashAlg} (pieces : List (List Byte)) :
    ∀ {s : State} {c : HashCtx}, s.hs = ⟨.active, alg, c⟩ →
      (∀ x ∈ pieces, x.length ≤ s.cfg.dmax) →
      c.total + pieces.flatten.length < lengthLimit alg →
      (s.fed .hashUpdate pieces).cfg = s.cfg ∧
        (s.fed .hashUpdate pieces).hs = ⟨.active, alg, ctxAbsorb alg c pieces.flatten⟩ := by
  induction pieces with
  | nil => intro s c hs _ _; exact ⟨rfl, hs⟩
  | cons x xs ih =>
    intro s c hs hfit hlimit
    rw [List.flatten_cons, List.length_append] at hlimit
    obtain ⟨t, ht, hcfg, hths⟩ := State.loaded_hashUpdate hs (hfit x List.mem_cons_self) (by omega)
    rw [State.fed_cons ht, List.flatten_cons, ctxAbsorb_append, ← hcfg]
    refine ih hths (fun y hy => ?_) ?_
    · rw [hcfg]
      exact hfit y (List.mem_cons_of_mem x hy)
    · rw [ctxAbsorb_total]
      omega

/-- Settles O46: HASH_INIT starts a fresh record, the pieces absorb the message, HASH_FINAL finishes
it. -/
theorem hashOfPiecesIsHashOfMessage : Obligations.HashOfPiecesIsHashOfMessage := by
  intro alg s s1 pieces hfit hlimit hinit
  obtain rfl := Host.Outcome.next.inj ((exec_hashInit_completes alg s).symm.trans hinit)
  obtain ⟨-, hhs⟩ := State.fed_hashUpdate pieces
    (s := (s.withHs ⟨.active, alg, ctxInit alg⟩).completed []) rfl hfit
    (by rwa [ctxInit_total, Nat.zero_add])
  refine ⟨_, exec_hashFinal_completes (by rw [hhs]), ?_⟩
  rw [hhs]
  exact State.completed_spec _ (length_ctxFinish_le_dmax _ alg _)

end Sys2Proof.Machine

/-!
SUPPORT and the proof of O39 (40_hash R133): absorbing byte by byte is absorbing in whole blocks.

The idea: a record is the bytes that wait in it (`HashCtx.pending`) and what it has compressed. One
byte either joins the waiting bytes or completes a block with them (`ctxAbsorbByte_pending`); in
both cases the blocks of "waiting bytes, then message" stay the same.
-/

namespace Sys2Proof.Machine

/-- The bytes that wait for their block to fill: `buf[0 .. r)` (40_hash R133). -/
def HashCtx.pending (alg : HashAlg) (c : HashCtx) : List Byte :=
  c.buf.toList.take (c.total % blockSize alg)

/-- A record whose waiting bytes and new bytes are `y`: the whole blocks of `y` compressed into `h`,
the rest waiting. -/
def absorbBlocks (alg : HashAlg) (h : HashWords 64) (y : List Byte) (total : Nat) : HashCtx :=
  ⟨(blocksOf (blockSize alg) (y.length / blockSize alg) y).foldl (compress alg) h,
    padTo 128 (y.drop (y.length / blockSize alg * blockSize alg)), total⟩

theorem absorbedInBlocks_eq (alg : HashAlg) (c : HashCtx) (x : List Byte) :
    absorbedInBlocks alg c x = absorbBlocks alg c.h (c.pending alg ++ x) (c.total + x.length) := rfl

/-- Less than a block is left waiting. -/
theorem absorbBlocks_of_lt {alg : HashAlg} {y : List Byte} (hy : y.length < blockSize alg)
    (h : HashWords 64) (total : Nat) : absorbBlocks alg h y total = ⟨h, padTo 128 y, total⟩ := by
  rw [absorbBlocks, Nat.div_eq_of_lt hy, Nat.zero_mul, List.drop_zero]
  rfl

/-- A whole block in front is compressed first. -/
theorem absorbBlocks_block {alg : HashAlg} {block : List Byte} (hb : block.length = blockSize alg)
    (h : HashWords 64) (y : List Byte) (total : Nat) :
    absorbBlocks alg h (block ++ y) total = absorbBlocks alg (compress alg h block) y total := by
  have hq : (block ++ y).length / blockSize alg = y.length / blockSize alg + 1 := by
    rw [List.length_append, hb, Nat.add_div_left _ (blockSize_pos alg)]
  have hdrop : (block ++ y).drop ((y.length / blockSize alg + 1) * blockSize alg) =
      y.drop (y.length / blockSize alg * blockSize alg) := by
    rw [Nat.succ_mul, Nat.add_comm, ← hb, List.drop_length_add_append]
  rw [absorbBlocks, hq, hdrop, blocksOf, ← hb, List.take_left, List.drop_left, hb]
  rfl

/-! ### The waiting bytes -/

theorem mod_blockSize_lt (alg : HashAlg) (n : Nat) : n % blockSize alg < blockSize alg :=
  Nat.mod_lt n (blockSize_pos alg)

theorem length_pending (alg : HashAlg) (c : HashCtx) :
    (c.pending alg).length = c.total % blockSize alg := by
  have hlt := mod_blockSize_lt alg c.total
  have hle := blockSize_le alg
  rw [HashCtx.pending, List.length_take, Vector.length_toList]
  omega

/-- A clear buffer is its waiting bytes, zeros above them. -/
theorem HashCtx.Clear.buf_eq_padTo {alg : HashAlg} {c : HashCtx} (h : c.Clear alg) :
    c.buf = padTo 128 (c.pending alg) := by
  refine Vector.toList_inj.mp (List.ext_getElem (by simp) fun i hi hi' => ?_)
  have hi128 : i < 128 := by simpa using hi
  rw [← List.getD_eq_getElem _ 0 hi, ← List.getD_eq_getElem _ 0 hi', padTo_getD _ hi128]
  by_cases hr : i < c.total % blockSize alg
  · rw [HashCtx.pending, List.getD_eq_getElem?_getD, List.getD_eq_getElem?_getD,
      List.getElem?_take_of_lt hr]
  · rw [h i (by omega) hi128, List.getD_eq_default _ _ (by rw [length_pending]; omega)]

/-- The first bytes of the buffer, once a byte has entered behind the waiting ones. -/
theorem take_buf_after_byte (alg : HashAlg) (c : HashCtx) (b : Byte) :
    (c.buf.setIfInBounds (c.total % blockSize alg) b).toList.take (c.total % blockSize alg + 1) =
      c.pending alg ++ [b] := by
  have hlt := mod_blockSize_lt alg c.total
  have hle := blockSize_le alg
  rw [Vector.toList_setIfInBounds, List.take_add_one, List.getElem?_set_self (by simp; omega),
    List.take_set_of_le le_rfl, HashCtx.pending]
  rfl

/-- One more byte either leaves its block short or completes it. -/
theorem succ_mod_blockSize (alg : HashAlg) (n : Nat) :
    (n + 1) % blockSize alg =
      if n % blockSize alg + 1 = blockSize alg then 0 else n % blockSize alg + 1 := by
  have hlt := mod_blockSize_lt alg n
  rw [← Nat.mod_add_mod]
  split
  · next h => rw [h, Nat.mod_self]
  · next h => exact Nat.mod_eq_of_lt (by omega)

/-- One byte joins the waiting ones, or completes a block with them, which is compressed. -/
theorem ctxAbsorbByte_pending (alg : HashAlg) (c : HashCtx) (b : Byte) :
    (c.total % blockSize alg + 1 < blockSize alg ∧ (ctxAbsorbByte alg c b).h = c.h ∧
        (ctxAbsorbByte alg c b).pending alg = c.pending alg ++ [b]) ∨
      (c.total % blockSize alg + 1 = blockSize alg ∧
        (ctxAbsorbByte alg c b).h = compress alg c.h (c.pending alg ++ [b]) ∧
        (ctxAbsorbByte alg c b).pending alg = []) := by
  have hlt := mod_blockSize_lt alg c.total
  have hmod := succ_mod_blockSize alg c.total
  have htake := take_buf_after_byte alg c b
  by_cases hfull : c.total % blockSize alg + 1 = blockSize alg
  · rw [if_pos hfull] at hmod
    rw [hfull] at htake
    refine .inr ⟨hfull, ?_, ?_⟩
    · rw [ctxAbsorbByte]
      simp only [hmod, if_true, htake]
    · rw [HashCtx.pending, ctxAbsorbByte_total, hmod, List.take_zero]
  · rw [if_neg hfull] at hmod
    refine .inl ⟨by omega, ?_, ?_⟩
    · rw [ctxAbsorbByte]
      simp only [hmod, Nat.succ_ne_zero, if_false]
    · rw [HashCtx.pending, ctxAbsorbByte_total, ctxAbsorbByte]
      simp only [hmod, Nat.succ_ne_zero, if_false, htake]

/-! ### Byte by byte and block by block -/

theorem absorbedInBlocks_nil {alg : HashAlg} {c : HashCtx} (h : c.Clear alg) :
    absorbedInBlocks alg c [] = c := by
  rw [absorbedInBlocks_eq, List.append_nil,
    absorbBlocks_of_lt (by rw [length_pending]; exact mod_blockSize_lt alg _), ← h.buf_eq_padTo]
  rfl

/-- Absorbing the first byte first does not change the blocks. -/
theorem absorbedInBlocks_cons (alg : HashAlg) (c : HashCtx) (b : Byte) (x : List Byte) :
    absorbedInBlocks alg c (b :: x) = absorbedInBlocks alg (ctxAbsorbByte alg c b) x := by
  have hy : c.pending alg ++ b :: x = (c.pending alg ++ [b]) ++ x := by simp
  have htotal : c.total + (b :: x).length = c.total + 1 + x.length := by
    rw [List.length_cons]
    omega
  rw [absorbedInBlocks_eq, absorbedInBlocks_eq, ctxAbsorbByte_total, hy, htotal]
  obtain ⟨-, hwords, hpending⟩ | ⟨hfull, hwords, hpending⟩ := ctxAbsorbByte_pending alg c b
  · rw [hwords, hpending]
  · rw [hwords, hpending, List.nil_append,
      absorbBlocks_block (by rw [List.length_append, length_pending]; exact hfull)]

/-- Settles O39, by induction on the bytes absorbed. -/
theorem absorbEqualsBlockwiseCompression : Obligations.AbsorbEqualsBlockwiseCompression := by
  intro alg c x
  induction x generalizing c with
  | nil => exact fun hclear => (absorbedInBlocks_nil hclear).symm
  | cons b x ih =>
    intro hclear
    rw [ctxAbsorb_cons, absorbedInBlocks_cons]
    exact ih _ (ctxAbsorbByte_clear b hclear)

end Sys2Proof.Machine

/-!
SUPPORT and the proof of O40 (40_hash R134): the padding fills up the last block, or that one and
one more.
-/

namespace Sys2Proof.Machine

theorem length_ctxPadding (alg : HashAlg) (c : HashCtx) :
    (ctxPadding alg c).length =
      (blockSize alg - suffixSize alg - 1 + blockSize alg - c.total % blockSize alg) %
        blockSize alg + suffixSize alg + 1 := by
  simp [ctxPadding]

/-- The waiting bytes and the padding make one block if the suffix still fits, and two otherwise. -/
theorem fill_add_length_ctxPadding (alg : HashAlg) (c : HashCtx) :
    c.total % blockSize alg + (ctxPadding alg c).length =
      if c.total % blockSize alg ≤ blockSize alg - suffixSize alg - 1 then blockSize alg
      else 2 * blockSize alg := by
  have hlt := mod_blockSize_lt alg c.total
  rw [length_ctxPadding]
  split
  · next hfits => cases alg <;> simp only [blockSize, suffixSize] at hfits ⊢ <;> omega
  · next hspills => cases alg <;> simp only [blockSize, suffixSize] at hlt hspills ⊢ <;> omega

/-- The padding ends on a block boundary. -/
theorem ctxAbsorb_ctxPadding_total (alg : HashAlg) (c : HashCtx) :
    (ctxAbsorb alg c (ctxPadding alg c)).total % blockSize alg = 0 := by
  rw [ctxAbsorb_total, ← Nat.mod_add_mod, fill_add_length_ctxPadding]
  split
  · exact Nat.mod_self _
  · exact Nat.mul_mod_left _ _

/-- A byte that completes a block leaves an empty buffer. -/
theorem ctxAbsorbByte_buf_zero {alg : HashAlg} {c : HashCtx} {b : Byte}
    (h : (ctxAbsorbByte alg c b).total % blockSize alg = 0) :
    (ctxAbsorbByte alg c b).buf = Vector.replicate 128 0 := by
  rw [ctxAbsorbByte_total] at h
  rw [ctxAbsorbByte]
  simp only [h, if_true]

/-- Whatever the buffer held, it is empty when the bytes absorbed end on a block boundary. -/
theorem ctxAbsorb_buf_zero {alg : HashAlg} {c : HashCtx} {x : List Byte} (hx : x ≠ [])
    (h : (ctxAbsorb alg c x).total % blockSize alg = 0) :
    (ctxAbsorb alg c x).buf = Vector.replicate 128 0 := by
  obtain rfl | ⟨init, last, rfl⟩ := List.eq_nil_or_concat' x
  · exact absurd rfl hx
  · rw [ctxAbsorb_append] at h ⊢
    exact ctxAbsorbByte_buf_zero h

/-- The last L bytes of the padding are the suffix. -/
theorem drop_ctxPadding (alg : HashAlg) (c : HashCtx) :
    (ctxPadding alg c).drop ((ctxPadding alg c).length - suffixSize alg) =
      bytesBE (8 * c.total) (suffixSize alg) := by
  obtain ⟨front, hsplit⟩ :
      ∃ front, ctxPadding alg c = front ++ bytesBE (8 * c.total) (suffixSize alg) :=
    ⟨_, (List.cons_append ..).symm⟩
  rw [hsplit, List.length_append, length_bytesBE, Nat.add_sub_cancel, List.drop_left]

/-- The bit length of a message below the bound fits the suffix (40_hash R121). -/
theorem eight_mul_lengthLimit (alg : HashAlg) : 8 * lengthLimit alg = 256 ^ suffixSize alg := by
  cases alg <;> rfl

/-- Settles O40: the padding makes whole blocks, and its end is the bit length, which fits there. -/
theorem paddingEndsOnBlockBoundary : Obligations.PaddingEndsOnBlockBoundary := by
  intro alg c
  have htotal := ctxAbsorb_ctxPadding_total alg c
  refine ⟨fill_add_length_ctxPadding alg c, htotal,
    ctxAbsorb_buf_zero (List.cons_ne_nil _ _) htotal, fun hlimit => ?_, length_ctxFinish alg c⟩
  have hfits := eight_mul_lengthLimit alg
  rw [drop_ctxPadding, be_bytesBE, Nat.mod_eq_of_lt (by omega)]

end Sys2Proof.Machine

/-!
SUPPORT and the proof of O41 (40_hash R125, R131): the message schedule.

The schedule is built newest word first, so the recurrence is first shown there, where `W[t - k]` is
the word k places further on, and then read from the other end.
-/

namespace Sys2Proof.Machine

/-- The word that the schedule puts before `ws` (40_hash R125, R131). -/
def nextScheduleWord {w : Nat} (p : CompressionParams w) (ws : List (BitVec w)) : BitVec w :=
  p.smallSigma1 (ws.getD 1 0) + ws.getD 6 0 + p.smallSigma0 (ws.getD 14 0) + ws.getD 15 0

theorem extendSchedule_succ {w : Nat} (p : CompressionParams w) (n : Nat) (ws : List (BitVec w)) :
    extendSchedule p (n + 1) ws = extendSchedule p n (nextScheduleWord p ws :: ws) := rfl

@[simp] theorem length_extendSchedule {w : Nat} (p : CompressionParams w) (n : Nat) :
    ∀ ws : List (BitVec w), (extendSchedule p n ws).length = n + ws.length := by
  induction n with
  | zero => intro ws; simp [extendSchedule]
  | succ n ih => intro ws; rw [extendSchedule_succ, ih, List.length_cons]; omega

/-- The words given stand behind the new ones. -/
theorem drop_extendSchedule {w : Nat} (p : CompressionParams w) (n : Nat) :
    ∀ ws : List (BitVec w), (extendSchedule p n ws).drop n = ws := by
  induction n with
  | zero => intro ws; rfl
  | succ n ih => intro ws; rw [extendSchedule_succ, ← List.drop_drop, ih]; rfl

/-- Every new word is made from those behind it. -/
theorem extendSchedule_getD {w : Nat} (p : CompressionParams w) {n i : Nat} :
    ∀ {ws : List (BitVec w)}, i < n →
      (extendSchedule p n ws).getD i 0 =
        nextScheduleWord p ((extendSchedule p n ws).drop (i + 1)) := by
  induction n with
  | zero => intro ws h; omega
  | succ n ih =>
    intro ws h
    rw [extendSchedule_succ]
    by_cases hi : i < n
    · exact ih hi
    · obtain rfl : i = n := by omega
      have hdrop := drop_extendSchedule p i (nextScheduleWord p ws :: ws)
      rw [List.getD_eq_getElem?_getD, ← List.head?_drop, ← List.drop_drop, hdrop]
      rfl

theorem length_messageSchedule {w : Nat} (p : CompressionParams w) {m : List (BitVec w)}
    (hm : m.length = 16) (hp : 16 ≤ p.constants.length) :
    (messageSchedule p m).length = p.constants.length := by
  rw [messageSchedule, List.length_reverse, length_extendSchedule, List.length_reverse, hm]
  omega

/-- The schedule begins with the words of the block. -/
theorem messageSchedule_take {w : Nat} (p : CompressionParams w) {m : List (BitVec w)}
    (hm : m.length = 16) : (messageSchedule p m).take 16 = m := by
  rw [messageSchedule, List.take_reverse, length_extendSchedule, List.length_reverse, hm,
    Nat.add_sub_cancel, drop_extendSchedule, List.reverse_reverse]

/-- Word t counted from the oldest is word `rounds - 1 - t` counted from the newest. -/
theorem messageSchedule_getD {w : Nat} (p : CompressionParams w) {m : List (BitVec w)} {t : Nat}
    (hm : m.length = 16) (hp : 16 ≤ p.constants.length) (ht : t < p.constants.length) :
    (messageSchedule p m).getD t 0 =
      (extendSchedule p (p.constants.length - 16) m.reverse).getD
        (p.constants.length - 1 - t) 0 := by
  have hlength := length_messageSchedule p hm hp
  rw [messageSchedule, List.length_reverse] at hlength
  rw [messageSchedule, List.getD_reverse _ (by rwa [hlength]), hlength]

/-- The recurrence of the schedule, for any variant (40_hash R125, R131). -/
theorem messageSchedule_recurrence {w : Nat} (p : CompressionParams w) {m : List (BitVec w)}
    {t : Nat} (hm : m.length = 16) (ht : 16 ≤ t) (htp : t < p.constants.length) :
    (messageSchedule p m).getD t 0 =
      p.smallSigma1 ((messageSchedule p m).getD (t - 2) 0) + (messageSchedule p m).getD (t - 7) 0 +
        p.smallSigma0 ((messageSchedule p m).getD (t - 15) 0) +
        (messageSchedule p m).getD (t - 16) 0 := by
  have hp : 16 ≤ p.constants.length := by omega
  have hback : ∀ k, k < 16 → (messageSchedule p m).getD (t - (k + 1)) 0 =
      ((extendSchedule p (p.constants.length - 16) m.reverse).drop
        (p.constants.length - 1 - t + 1)).getD k 0 := fun k hk => by
    rw [messageSchedule_getD p hm hp (by omega), List.getD_eq_getElem?_getD,
      List.getD_eq_getElem?_getD, List.getElem?_drop]
    congr 2
    omega
  rw [messageSchedule_getD p hm hp htp, extendSchedule_getD p (by omega), nextScheduleWord,
    hback 1 (by norm_num), hback 6 (by norm_num), hback 14 (by norm_num), hback 15 (by norm_num)]

/-- Settles O41: both variants are the one schedule, with their own sigma functions and number of
rounds. -/
theorem messageScheduleSatisfiesRecurrence : Obligations.MessageScheduleSatisfiesRecurrence := by
  refine ⟨fun m hm => ⟨?_, messageSchedule_take params256 hm, fun t ht ht' => ?_⟩,
    fun m hm => ⟨?_, messageSchedule_take params512 hm, fun t ht ht' => ?_⟩⟩
  · exact length_messageSchedule params256 hm (by decide)
  · exact messageSchedule_recurrence params256 hm ht ht'
  · exact length_messageSchedule params512 hm (by decide)
  · exact messageSchedule_recurrence params512 hm ht ht'

end Sys2Proof.Machine

/-!
SUPPORT and the proofs of O45, O26, O27, O28 and O47 (41_hmac R160 to R165): the key rule, the
HmacEngine commands, and a message authenticated piece by piece.

The idea of O47: HMAC_INIT leaves each record where a hash stands after its pad (R160). The pieces
carry the inner one on to the end of the message, and HMAC_FINAL feeds its digest to the outer one.
So the two finishes are the two hashes of HMAC(alg, K, M).
-/

namespace Sys2Proof.Machine

/-! ### The key rule (41_hmac R161) -/

theorem normalizedKey_of_long {alg : HashAlg} {key : List Byte} (h : blockSize alg < key.length) :
    normalizedKey alg key =
      hashOf alg key ++ List.replicate (blockSize alg - digestSize alg) 0 := by
  rw [normalizedKey, if_pos h, length_hashOf]

theorem normalizedKey_of_fits {alg : HashAlg} {key : List Byte} (h : key.length ≤ blockSize alg) :
    normalizedKey alg key = key ++ List.replicate (blockSize alg - key.length) 0 := by
  rw [normalizedKey, if_neg (by omega)]

/-- Settles O45: a key longer than a block is hashed, any other is kept; both are padded. -/
theorem normalizedKeyFollowsKeyRule : Obligations.NormalizedKeyFollowsKeyRule := fun alg key =>
  ⟨length_normalizedKey alg key, normalizedKey_of_long, normalizedKey_of_fits⟩

/-! ### A record seeded with a pad block (41_hmac R162) -/

theorem ctxInit_pending (alg : HashAlg) : (ctxInit alg).pending alg = [] := by
  rw [HashCtx.pending, ctxInit_total, Nat.zero_mod, List.take_zero]

/-- A fresh record that absorbs one block compresses exactly that block. -/
theorem ctxAbsorb_ctxInit_block {alg : HashAlg} {pad : List Byte}
    (h : pad.length = blockSize alg) :
    ctxAbsorb alg (ctxInit alg) pad =
      ⟨compress alg (initialWords alg) pad, Vector.replicate 128 0, blockSize alg⟩ :=
  calc ctxAbsorb alg (ctxInit alg) pad
      = absorbedInBlocks alg (ctxInit alg) pad :=
        absorbEqualsBlockwiseCompression alg _ pad (ctxInit_clear alg)
    _ = absorbBlocks alg (initialWords alg) (pad ++ []) (blockSize alg) := by
        rw [absorbedInBlocks_eq, ctxInit_pending, ctxInit_total, h, List.nil_append,
          List.append_nil, Nat.zero_add]
        rfl
    _ = ⟨compress alg (initialWords alg) pad, padTo 128 [], blockSize alg⟩ := by
        rw [absorbBlocks_block h, absorbBlocks_of_lt (y := []) (blockSize_pos alg)]
    _ = ⟨compress alg (initialWords alg) pad, Vector.replicate 128 0, blockSize alg⟩ := rfl

/-! ### Each command on a context that lets it complete -/

theorem exec_hmacInit_completes (alg : HashAlg) {s : State} (h : s.dlen.toNat ≤ s.cfg.dmax) :
    exec (.hmacInit alg) s =
      .next ((s.withHm ⟨.active, alg, ctxAbsorb alg (ctxInit alg) (innerPad alg s.dlenOperand),
        ctxAbsorb alg (ctxInit alg) (outerPad alg s.dlenOperand)⟩).wipeDin.completed []) := by
  rw [exec_hmacInit, lengthCheck_eq_none.mpr h]
  rfl

theorem exec_hmacUpdate_completes {s : State} (hlength : s.dlen.toNat ≤ s.cfg.dmax)
    (hactive : s.hm.phase = .active)
    (hlimit : s.hm.inner.total + s.dlen.toNat < lengthLimit s.hm.alg) :
    exec .hmacUpdate s =
      .next ((s.withHm ⟨.active, s.hm.alg, ctxAbsorb s.hm.alg s.hm.inner s.dlenOperand,
        s.hm.outer⟩).completed []) := by
  rw [exec_hmacUpdate, lengthCheck_eq_none.mpr hlength, phaseCheck_eq_none.mpr hactive,
    limitCheck_eq_none.mpr hlimit, ← hactive]
  rfl

theorem exec_hmacFinal_completes {s : State} (hactive : s.hm.phase = .active) :
    exec .hmacFinal s =
      .next ((s.withHm ⟨.final, .sha256, HashCtx.zero, HashCtx.zero⟩).completed
        (ctxFinish s.hm.alg
          (ctxAbsorb s.hm.alg s.hm.outer (ctxFinish s.hm.alg s.hm.inner)))) := by
  rw [exec_hmacFinal, phaseCheck_eq_none.mpr hactive]
  rfl

/-- What an HMAC_UPDATE or an HMAC_FINAL that completes leaves alone (41_hmac R163, R164). -/
theorem State.withHm_completed_frame (s : State) (u : HmacUnit) (out : List Byte) :
    ((s.withHm u).completed out).hs = s.hs ∧ ((s.withHm u).completed out).ck = s.ck ∧
      ((s.withHm u).completed out).cs = s.cs ∧ ((s.withHm u).completed out).dlen = s.dlen ∧
      SamePort s ((s.withHm u).completed out) ∧ OnlyDoutChanged s ((s.withHm u).completed out) :=
  ⟨rfl, rfl, rfl, rfl, ⟨rfl, rfl, rfl⟩, (s.withHm u).completed_onlyDout out⟩

/-- Settles O26: the one check of HMAC_INIT finds no error, and each record absorbs one block. -/
theorem hmacInitSeedsBothRecordsAndWipesKey : Obligations.HmacInitSeedsBothRecordsAndWipesKey := by
  intro alg s h
  exact ⟨_, exec_hmacInit_completes alg h, State.completed_spec _ (Nat.zero_le _), rfl, rfl,
    ctxAbsorb_ctxInit_block (length_innerPad alg _),
    ctxAbsorb_ctxInit_block (length_outerPad alg _), rfl, rfl, rfl, rfl, ⟨rfl, rfl, rfl⟩,
    (s.withHm _).wipeDin_completed_dinWiped []⟩

/-- Settles O27: the three checks of HMAC_UPDATE find no error. -/
theorem hmacUpdateAbsorbsIntoInner : Obligations.HmacUpdateAbsorbsIntoInner := by
  intro s hlength hactive hlimit
  exact ⟨_, exec_hmacUpdate_completes hlength hactive hlimit,
    State.completed_spec _ (Nat.zero_le _), rfl, s.withHm_completed_frame _ _⟩

/-- Settles O28: the one check of HMAC_FINAL finds no error, and the tag fits DOUT. -/
theorem hmacFinalGivesTagAndWipes : Obligations.HmacFinalGivesTagAndWipes := by
  intro s hactive
  have hspec := State.completed_spec (s.withHm ⟨.final, .sha256, HashCtx.zero, HashCtx.zero⟩)
    (length_ctxFinish_le_dmax s s.hm.alg
      (ctxAbsorb s.hm.alg s.hm.outer (ctxFinish s.hm.alg s.hm.inner)))
  exact ⟨_, exec_hmacFinal_completes hactive, hspec, hspec.dolen.trans (length_ctxFinish _ _),
    rfl, rfl, rfl, rfl, s.withHm_completed_frame _ _⟩

/-! ### One piece, and a list of pieces -/

/-- One PUT and one HMAC_UPDATE absorb the piece into the inner record (41_hmac R163). -/
theorem State.loaded_hmacUpdate {s : State} {alg : HashAlg} {inner outer : HashCtx}
    {x : List Byte} (hm : s.hm = ⟨.active, alg, inner, outer⟩) (hx : x.length ≤ s.cfg.dmax)
    (hlimit : inner.total + x.length < lengthLimit alg) :
    ∃ t, exec .hmacUpdate (s.loaded x) = .next t ∧ t.cfg = s.cfg ∧
      t.hm = ⟨.active, alg, ctxAbsorb alg inner x, outer⟩ := by
  have hu : (s.loaded x).hm = ⟨.active, alg, inner, outer⟩ := hm
  have hdlen := State.loaded_dlen_toNat hx
  refine ⟨_, exec_hmacUpdate_completes (hdlen.trans_le hx) (by rw [hu]) ?_, rfl, ?_⟩
  · rw [hu, hdlen]
    exact hlimit
  · rw [State.completed_hm, State.withHm_hm, hu, s.loaded_dlenOperand hx]

/-- A command that absorbs the piece it is given, below the bound, absorbs the concatenation of the
pieces. `holds c s` says where in the state `s` the record `c` stands. -/
theorem State.fed_absorbs {i : Instr} {alg : HashAlg} {holds : HashCtx → State → Prop}
    (habsorb : ∀ {s : State} {c : HashCtx} {x : List Byte}, holds c s → x.length ≤ s.cfg.dmax →
      c.total + x.length < lengthLimit alg →
      ∃ t, exec i (s.loaded x) = .next t ∧ t.cfg = s.cfg ∧ holds (ctxAbsorb alg c x) t)
    (pieces : List (List Byte)) :
    ∀ {s : State} {c : HashCtx}, holds c s → (∀ x ∈ pieces, x.length ≤ s.cfg.dmax) →
      c.total + pieces.flatten.length < lengthLimit alg →
      holds (ctxAbsorb alg c pieces.flatten) (s.fed i pieces) := by
  induction pieces with
  | nil => intro s c hc _ _; exact hc
  | cons x xs ih =>
    intro s c hc hfit hlimit
    obtain ⟨hx, hxs⟩ := List.forall_mem_cons.mp hfit
    rw [List.flatten_cons, List.length_append, ← Nat.add_assoc] at hlimit
    obtain ⟨t, ht, hcfg, hct⟩ := habsorb hc hx (by omega)
    rw [State.fed_cons ht, List.flatten_cons, ctxAbsorb_append]
    exact ih hct (by rwa [hcfg]) (by rwa [ctxAbsorb_total])

/-- The pieces bring their concatenation into the inner record. -/
theorem State.fed_hmacUpdate {s : State} {alg : HashAlg} {inner outer : HashCtx}
    {pieces : List (List Byte)} (hm : s.hm = ⟨.active, alg, inner, outer⟩)
    (hfit : ∀ x ∈ pieces, x.length ≤ s.cfg.dmax)
    (hlimit : inner.total + pieces.flatten.length < lengthLimit alg) :
    (s.fed .hmacUpdate pieces).hm =
      ⟨.active, alg, ctxAbsorb alg inner pieces.flatten, outer⟩ :=
  State.fed_absorbs (holds := fun c s => s.hm = ⟨.active, alg, c, outer⟩)
    State.loaded_hmacUpdate pieces hm hfit hlimit

/-! ### The tag -/

/-- The two hashes of an HMAC, each carried on from its pad (41_hmac R160). -/
theorem hmacOf_eq_ctxFinish (alg : HashAlg) (key m : List Byte) :
    hmacOf alg key m =
      ctxFinish alg (ctxAbsorb alg (ctxAbsorb alg (ctxInit alg) (outerPad alg key))
        (ctxFinish alg (ctxAbsorb alg (ctxAbsorb alg (ctxInit alg) (innerPad alg key)) m))) := by
  rw [hmacOf, hashOf, hashOf, ctxAbsorb_append, ctxAbsorb_append]

/-- PUT K and HMAC_INIT leave both records where a hash stands after its pad (41_hmac R162). -/
theorem State.loaded_hmacInit {s s1 : State} {alg : HashAlg} {key : List Byte}
    (hkey : key.length ≤ s.cfg.dmax) (h : exec (.hmacInit alg) (s.loaded key) = .next s1) :
    s1.cfg = s.cfg ∧
      s1.hm = ⟨.active, alg, ctxAbsorb alg (ctxInit alg) (innerPad alg key),
        ctxAbsorb alg (ctxInit alg) (outerPad alg key)⟩ := by
  have hinit := exec_hmacInit_completes alg (s := s.loaded key)
    ((State.loaded_dlen_toNat hkey).trans_le hkey)
  obtain rfl := Host.Outcome.next.inj (hinit.symm.trans h)
  rw [s.loaded_dlenOperand hkey]
  exact ⟨rfl, rfl⟩

/-- Settles O47: HMAC_INIT seeds the records with the pads, the pieces bring the message into the
inner one, HMAC_FINAL finishes both. -/
theorem hmacOfPiecesIsHmacOfMessage : Obligations.HmacOfPiecesIsHmacOfMessage := by
  intro alg s s1 key pieces hkey hfit hlimit hinit
  obtain ⟨hcfg, hseeded⟩ := State.loaded_hmacInit hkey hinit
  have hfed := State.fed_hmacUpdate hseeded (by rwa [hcfg])
    (by rwa [ctxAbsorb_total, ctxInit_total, length_innerPad, Nat.zero_add])
  refine ⟨_, exec_hmacFinal_completes (by rw [hfed]), ?_⟩
  rw [hfed, hmacOf_eq_ctxFinish]
  exact State.completed_spec _ (length_ctxFinish_le_dmax _ alg _)

end Sys2Proof.Machine

/-!
SUPPORT and the proof of O42 (42_aes R184 to R186): the key expansion.

As for the message schedule, the words are built newest first. The recurrence is first shown there,
where `w[i - k]` is the word k places further on, and then read from the other end.
-/

namespace Sys2Proof.Machine

/-- The word w[i] that the expansion puts before `ws` (42_aes R186). -/
def nextKeyWord (nk i : Nat) (ws : List Word) : Word :=
  ws.getD (nk - 1) 0 ^^^ expansionTerm nk i (ws.getD 0 0)

theorem expandFrom_succ (nk n i : Nat) (ws : List Word) :
    expandFrom nk (n + 1) i ws = expandFrom nk n (i + 1) (nextKeyWord nk i ws :: ws) := rfl

/-- The words given stand behind the new ones. -/
theorem drop_expandFrom (nk n i : Nat) (ws : List Word) : (expandFrom nk n i ws).drop n = ws := by
  obtain ⟨new, hlength, happend⟩ := expandFrom_suffix nk n i ws
  rw [happend, ← hlength, List.drop_left]

/-- Every new word is made from those behind it. -/
theorem expandFrom_getD {nk n j : Nat} : ∀ {i : Nat} {ws : List Word}, j < n →
    (expandFrom nk n i ws).getD j 0 =
      nextKeyWord nk (i + (n - 1 - j)) ((expandFrom nk n i ws).drop (j + 1)) := by
  induction n with
  | zero => intro i ws h; omega
  | succ n ih =>
    intro i ws h
    rw [expandFrom_succ]
    by_cases hj : j < n
    · rw [ih hj]
      congr 1
      omega
    · obtain rfl : j = n := by omega
      have hdrop := drop_expandFrom nk j (i + 1) (nextKeyWord nk i ws :: ws)
      rw [List.getD_eq_getElem?_getD, ← List.head?_drop, ← List.drop_drop, hdrop,
        Nat.add_sub_cancel, Nat.sub_self]
      rfl

/-- Word t counted from the oldest is word `4 * (nk + 7) - 1 - t` counted from the newest. -/
theorem keyExpansion_getD {nk t : Nat} (key : List Byte) (hnk : nk ≤ 8) (ht : t < 4 * (nk + 7)) :
    (keyExpansion nk key).getD t 0 =
      (expandFrom nk (4 * (nk + 7) - nk) nk (wordsBE 32 4 nk key).reverse).getD
        (4 * (nk + 7) - 1 - t) 0 := by
  have hlength := length_keyExpansion hnk key
  rw [keyExpansion, List.length_reverse] at hlength
  rw [keyExpansion, List.getD_reverse _ (by rwa [hlength]), hlength]

/-- The first Nk words are those of the key. -/
theorem keyExpansion_getD_key {nk i : Nat} (key : List Byte) (hi : i < nk) :
    ((keyExpansion nk key).getD i 0).toNat = be ((key.drop (4 * i)).take 4) := by
  have hword : (keyExpansion nk key)[i]? =
      some (BitVec.ofNat 32 (be ((key.drop (4 * i)).take 4))) := by
    rw [← List.getElem?_take_of_lt hi, keyExpansion_take, wordsBE_getElem? 32 4 hi]
  have hlt : be ((key.drop (4 * i)).take 4) < 2 ^ 32 :=
    calc be ((key.drop (4 * i)).take 4)
        < 256 ^ ((key.drop (4 * i)).take 4).length := be_lt _
      _ ≤ 256 ^ 4 := Nat.pow_le_pow_right (by decide) (List.length_take_le 4 _)
  rw [List.getD_eq_getElem?_getD, hword, Option.getD_some, BitVec.toNat_ofNat, Nat.mod_eq_of_lt hlt]

/-- Every later word is the one Nk places before it and the term made from its predecessor. -/
theorem keyExpansion_recurrence {nk t : Nat} (key : List Byte) (hpos : 0 < nk) (hnk : nk ≤ 8)
    (ht : nk ≤ t) (ht' : t < 4 * (nk + 7)) :
    (keyExpansion nk key).getD t 0 =
      (keyExpansion nk key).getD (t - nk) 0 ^^^
        expansionTerm nk t ((keyExpansion nk key).getD (t - 1) 0) := by
  have hback : ∀ k, k < nk → (keyExpansion nk key).getD (t - (k + 1)) 0 =
      ((expandFrom nk (4 * (nk + 7) - nk) nk (wordsBE 32 4 nk key).reverse).drop
        (4 * (nk + 7) - 1 - t + 1)).getD k 0 := fun k hk => by
    rw [keyExpansion_getD key hnk (by omega), List.getD_eq_getElem?_getD,
      List.getD_eq_getElem?_getD, List.getElem?_drop]
    congr 2
    omega
  have hindex : nk + (4 * (nk + 7) - nk - 1 - (4 * (nk + 7) - 1 - t)) = t := by omega
  have hoffset : nk - 1 + 1 = nk := by omega
  rw [keyExpansion_getD key hnk ht', expandFrom_getD (by omega), hindex, nextKeyWord,
    ← hback 0 hpos, ← hback (nk - 1) (by omega), hoffset]

/-- The round constant stands in the first byte of its word. -/
theorem setWidth_shiftLeft_24 (b : Byte) :
    b.setWidth 32 <<< 24 = BitVec.ofNat 32 (b.toNat * 2 ^ 24) := by
  have hb := b.isLt
  refine BitVec.eq_of_toNat_eq ?_
  rw [BitVec.toNat_shiftLeft, BitVec.toNat_setWidth, BitVec.toNat_ofNat, Nat.shiftLeft_eq,
    Nat.mod_eq_of_lt (a := b.toNat) (by omega)]

/-- Settles O42: the recurrence of the expansion, with the round constant as a product. -/
theorem keyExpansionSatisfiesRecurrence : Obligations.KeyExpansionSatisfiesRecurrence := by
  intro nk key hsize _
  have hpos : 0 < nk := by omega
  have hnk : nk ≤ 8 := by omega
  refine ⟨length_keyExpansion hnk key, fun i => keyExpansion_getD_key key, fun i hi hi' => ?_⟩
  rw [keyExpansion_recurrence key hpos hnk hi hi', expansionTerm, setWidth_shiftLeft_24]
  rfl

end Sys2Proof.Machine

/-!
SUPPORT and the proof of O43 (42_aes R182, R187 to R191): for a fixed schedule the cipher is a
permutation of the blocks.

Each of the four layers is one, and permutations compose. ShiftRows and MixColumns give the block
back when applied four times, AddRoundKey when applied twice, and SubBytes is, byte by byte, a table
that has an inverse. For MixColumns, two applications add to each byte of a column four times (in the
field) the sum of it and its opposite byte, and do not change that sum; so two more add the same
again.
-/

namespace Sys2Proof.Machine

/-! ### The field (42_aes R182) -/

theorem byte_xor_left_comm (a b c : Byte) : a ^^^ (b ^^^ c) = b ^^^ (a ^^^ c) := by
  rw [← BitVec.xor_assoc, BitVec.xor_comm a, BitVec.xor_assoc]

theorem byte_xor_cancel_left (a b : Byte) : a ^^^ (a ^^^ b) = b := by
  rw [← BitVec.xor_assoc, BitVec.xor_self, BitVec.zero_xor]

theorem byte_xor_cancel_right (a b : Byte) : a ^^^ b ^^^ b = a := by
  rw [BitVec.xor_assoc, BitVec.xor_self, BitVec.xor_zero]

/-- `xtime` as a shift and the reduction of the bit shifted out. -/
theorem xtime_eq (a : Byte) : xtime a = a <<< 1 ^^^ if a.msb then 0x1B#8 else 0#8 := by
  have hdouble : (2 : Byte) * a = a <<< 1 := BitVec.eq_of_toNat_eq (by
    rw [BitVec.toNat_mul, BitVec.toNat_shiftLeft, Nat.shiftLeft_eq, Nat.mul_comm]
    rfl)
  have hmsb : a < 0x80 ↔ ¬ a.msb = true := by
    rw [BitVec.msb_eq_decide, decide_eq_true_eq, Nat.not_le]
    rfl
  by_cases h : a.msb = true
  · rw [xtime, if_neg (hmsb.not_left.mpr h), hdouble, if_pos h]
    rfl
  · rw [xtime, if_pos (hmsb.mpr h), hdouble, if_neg h, BitVec.xor_zero]

/-- Multiplication by x distributes over the sum of the field. -/
theorem xtime_xor (a b : Byte) : xtime (a ^^^ b) = xtime a ^^^ xtime b := by
  rw [xtime_eq, xtime_eq, xtime_eq, BitVec.shiftLeft_xor_distrib, BitVec.msb_xor]
  cases a.msb <;> cases b.msb <;>
    simp [BitVec.xor_assoc, BitVec.xor_comm, byte_xor_left_comm]

theorem gmul_two (a : Byte) : gmul a 2 = xtime a := by
  show 0#8 ^^^ xtime a = xtime a
  rw [BitVec.zero_xor]

theorem gmul_three (a : Byte) : gmul a 3 = a ^^^ xtime a := by
  show 0#8 ^^^ a ^^^ xtime a = a ^^^ xtime a
  rw [BitVec.zero_xor]

/-! ### MixColumns (42_aes R189) -/

/-- The byte that MixColumns puts for `a`, from the column read on from `a` round to it. -/
def mixByte (a b c d : Byte) : Byte := xtime a ^^^ (b ^^^ xtime b) ^^^ c ^^^ d

theorem mixColumns_cons (a0 a1 a2 a3 : Byte) (rest : List Byte) :
    mixColumns (a0 :: a1 :: a2 :: a3 :: rest) =
      mixByte a0 a1 a2 a3 :: mixByte a1 a2 a3 a0 :: mixByte a2 a3 a0 a1 :: mixByte a3 a0 a1 a2
        :: mixColumns rest := by
  simp only [mixColumns, mixByte, gmul_two, gmul_three, BitVec.xor_assoc, BitVec.xor_comm,
    byte_xor_left_comm]

/-- A column mixed twice: only the byte and its opposite byte count. -/
theorem mixByte_mixByte (a b c d : Byte) :
    mixByte (mixByte a b c d) (mixByte b c d a) (mixByte c d a b) (mixByte d a b c) =
      a ^^^ xtime (xtime (a ^^^ c)) := by
  simp only [mixByte, xtime_xor, BitVec.xor_assoc, BitVec.xor_comm, byte_xor_left_comm,
    byte_xor_cancel_left]

theorem mixColumns_mixColumns_cons (a0 a1 a2 a3 : Byte) (rest : List Byte) :
    mixColumns (mixColumns (a0 :: a1 :: a2 :: a3 :: rest)) =
      (a0 ^^^ xtime (xtime (a0 ^^^ a2))) :: (a1 ^^^ xtime (xtime (a1 ^^^ a3)))
        :: (a2 ^^^ xtime (xtime (a2 ^^^ a0))) :: (a3 ^^^ xtime (xtime (a3 ^^^ a1)))
        :: mixColumns (mixColumns rest) := by
  simp only [mixColumns_cons, mixByte_mixByte]

/-- What two applications add to a byte, two more add again. -/
theorem xor_opposite_twice (a c : Byte) :
    a ^^^ xtime (xtime (a ^^^ c)) ^^^
      xtime (xtime (a ^^^ xtime (xtime (a ^^^ c)) ^^^ (c ^^^ xtime (xtime (c ^^^ a))))) = a := by
  have hsum : a ^^^ xtime (xtime (a ^^^ c)) ^^^ (c ^^^ xtime (xtime (c ^^^ a))) = a ^^^ c := by
    rw [BitVec.xor_comm c a, BitVec.xor_comm c, BitVec.xor_assoc, byte_xor_cancel_left]
  rw [hsum, byte_xor_cancel_right]

/-- Four times MixColumns gives every sequence of whole columns back. -/
theorem mixColumns_iterate_four : ∀ {s : List Byte}, s.length % 4 = 0 → mixColumns^[4] s = s
  | a0 :: a1 :: a2 :: a3 :: rest, h => by
    have hrest : mixColumns (mixColumns (mixColumns (mixColumns rest))) = rest :=
      mixColumns_iterate_four (by simpa [Nat.add_assoc] using h)
    show mixColumns (mixColumns (mixColumns (mixColumns (a0 :: a1 :: a2 :: a3 :: rest)))) = _
    rw [mixColumns_mixColumns_cons, mixColumns_mixColumns_cons, xor_opposite_twice,
      xor_opposite_twice, xor_opposite_twice, xor_opposite_twice, hrest]
  | [], _ => rfl
  | [_], h | [_, _], h | [_, _, _], h => by simp at h

/-! ### ShiftRows (42_aes R188) -/

theorem map_getD_range {s : List Byte} {n : Nat} (h : s.length = n) :
    (List.range n).map (s.getD · 0) = s :=
  List.ext_getElem (by simp [h]) fun i _ hi => by simp [hi]

/-- Row r is moved by r places, so four times by a multiple of the row. -/
theorem shiftRows_iterate_four {s : List Byte} (h : s.length = 16) : shiftRows^[4] s = s :=
  calc shiftRows^[4] s = (List.range 16).map (s.getD · 0) := rfl
    _ = s := map_getD_range h

/-! ### SubBytes (42_aes R183, R187) -/

/-- Row x of the inverse of the table of 42_aes R183, packed as the rows of SBOX are. -/
def invSboxRow : Nat → BitVec 128
  | 0 => 0x52096ad53036a538bf40a39e81f3d7fb
  | 1 => 0x7ce339829b2fff87348e4344c4dee9cb
  | 2 => 0x547b9432a6c2233dee4c950b42fac34e
  | 3 => 0x082ea16628d924b2765ba2496d8bd125
  | 4 => 0x72f8f66486689816d4a45ccc5d65b692
  | 5 => 0x6c704850fdedb9da5e154657a78d9d84
  | 6 => 0x90d8ab008cbcd30af7e45805b8b34506
  | 7 => 0xd02c1e8fca3f0f02c1afbd0301138a6b
  | 8 => 0x3a9111414f67dcea97f2cfcef0b4e673
  | 9 => 0x96ac7422e7ad3585e2f937e81c75df6e
  | 10 => 0x47f11a711d29c5896fb7620eaa18be1b
  | 11 => 0xfc563e4bc6d279209adbc0fe78cd5af4
  | 12 => 0x1fdda8338807c731b11210592780ec5f
  | 13 => 0x60517fa919b54a0d2de57a9f93c99cef
  | 14 => 0xa0e03b4dae2af5b0c8ebbb3c83539961
  | _ => 0x172b047eba77d626e169146355210c7d

/-- The byte that SBOX sends to `b`. -/
def invSbox (b : Byte) : Byte :=
  (invSboxRow (b.toNat / 16)).extractLsb' (8 * (15 - b.toNat % 16)) 8

theorem invSbox_sbox : ∀ a : Byte, invSbox (sbox a) = a := by decide +kernel

theorem sbox_injective : Function.Injective sbox := Function.LeftInverse.injective invSbox_sbox

/-! ### The layers and the rounds permute the blocks (42_aes R191) -/

/-- The 16-byte blocks. -/
def cipherBlocks : Set (List Byte) := {x | x.length = 16}

/-- A function on the blocks that gives a block back after some applications permutes them. -/
theorem bijOn_cipherBlocks_of_iterate {f : List Byte → List Byte} (n : Nat)
    (hmap : Set.MapsTo f cipherBlocks cipherBlocks)
    (hback : ∀ x ∈ cipherBlocks, f^[n + 1] x = x) : Set.BijOn f cipherBlocks cipherBlocks :=
  Set.InvOn.bijOn (f' := f^[n])
    ⟨hback, fun x hx => (Function.iterate_succ_apply' f n x).symm.trans (hback x hx)⟩
    hmap (hmap.iterate n)

/-- The blocks are finite in number, so an injection of them into themselves is a permutation. -/
theorem bijOn_subBytes : Set.BijOn subBytes cipherBlocks cipherBlocks :=
  ((List.finite_length_eq Byte 16).injOn_iff_bijOn_of_mapsTo
    fun x hx => (length_subBytes x).trans hx).mp (List.map_injective_iff.mpr sbox_injective).injOn

theorem bijOn_shiftRows : Set.BijOn shiftRows cipherBlocks cipherBlocks :=
  bijOn_cipherBlocks_of_iterate 3 (fun x _ => length_shiftRows x) fun _ => shiftRows_iterate_four

theorem bijOn_mixColumns : Set.BijOn mixColumns cipherBlocks cipherBlocks := by
  refine bijOn_cipherBlocks_of_iterate 3 (fun x (hx : x.length = 16) => ?_)
    fun x (hx : x.length = 16) => mixColumns_iterate_four (by rw [hx])
  show (mixColumns x).length = 16
  rw [length_mixColumns, hx]

theorem bijOn_addRoundKey (w : List Word) (n : Nat) :
    Set.BijOn (addRoundKey · w n) cipherBlocks cipherBlocks :=
  bijOn_cipherBlocks_of_iterate 1 (fun _ => length_addRoundKey w n)
    fun _ => addRoundKey_addRoundKey w n

theorem bijOn_fullRound (w : List Word) (n : Nat) :
    Set.BijOn (fullRound w · n) cipherBlocks cipherBlocks :=
  (bijOn_addRoundKey w n).comp (bijOn_mixColumns.comp (bijOn_shiftRows.comp bijOn_subBytes))

theorem bijOn_foldl_fullRound (w : List Word) (ns : List Nat) :
    Set.BijOn (ns.foldl (fullRound w)) cipherBlocks cipherBlocks := by
  induction ns with
  | nil => exact Set.bijOn_id cipherBlocks
  | cons n ns ih => exact ih.comp (bijOn_fullRound w n)

theorem bijOn_cipher (w : List Word) (nr : Nat) :
    Set.BijOn (cipher w nr) cipherBlocks cipherBlocks :=
  (bijOn_addRoundKey w nr).comp (bijOn_shiftRows.comp (bijOn_subBytes.comp
    ((bijOn_foldl_fullRound w _).comp (bijOn_addRoundKey w 0))))

/-- Settles O43: the cipher is a composition of layers, each a permutation of the blocks. -/
theorem cipherPermutesBlocks : Obligations.CipherPermutesBlocks := fun w nr =>
  ⟨fun _ hx => (bijOn_cipher w nr).mapsTo hx,
    fun _ _ hx hy => ((bijOn_cipher w nr).injOn.eq_iff hx hy).mp, (bijOn_cipher w nr).surjOn⟩

end Sys2Proof.Machine

/-!
SUPPORT and the proofs of O29 and O30 (42_aes R192, R193): the BlockCipherCore commands.
-/

namespace Sys2Proof.Machine

/-! ### AES_SCHEDULE (42_aes R192) -/

theorem exec_aesSchedule_completes {kbits : Nat} {nk : KeyWords} (h : keyWordsOf kbits = some nk)
    (s : State) :
    exec (.aesSchedule kbits) s =
      .next (((s.withCk (scheduleOf nk (s.operand (4 * nk.count)))).withCs
        StreamUnit.wiped).wipeDin.completed []) := by
  rw [exec_aesSchedule_of_some h]
  rfl

/-- The schedule fills the round keys from the first on, and zeros follow. -/
theorem scheduleOf_rk_toList (nk : KeyWords) (key : List Byte) :
    (scheduleOf nk key).rk.toList =
      keyExpansion nk.count key ++ List.replicate (60 - 4 * (nk.count + 7)) 0 := by
  have hcount : nk.count ≤ 8 := by cases nk <;> decide
  have hlength := length_keyExpansion hcount key
  rw [scheduleOf, padTo_toList_of_le (by omega), hlength]

theorem eq_zero_of_mem_replicate_toList {w n : Nat} {b : BitVec w}
    (h : b ∈ (Vector.replicate n (0 : BitVec w)).toList) : b = 0 := by
  rw [Vector.toList_replicate] at h
  exact List.eq_of_mem_replicate h

/-- Settles O29: the key size is one of the three, and nothing else is checked. -/
theorem aesScheduleExpandsKeyAndWipes : Obligations.AesScheduleExpandsKeyAndWipes := by
  intro kbits s hkbits
  obtain ⟨nk, hnk⟩ : ∃ nk, keyWordsOf kbits = some nk := by
    rcases hkbits with rfl | rfl | rfl <;> exact ⟨_, rfl⟩
  obtain ⟨hcount, hbytes⟩ := keyWordsOf_count hnk
  have hrk : (scheduleOf nk (s.operand (4 * nk.count))).rk.toList =
      keyExpansion (kbits / 32) (s.operand (kbits / 8)) ++
        List.replicate (60 - 4 * (kbits / 32 + 7)) 0 := by
    rw [scheduleOf_rk_toList, hbytes, hcount]
  exact ⟨_, exec_aesSchedule_completes hnk s, State.completed_spec _ (Nat.zero_le _), rfl, hcount,
    hrk, rfl, fun _ => eq_zero_of_mem_replicate_toList,
    fun _ => eq_zero_of_mem_replicate_toList, rfl, rfl, rfl, rfl, rfl, ⟨rfl, rfl, rfl⟩,
    ((s.withCk _).withCs _).wipeDin_completed_dinWiped []⟩

/-! ### AES_ENCRYPT (42_aes R193) -/

theorem exec_aesEncrypt_completes {s : State} (hvalid : s.ck.valid = true) :
    exec .aesEncrypt s = .next (s.completed (s.ck.encrypt (s.operand 16))) := by
  rw [exec_aesEncrypt, hvalid, existsCheck_true]
  rfl

/-- Settles O30: the one check of AES_ENCRYPT finds no error, and the block fits DOUT. -/
theorem aesEncryptGivesCipherOfBlock : Obligations.AesEncryptGivesCipherOfBlock := by
  intro s hvalid
  have hlength := length_encrypt s.ck (s.operand 16)
  have hfits : (s.ck.encrypt (s.operand 16)).length ≤ s.cfg.dmax := by
    have := s.cfg.dmax_lower
    omega
  exact ⟨_, exec_aesEncrypt_completes hvalid, State.completed_spec s hfits,
    by rw [State.completed_dolen, hlength]; rfl, rfl, rfl, rfl, rfl, rfl, s.completed_samePort _,
    s.completed_onlyDout _⟩

end Sys2Proof.Machine

/-!
SUPPORT and the proofs of O44, O48 and O51 (43_ctr R220, R221, R223, R225): the keystream and the
stream in closed form.

The idea: the key byte at a place and the stream after n bytes are each said once, for a stream at
any cursor (`StreamUnit.keyByte`, `StreamUnit.After`), and one turn of the loop moves both on by one
place. The closed form needs no bound: past the last counter value the counter is taken modulo 2^128,
and so are the keystream blocks (`keystreamBlock_congr`).
-/

namespace Sys2Proof.Machine

/-- Settles O44: the bytes that the increment writes, read back. -/
theorem counterIncrementIsBigEndian : Obligations.CounterIncrementIsBigEndian := be_incCounter

/-! ### The key bytes that a stream has ahead of it (43_ctr R220, R223) -/

/-- A keystream block depends on the counter value modulo 2^128 alone. -/
theorem keystreamBlock_congr (ck : CipherUnit) {a b : Nat} (h : a % 2 ^ 128 = b % 2 ^ 128) :
    keystreamBlock ck a = keystreamBlock ck b := by
  have hpow : (2 : Nat) ^ 128 = 256 ^ 16 := by norm_num
  rw [hpow] at h
  rw [keystreamBlock, keystreamBlock, ← bytesBE_mod a, h, bytesBE_mod]

/-- The byte that input byte i from here on is xored with: what is left of the current block, then
the blocks of the counter values to come. -/
def StreamUnit.keyByte (ck : CipherUnit) (cs : StreamUnit) (i : Nat) : Byte :=
  if i < 16 - cs.cur then cs.ks.toList.getD (cs.cur + i) 0
  else keystreamByte ck (be cs.ctr.toList) (i - (16 - cs.cur))

theorem StreamUnit.keyByte_of_full (ck : CipherUnit) {cs : StreamUnit} (h : cs.cur = 16) (i : Nat) :
    cs.keyByte ck i = keystreamByte ck (be cs.ctr.toList) i := by
  rw [StreamUnit.keyByte, h, if_neg (by omega)]
  rfl

theorem StreamUnit.processByte_fst (ck : CipherUnit) {cs : StreamUnit} (b : Byte)
    (h : cs.cur ≤ 16) : (cs.processByte ck b).1 = b ^^^ cs.keyByte ck 0 := by
  rw [StreamUnit.processByte]
  by_cases hfull : cs.cur = 16
  · rw [StreamUnit.ready_of_full hfull, StreamUnit.keyByte_of_full ck hfull]
    dsimp only
    rw [StreamUnit.refill_ks]
    rfl
  · rw [StreamUnit.ready_of_not_full hfull, StreamUnit.keyByte, if_pos (by omega)]
    rfl

/-- One turn of the loop uses up one key byte. -/
theorem StreamUnit.processByte_keyByte (ck : CipherUnit) {cs : StreamUnit} (b : Byte)
    (h : cs.cur ≤ 16) (i : Nat) :
    (cs.processByte ck b).2.keyByte ck i = cs.keyByte ck (i + 1) := by
  by_cases hfull : cs.cur = 16
  · rw [StreamUnit.processByte_of_full b hfull, StreamUnit.keyByte_of_full ck hfull,
      StreamUnit.keyByte]
    dsimp only
    split
    · next hi =>
      rw [StreamUnit.refill_ks, keystreamByte, Nat.div_eq_of_lt (by omega),
        Nat.mod_eq_of_lt (by omega), Nat.add_zero, Nat.add_comm]
    · next hi =>
      have hctr : be (cs.refill ck).ctr.toList = (be cs.ctr.toList + 1) % 2 ^ 128 :=
        be_incCounter cs.ctr
      rw [hctr, keystreamByte, keystreamByte, show (i - (16 - 1)) % 16 = (i + 1) % 16 by omega,
        keystreamBlock_congr ck (b := be cs.ctr.toList + (i + 1) / 16) (by omega)]
  · rw [StreamUnit.processByte_of_not_full b hfull, StreamUnit.keyByte, StreamUnit.keyByte]
    dsimp only
    rw [show cs.cur + 1 + i = cs.cur + (i + 1) by omega,
      show i - (16 - (cs.cur + 1)) = i + 1 - (16 - cs.cur) by omega]
    exact if_congr (by omega) rfl rfl

/-- The output of a chunk: byte by byte, the input xored with the key byte (43_ctr R220, R223). -/
theorem StreamUnit.process_fst (ck : CipherUnit) (x : List Byte) : ∀ {cs : StreamUnit},
    cs.cur ≤ 16 → (StreamUnit.process ck cs x).1 =
      (List.range x.length).map fun i => x.getD i 0 ^^^ cs.keyByte ck i := by
  induction x with
  | nil => intro cs _; rfl
  | cons b x ih =>
    intro cs h
    rw [StreamUnit.process_cons, List.length_cons, List.range_succ_eq_map, List.map_cons,
      List.map_map, ih (StreamUnit.processByte_cur b h).2, StreamUnit.processByte_fst ck b h]
    simp only [StreamUnit.processByte_keyByte ck b h]
    rfl

/-! ### The stream after n bytes (43_ctr R223, R224) -/

/-- `t` is the stream that `cs` is after n bytes: the counter has advanced by the new blocks, the
block is that of the value before it, and the flag is up if it was or if the counter has passed its
last value. -/
structure StreamUnit.After (ck : CipherUnit) (cs : StreamUnit) (n : Nat) (t : StreamUnit) :
    Prop where
  ctr : be t.ctr.toList = (be cs.ctr.toList + cs.newBlocks n) % 2 ^ 128
  ks : t.ks.toList =
    if cs.newBlocks n = 0 then cs.ks.toList
    else keystreamBlock ck (be cs.ctr.toList + cs.newBlocks n - 1)
  cur : t.cur = if n = 0 then cs.cur else (cs.cur + n - 1) % 16 + 1
  wrapped : t.wrapped = (cs.wrapped || decide (2 ^ 128 ≤ be cs.ctr.toList + cs.newBlocks n))

@[simp] theorem StreamUnit.newBlocks_zero (cs : StreamUnit) : cs.newBlocks 0 = 0 := rfl

theorem StreamUnit.After.refl (ck : CipherUnit) (cs : StreamUnit) : cs.After ck 0 cs := by
  have hlt := be_counter_lt cs.ctr
  refine ⟨?_, rfl, rfl, ?_⟩
  · rw [StreamUnit.newBlocks_zero, Nat.add_zero, Nat.mod_eq_of_lt hlt]
  · rw [StreamUnit.newBlocks_zero, decide_eq_false (by omega), Bool.or_false]

/-- A byte that the current block still has makes no new block. -/
theorem StreamUnit.After.of_not_full {ck : CipherUnit} {cs t : StreamUnit} {n : Nat}
    (hcur : cs.cur < 16) (h : StreamUnit.After ck { cs with cur := cs.cur + 1 } n t) :
    cs.After ck (n + 1) t := by
  have hblocks : StreamUnit.newBlocks { cs with cur := cs.cur + 1 } n = cs.newBlocks (n + 1) := by
    rw [StreamUnit.newBlocks_eq, StreamUnit.newBlocks_eq]
    dsimp only
    omega
  obtain ⟨hctr, hks, htcur, hwrapped⟩ := h
  rw [hblocks] at hctr hks hwrapped
  refine ⟨hctr, hks, ?_, hwrapped⟩
  rw [htcur, if_neg (Nat.succ_ne_zero n)]
  dsimp only
  split <;> omega

/-- A byte past the current block makes one. -/
theorem StreamUnit.After.of_full {ck : CipherUnit} {cs t : StreamUnit} {n : Nat}
    (hcur : cs.cur = 16) (h : StreamUnit.After ck { cs.refill ck with cur := 1 } n t) :
    cs.After ck (n + 1) t := by
  have hlt := be_counter_lt cs.ctr
  have hblocks : cs.newBlocks (n + 1) =
      StreamUnit.newBlocks { cs.refill ck with cur := 1 } n + 1 := by
    rw [StreamUnit.newBlocks_eq, StreamUnit.newBlocks_eq]
    dsimp only
    omega
  have hinc : be (cs.refill ck).ctr.toList = (be cs.ctr.toList + 1) % 2 ^ 128 :=
    be_incCounter cs.ctr
  have hflag : (cs.refill ck).wrapped = (cs.wrapped || be cs.ctr.toList == 2 ^ 128 - 1) := rfl
  obtain ⟨hctr, hks, htcur, hwrapped⟩ := h
  rw [hinc] at hctr hks hwrapped
  rw [StreamUnit.refill_ks] at hks
  rw [hflag] at hwrapped
  generalize StreamUnit.newBlocks { cs.refill ck with cur := 1 } n = m at *
  refine ⟨?_, ?_, ?_, ?_⟩
  · rw [hblocks]
    omega
  · rw [hks, hblocks, if_neg (Nat.succ_ne_zero m)]
    split
    · next hm => rw [hm]; rfl
    · exact keystreamBlock_congr ck (by omega)
  · rw [htcur, hcur, if_neg (Nat.succ_ne_zero n)]
    dsimp only
    split <;> omega
  · rw [hwrapped, hblocks, Bool.or_assoc, Bool.eq_iff_iff]
    simp only [Bool.or_eq_true, beq_iff_eq, decide_eq_true_eq]
    exact or_congr_right (by omega)

/-- The stream after a chunk (43_ctr R223). -/
theorem StreamUnit.process_after (ck : CipherUnit) (x : List Byte) : ∀ {cs : StreamUnit},
    cs.cur ≤ 16 → cs.After ck x.length (StreamUnit.process ck cs x).2 := by
  induction x with
  | nil => intro cs _; exact .refl ck cs
  | cons b x ih =>
    intro cs h
    have hrest := ih (StreamUnit.processByte_cur (ck := ck) b h).2
    rw [StreamUnit.process_cons]
    by_cases hfull : cs.cur = 16
    · exact .of_full hfull (StreamUnit.processByte_of_full (ck := ck) b hfull ▸ hrest)
    · exact .of_not_full (by omega) (StreamUnit.processByte_of_not_full (ck := ck) b hfull ▸ hrest)

/-! ### A stream from its beginning -/

theorem freshStream_newBlocks (c0 : Vector Byte 16) (n : Nat) :
    (freshStream c0).newBlocks n = (n + 15) / 16 := StreamUnit.newBlocks_eq _ n

/-- Settles O48: the closed forms at the cursor 16. The bound on the bytes makes "has passed the
last value" the same as "is one past the last value". -/
theorem streamFollowsClosedForm : Obligations.StreamFollowsClosedForm := by
  intro ck c0 x hbound
  have hlt := be_counter_lt c0
  obtain ⟨hctr, hks, hcur, hwrapped⟩ :=
    StreamUnit.process_after ck x (cs := freshStream c0) le_rfl
  rw [freshStream_newBlocks] at hctr hks hwrapped
  refine ⟨?_, fun hpos => ⟨?_, hctr, ?_, ?_⟩⟩
  · rw [StreamUnit.process_fst ck x (cs := freshStream c0) le_rfl]
    simp only [StreamUnit.keyByte_of_full ck (cs := freshStream c0) rfl]
    rfl
  · rw [hcur, if_neg (by omega)]
    show (16 + x.length - 1) % 16 + 1 = _
    omega
  · rw [hks, if_neg (by omega)]
    rfl
  · rw [hwrapped]
    show (false || decide (2 ^ 128 ≤ be c0.toList + (x.length + 15) / 16)) = true ↔ _
    rw [Bool.false_or, decide_eq_true_eq]
    omega

/-- The same stream applied to its output gives the input back, from any stream on. -/
theorem StreamUnit.process_process (ck : CipherUnit) (x : List Byte) : ∀ cs : StreamUnit,
    (StreamUnit.process ck cs (StreamUnit.process ck cs x).1).1 = x := by
  induction x with
  | nil => intro cs; rfl
  | cons b x ih =>
    intro cs
    have hbyte : (cs.processByte ck (cs.processByte ck b).1).1 = b := byte_xor_cancel_right b _
    rw [StreamUnit.process_cons, StreamUnit.process_cons, hbyte,
      StreamUnit.processByte_stream ck cs _ b, ih]

/-- Settles O51, from the round trip of any stream. -/
theorem streamRoundTrip : Obligations.StreamRoundTrip := fun ck c0 x =>
  StreamUnit.process_process ck x (freshStream c0)

end Sys2Proof.Machine

/-!
SUPPORT and the proofs of O31, O32, O38, O49 and O50 (43_ctr R222 to R225): the CounterModeStream
commands, and a message streamed piece by piece.

The idea of O49 and O50: one PUT and one CTR_PROCESS do to the stream and to DOUT what processing the
piece does (`State.loaded_ctrProcess`). A chunk that the counter has values for may be cut anywhere:
both parts have values too (`StreamUnit.overflows_of_le`, `StreamUnit.process_not_overflows`), and
processing them one after the other is processing the whole (`StreamUnit.process_append`).
-/

namespace Sys2Proof.Machine

/-! ### CTR_INIT (43_ctr R222) -/

theorem exec_ctrInit_completes {s : State} (hvalid : s.ck.valid = true) :
    exec .ctrInit s = .next ((s.withCs (freshStream (padTo 16 (s.operand 16)))).completed []) := by
  rw [exec_ctrInit, hvalid, existsCheck_true]
  rfl

/-- What a CounterModeStream command that completes leaves alone (43_ctr R222, R223). -/
theorem State.withCs_completed_frame (s : State) (u : StreamUnit) (out : List Byte) :
    ((s.withCs u).completed out).hs = s.hs ∧ ((s.withCs u).completed out).hm = s.hm ∧
      ((s.withCs u).completed out).ck = s.ck ∧ ((s.withCs u).completed out).dlen = s.dlen ∧
      SamePort s ((s.withCs u).completed out) ∧ OnlyDoutChanged s ((s.withCs u).completed out) :=
  ⟨rfl, rfl, rfl, rfl, ⟨rfl, rfl, rfl⟩, (s.withCs u).completed_onlyDout out⟩

/-- Settles O31: the one check of CTR_INIT finds no error. -/
theorem ctrInitStartsStreamAtCounter : Obligations.CtrInitStartsStreamAtCounter := by
  intro s hvalid
  exact ⟨_, exec_ctrInit_completes hvalid, State.completed_spec _ (Nat.zero_le _), rfl,
    padTo_toList_of_length (s.length_operand 16), fun _ => eq_zero_of_mem_replicate_toList, rfl,
    rfl, s.withCs_completed_frame _ _⟩

/-! ### CTR_PROCESS (43_ctr R223, R224) -/

theorem exec_ctrProcess_completes {s : State} (hlength : s.dlen.toNat ≤ s.cfg.dmax)
    (hactive : s.cs.active = true) (hroom : s.cs.overflows s.dlen.toNat = false) :
    exec .ctrProcess s =
      .next ((s.withCs (StreamUnit.process s.ck s.cs s.dlenOperand).2).completed
        (StreamUnit.process s.ck s.cs s.dlenOperand).1) := by
  rw [exec_ctrProcess, lengthCheck_eq_none.mpr hlength, existsCheck_eq_none.mpr hactive,
    overflowCheck_eq_none.mpr hroom]
  rfl

/-- The output of CTR_PROCESS, read from the cells of DIN. -/
theorem State.process_dlenOperand_fst {s : State} (hcur : s.cs.cur ≤ 16) :
    (StreamUnit.process s.ck s.cs s.dlenOperand).1 =
      (List.range s.dlen.toNat).map fun i => s.din i ^^^ s.cs.keyByte s.ck i := by
  rw [StreamUnit.process_fst s.ck s.dlenOperand hcur, s.length_dlenOperand]
  refine List.map_congr_left fun i hi => ?_
  rw [State.dlenOperand, State.operand_getD s (List.mem_range.mp hi)]

/-- The check of R223 as a bound on the bytes: what is left of the block, and 16 for each counter
value left. -/
theorem StreamUnit.overflows_eq_false_of_bytes {cs : StreamUnit} {n : Nat}
    (h : 16 - cs.cur < n → cs.wrapped = false ∧
      n ≤ 16 * (2 ^ 128 - be cs.ctr.toList) + (16 - cs.cur)) : cs.overflows n = false := by
  have hlt := be_counter_lt cs.ctr
  rw [StreamUnit.overflows_eq_false_iff, StreamUnit.newBlocks_eq]
  intro hneed
  obtain ⟨hw, hbytes⟩ := h (by omega)
  exact ⟨hw, by omega⟩

/-- A chunk that completes passes the last counter value only by using it. -/
theorem StreamUnit.passes_last_iff {cs : StreamUnit} {n : Nat} (h : cs.overflows n = false) :
    2 ^ 128 ≤ be cs.ctr.toList + cs.newBlocks n ↔
      0 < cs.newBlocks n ∧ be cs.ctr.toList + cs.newBlocks n = 2 ^ 128 := by
  have hlt := be_counter_lt cs.ctr
  rw [StreamUnit.overflows_eq_false_iff] at h
  constructor
  · intro hpast
    have hneed : 0 < cs.newBlocks n := by omega
    exact ⟨hneed, le_antisymm (h hneed).2 hpast⟩
  · exact fun ⟨_, hlast⟩ => hlast.ge

/-- Settles O32: the three checks find no error, and output and stream are the closed forms. -/
theorem ctrProcessXorsWithKeystream : Obligations.CtrProcessXorsWithKeystream := by
  intro s hlength hactive hcur hbytes
  have hroom := StreamUnit.overflows_eq_false_of_bytes hbytes
  have hspec := State.completed_spec (s.withCs (StreamUnit.process s.ck s.cs s.dlenOperand).2)
    (out := (StreamUnit.process s.ck s.cs s.dlenOperand).1) (by simpa using hlength)
  refine ⟨_, exec_ctrProcess_completes hlength hactive hroom,
    (State.process_dlenOperand_fst hcur).subst (motive := Completed _) hspec, ?_,
    (StreamUnit.process_active s.ck _ s.cs).trans hactive, s.withCs_completed_frame _ _⟩
  intro m hm
  obtain ⟨hctr, hks, htcur, hwrapped⟩ := StreamUnit.process_after s.ck s.dlenOperand hcur
  rw [s.length_dlenOperand] at hctr hks htcur hwrapped
  rw [decide_eq_decide.mpr (StreamUnit.passes_last_iff hroom)] at hwrapped
  rw [← StreamUnit.newBlocks_eq] at hm
  rw [hm]
  exact ⟨hctr, hks, htcur, hwrapped⟩

/-! ### What a command can do to the stream (10_state R37, 43_ctr R224) -/

theorem checkedEnding_cs {c : Option ErrCode} {out : List Byte} {s s' t : State}
    (h : checkedEnding c out s s' = .next t) : t.cs = s.cs ∨ c = none ∧ t.cs = s'.cs := by
  obtain ⟨e, -, rfl⟩ | ⟨hc, rfl⟩ := checked_next.mp h
  · exact .inl rfl
  · exact .inr ⟨hc, rfl⟩

/-- A command whose effect does not touch CS leaves it alone, whichever way it ends. -/
theorem checkedEnding_cs_of_eq {c : Option ErrCode} {out : List Byte} {s s' t : State}
    (h : checkedEnding c out s s' = .next t) (hcs : s'.cs = s.cs) : t.cs = s.cs :=
  (checkedEnding_cs h).elim id fun ⟨_, hdone⟩ => hdone.trans hcs

/-- A command leaves the stream alone, or leaves one with the flag down, or is a CTR_PROCESS that
the counter has values for. -/
theorem exec_cs {i : Instr} {s t : State} (h : exec i s = .next t) :
    t.cs = s.cs ∨ t.cs.wrapped = false ∨
      i = .ctrProcess ∧ s.cs.overflows s.dlenOperand.length = false ∧
        t.cs = (StreamUnit.process s.ck s.cs s.dlenOperand).2 := by
  cases i with
  | hashInit alg => exact .inl (checkedEnding_cs_of_eq ((exec_hashInit alg s).symm.trans h) rfl)
  | hashUpdate => exact .inl (checkedEnding_cs_of_eq ((exec_hashUpdate s).symm.trans h) rfl)
  | hashFinal => exact .inl (checkedEnding_cs_of_eq ((exec_hashFinal s).symm.trans h) rfl)
  | hmacInit alg => exact .inl (checkedEnding_cs_of_eq ((exec_hmacInit alg s).symm.trans h) rfl)
  | hmacUpdate => exact .inl (checkedEnding_cs_of_eq ((exec_hmacUpdate s).symm.trans h) rfl)
  | hmacFinal => exact .inl (checkedEnding_cs_of_eq ((exec_hmacFinal s).symm.trans h) rfl)
  | aesEncrypt => exact .inl (checkedEnding_cs_of_eq ((exec_aesEncrypt s).symm.trans h) rfl)
  | aesSchedule kbits =>
    cases hk : keyWordsOf kbits with
    | none =>
      rw [exec_aesSchedule_of_none hk] at h
      exact .inl (checkedEnding_cs_of_eq h rfl)
    | some nk =>
      rw [exec_aesSchedule_of_some hk] at h
      obtain hcs | ⟨-, hcs⟩ := checkedEnding_cs h
      · exact .inl hcs
      · exact .inr (.inl (congrArg StreamUnit.wrapped hcs))
  | ctrInit =>
    rw [exec_ctrInit] at h
    obtain hcs | ⟨-, hcs⟩ := checkedEnding_cs h
    · exact .inl hcs
    · exact .inr (.inl (congrArg StreamUnit.wrapped hcs))
  | ctrProcess =>
    rw [exec_ctrProcess] at h
    obtain hcs | ⟨hc, hcs⟩ := checkedEnding_cs h
    · exact .inl hcs
    · obtain ⟨-, -, hroom⟩ := by simpa only [Option.or_eq_none_iff] using hc
      rw [s.length_dlenOperand]
      exact .inr (.inr ⟨rfl, overflowCheck_eq_none.mp hroom, hcs⟩)
  | zeroize zmask =>
    rw [exec_zeroize] at h
    obtain hcs | ⟨-, hcs⟩ := checkedEnding_cs h
    · exact .inl hcs
    · simp only [State.zeroizeDin_cs, State.zeroizeStream_cs, State.zeroizeCipher_cs,
        State.zeroizeHmac_cs, State.zeroizeHash_cs] at hcs
      split_ifs at hcs
      · exact .inr (.inl (congrArg StreamUnit.wrapped hcs))
      · exact .inr (.inl (congrArg StreamUnit.wrapped hcs))
      · exact .inl hcs

/-- A chunk that the current block has all bytes for moves the cursor alone. -/
theorem StreamUnit.process_of_no_newBlocks (ck : CipherUnit) (x : List Byte) : ∀ {cs : StreamUnit},
    cs.newBlocks x.length = 0 →
      (StreamUnit.process ck cs x).2 = { cs with cur := cs.cur + x.length } := by
  induction x with
  | nil => intro cs _; rfl
  | cons b x ih =>
    intro cs h
    rw [StreamUnit.newBlocks_eq, List.length_cons] at h
    rw [StreamUnit.process_cons, StreamUnit.processByte_of_not_full b (by omega),
      ih (by rw [StreamUnit.newBlocks_eq]; dsimp only; omega), List.length_cons]
    dsimp only
    rw [Nat.add_assoc, Nat.add_comm 1]

/-- Settles O38: while the flag is up, a CTR_PROCESS that completes makes no block. -/
theorem wrappedStreamMakesNoBlock : Obligations.WrappedStreamMakesNoBlock := by
  intro i s t h
  obtain hcs | hdown | ⟨hi, hroom, hcs⟩ := exec_cs h
  · rw [hcs]
    exact ⟨fun hw hw' => absurd hw' (by simp [hw]), fun _ _ => ⟨rfl, rfl⟩⟩
  · rw [hdown]
    exact ⟨fun _ hw => absurd hw Bool.false_ne_true, fun _ hw => absurd hw Bool.false_ne_true⟩
  · refine ⟨fun _ _ => hi, fun hw _ => ?_⟩
    have hnone : s.cs.newBlocks s.dlenOperand.length = 0 := by
      by_contra hne
      obtain ⟨hw', -⟩ := StreamUnit.overflows_eq_false_iff.mp hroom (by omega)
      exact Bool.false_ne_true (hw'.symm.trans hw)
    rw [hcs, StreamUnit.process_of_no_newBlocks s.ck _ hnone]
    exact ⟨rfl, rfl⟩

/-! ### Cutting a chunk in two -/

theorem StreamUnit.process_cur (ck : CipherUnit) (x : List Byte) : ∀ {cs : StreamUnit},
    cs.cur ≤ 16 → (StreamUnit.process ck cs x).2.cur ≤ 16 := by
  induction x with
  | nil => intro cs h; exact h
  | cons b x ih => intro cs h; exact ih (StreamUnit.processByte_cur b h).2

/-- The first part of a chunk that the counter has values for. -/
theorem StreamUnit.overflows_of_le {cs : StreamUnit} {m n : Nat} (hmn : m ≤ n)
    (h : cs.overflows n = false) : cs.overflows m = false := by
  rw [StreamUnit.overflows_eq_false_iff, StreamUnit.newBlocks_eq] at h ⊢
  intro hneed
  obtain ⟨hw, hroom⟩ := h (by omega)
  exact ⟨hw, by omega⟩

/-- The rest of a chunk that the counter has values for, once the first part is processed. -/
theorem StreamUnit.process_not_overflows {ck : CipherUnit} {n : Nat} (x : List Byte) :
    ∀ {cs : StreamUnit}, cs.cur ≤ 16 → cs.overflows (x.length + n) = false →
      (StreamUnit.process ck cs x).2.overflows n = false := by
  induction x with
  | nil => intro cs _ h; rwa [List.length_nil, Nat.zero_add] at h
  | cons b x ih =>
    intro cs hcur h
    rw [List.length_cons, Nat.add_right_comm] at h
    exact ih (StreamUnit.processByte_cur b hcur).2 (StreamUnit.processByte_not_overflows b hcur h)

/-! ### One piece, and a list of pieces -/

/-- The first cells of DOUT after `done(out)` are the result. -/
theorem State.completed_result {s : State} {out : List Byte} (h : out.length ≤ s.cfg.dmax) :
    (s.completed out).result out.length = out := by
  refine List.ext_getElem (by simp) fun i _ hi => ?_
  simp only [State.result, List.getElem_map, List.getElem_range]
  rw [State.completed_dout s out (by omega), List.getD_eq_getElem _ 0 hi]

/-- The state `t` is what one PUT of `x` and one CTR_PROCESS that completes make of `s`. -/
structure Streamed (s : State) (x : List Byte) (t : State) : Prop where
  cfg : t.cfg = s.cfg
  err : t.err = .ok
  ck : t.ck = s.ck
  cs : t.cs = (StreamUnit.process s.ck s.cs x).2
  result : t.result x.length = (StreamUnit.process s.ck s.cs x).1

/-- One PUT and one CTR_PROCESS process the piece (43_ctr R223). -/
theorem State.loaded_ctrProcess {s : State} {x : List Byte} (hx : x.length ≤ s.cfg.dmax)
    (hactive : s.cs.active = true) (hroom : s.cs.overflows x.length = false) :
    ∃ t, exec .ctrProcess (s.loaded x) = .next t ∧ Streamed s x t := by
  have hdlen := State.loaded_dlen_toNat hx
  have hoperand := s.loaded_dlenOperand hx
  have hlength := StreamUnit.length_process s.ck x s.cs
  have hexec := exec_ctrProcess_completes (s := s.loaded x) (hdlen.trans_le hx) hactive
    (by rw [hdlen]; exact hroom)
  rw [hoperand] at hexec
  refine ⟨_, hexec, rfl, rfl, rfl, rfl, ?_⟩
  rw [← hlength]
  exact State.completed_result (hlength.trans_le hx)

/-- The first piece, if its command goes on. -/
theorem State.streamed_cons {s t : State} {x : List Byte}
    (h : exec .ctrProcess (s.loaded x) = .next t) (xs : List (List Byte)) :
    s.streamed (x :: xs) = (t.result x.length ++ (t.streamed xs).1, (t.streamed xs).2) := by
  rw [State.streamed, h]

/-- The pieces are processed as their concatenation, whatever the cutting. -/
theorem State.streamed_eq_process (pieces : List (List Byte)) : ∀ {s : State},
    s.err = .ok → s.cs.active = true → s.cs.cur ≤ 16 → (∀ x ∈ pieces, x.length ≤ s.cfg.dmax) →
    s.cs.overflows pieces.flatten.length = false →
      (s.streamed pieces).1 = (StreamUnit.process s.ck s.cs pieces.flatten).1 ∧
      (s.streamed pieces).2.cs = (StreamUnit.process s.ck s.cs pieces.flatten).2 ∧
      (s.streamed pieces).2.err = .ok := by
  induction pieces with
  | nil => intro s herr _ _ _ _; exact ⟨rfl, rfl, herr⟩
  | cons x xs ih =>
    intro s _ hactive hcur hfit hroom
    obtain ⟨hx, hxs⟩ := List.forall_mem_cons.mp hfit
    rw [List.flatten_cons, List.length_append] at hroom
    obtain ⟨t, ht, hcfg, herr, hck, hcs, hresult⟩ :=
      State.loaded_ctrProcess hx hactive (StreamUnit.overflows_of_le (Nat.le_add_right _ _) hroom)
    have hrest := ih herr (by rw [hcs, StreamUnit.process_active, hactive])
      (by rw [hcs]; exact StreamUnit.process_cur s.ck x hcur) (by rwa [hcfg])
      (by rw [hcs]; exact StreamUnit.process_not_overflows x hcur hroom)
    obtain ⟨hout, hstream, hok⟩ := hrest
    rw [State.streamed_cons ht, List.flatten_cons, StreamUnit.process_append]
    rw [hck, hcs] at hout hstream
    exact ⟨by rw [hresult, hout], hstream, hok⟩

/-- The bytes that the counter has values for, from the beginning of a stream (43_ctr R224). -/
theorem freshStream_not_overflows {c0 : Vector Byte 16} {n : Nat}
    (h : n ≤ 16 * (2 ^ 128 - be c0.toList)) : (freshStream c0).overflows n = false :=
  StreamUnit.overflows_eq_false_of_bytes fun _ => ⟨rfl, h⟩

/-- Settles O49: CTR_INIT starts a fresh stream, the pieces are processed as the message, and the
message follows the closed form of O48. -/
theorem ctrOfPiecesIsStreamOfMessage : Obligations.CtrOfPiecesIsStreamOfMessage := by
  intro s s1 pieces c0 (hc0 : c0 = s.operand 16) hvalid hfit hbound hinit
  subst hc0
  have hcounter : (padTo 16 (s.operand 16)).toList = s.operand 16 :=
    padTo_toList_of_length (s.length_operand 16)
  rw [← hcounter] at hbound
  obtain rfl := Host.Outcome.next.inj ((exec_ctrInit_completes hvalid).symm.trans hinit)
  obtain ⟨hout, hstream, hok⟩ := State.streamed_eq_process pieces
    (s := (s.withCs (freshStream (padTo 16 (s.operand 16)))).completed [])
    rfl rfl le_rfl hfit (freshStream_not_overflows hbound)
  obtain ⟨hclosed, -⟩ := streamFollowsClosedForm s.ck _ pieces.flatten hbound
  rw [hcounter] at hclosed
  exact ⟨hout.trans hclosed, hstream, hok⟩

/-- A CTR_PROCESS that leaves ERR at 0 found no error. -/
theorem ctrProcess_checks_of_ok {s t : State} (h : exec .ctrProcess s = .next t)
    (hok : t.err = .ok) : s.cs.active = true ∧ s.cs.overflows s.dlen.toNat = false := by
  rw [exec_ctrProcess] at h
  obtain ⟨e, hc, rfl⟩ | ⟨hc, -⟩ := checked_next.mp h
  · obtain rfl : e = .ok := hok
    exact absurd hc (by
      unfold lengthCheck existsCheck overflowCheck
      split_ifs <;> simp)
  · obtain ⟨-, hexists, hroom⟩ := by simpa only [Option.or_eq_none_iff] using hc
    exact ⟨existsCheck_eq_none.mp hexists, overflowCheck_eq_none.mp hroom⟩

/-- Settles O50: the whole chunk and its two parts each process their bytes, and processing the
parts one after the other is processing the whole. -/
theorem streamingEquivalence : Obligations.StreamingEquivalence := by
  intro s t x y hinv hfit ht hok
  obtain ⟨hactive, hroom⟩ : s.cs.active = true ∧
      s.cs.overflows (s.loaded (x ++ y)).dlen.toNat = false := ctrProcess_checks_of_ok ht hok
  rw [State.loaded_dlen_toNat hfit] at hroom
  have hcur := StreamUnit.cur_le_of_legal hinv.cs hactive
  obtain ⟨t', ht', hwhole⟩ := State.loaded_ctrProcess hfit hactive hroom
  obtain rfl := Host.Outcome.next.inj (ht.symm.trans ht')
  rw [List.length_append] at hfit hroom
  obtain ⟨u, hu, hfirst⟩ := State.loaded_ctrProcess (s := s) (x := x) (by omega) hactive
    (StreamUnit.overflows_of_le (Nat.le_add_right _ _) hroom)
  obtain ⟨v, hv, hsecond⟩ := State.loaded_ctrProcess (s := u) (x := y) (by rw [hfirst.cfg]; omega)
    (by rw [hfirst.cs, StreamUnit.process_active, hactive])
    (by rw [hfirst.cs]; exact StreamUnit.process_not_overflows x hcur hroom)
  refine ⟨u, v, hu, hv, hfirst.err, hsecond.err, ?_, ?_⟩
  · rw [hsecond.cs, hfirst.ck, hfirst.cs, hwhole.cs, StreamUnit.process_append]
  · rw [hfirst.result, hsecond.result, hfirst.ck, hfirst.cs, hwhole.result,
      StreamUnit.process_append]

end Sys2Proof.Machine

/-!
SUPPORT and the proofs of O33 and O34 (44_system R240, R241): ZEROIZE.

The five wipes are one update of the state (`State.zeroizeTargets`), said once per field. Only the
last of them touches a cell, so the cells after it are those of a wiped DIN, or as before.
-/

namespace Sys2Proof.Machine

/-! ### The wipes of a mask, field by field -/

/-- The state with the storage wiped that the mask selects (44_system R240). -/
def State.zeroizeTargets (s : State) (m : BitVec 5) : State :=
  ((((s.zeroizeHash (wipesHash m)).zeroizeHmac (wipesHmac m)).zeroizeCipher
    (wipesCipher m)).zeroizeStream (wipesStream m)).zeroizeDin (wipesDin m)

theorem exec_zeroize_completes (m : BitVec 5) (s : State) :
    exec (.zeroize m) s = .next ((s.zeroizeTargets m).completed []) := rfl

section ZeroizeTargets

variable (s : State) (m : BitVec 5)

@[simp] theorem State.zeroizeTargets_cfg : (s.zeroizeTargets m).cfg = s.cfg := by
  simp [State.zeroizeTargets]

@[simp] theorem State.zeroizeTargets_err : (s.zeroizeTargets m).err = s.err := by
  simp [State.zeroizeTargets]

@[simp] theorem State.zeroizeTargets_dlen :
    (s.zeroizeTargets m).dlen = if wipesDin m then 0 else s.dlen := by
  simp [State.zeroizeTargets]

@[simp] theorem State.zeroizeTargets_dolen : (s.zeroizeTargets m).dolen = s.dolen := by
  simp [State.zeroizeTargets]

@[simp] theorem State.zeroizeTargets_mem :
    (s.zeroizeTargets m).mem =
      if wipesDin m then s.mem.wipe dinBase s.cfg.dmax else s.mem := by
  simp [State.zeroizeTargets]

@[simp] theorem State.zeroizeTargets_hs :
    (s.zeroizeTargets m).hs = if wipesHash m then HashUnit.wiped else s.hs := by
  simp [State.zeroizeTargets]

@[simp] theorem State.zeroizeTargets_hm :
    (s.zeroizeTargets m).hm = if wipesHmac m then HmacUnit.wiped else s.hm := by
  simp [State.zeroizeTargets]

@[simp] theorem State.zeroizeTargets_ck :
    (s.zeroizeTargets m).ck = if wipesCipher m then CipherUnit.wiped else s.ck := by
  simp [State.zeroizeTargets]

/-- CS is wiped with CK, or by its own bit. -/
@[simp] theorem State.zeroizeTargets_cs :
    (s.zeroizeTargets m).cs =
      if wipesCipher m || wipesStream m then StreamUnit.wiped else s.cs := by
  cases hcipher : wipesCipher m <;> simp [State.zeroizeTargets, hcipher]

@[simp] theorem State.zeroizeTargets_moves : (s.zeroizeTargets m).moves = s.moves := by
  simp [State.zeroizeTargets]

@[simp] theorem State.zeroizeTargets_replies : (s.zeroizeTargets m).replies = s.replies := by
  simp [State.zeroizeTargets]

theorem State.zeroizeTargets_samePort : SamePort s (s.zeroizeTargets m) :=
  ⟨by simp, by simp, by simp⟩

/-- Only mask bit 4 reaches a cell. -/
theorem State.zeroizeTargets_read (a : Nat) :
    (s.zeroizeTargets m).mem.read a =
      if wipesDin m then s.wipeDin.mem.read a else s.mem.read a := by
  rw [State.zeroizeTargets_mem, apply_ite (Memory.read · a)]
  rfl

end ZeroizeTargets

/-! ### The command -/

/-- What `done(out)` leaves in the cells depends on the cells before it and on DMAX alone. -/
theorem State.completed_read_congr {s t : State} (hcfg : t.cfg = s.cfg)
    (hread : ∀ a, t.mem.read a = s.mem.read a) (out : List Byte) (a : Nat) :
    (t.completed out).mem.read a = (s.completed out).mem.read a := by
  simp only [State.completed_read, InDout, hcfg, hread]

/-- Mask bit 4 wipes DIN. -/
theorem State.zeroizeTargets_dinWiped {s : State} {m : BitVec 5} (h : wipesDin m = true) :
    DinWiped s ((s.zeroizeTargets m).completed []) := by
  have hread : ∀ a, ((s.zeroizeTargets m).completed []).mem.read a =
      (s.wipeDin.completed []).mem.read a :=
    State.completed_read_congr (s := s.wipeDin) (s.zeroizeTargets_cfg m)
      (fun a => by rw [s.zeroizeTargets_read, if_pos h]) []
  obtain ⟨hdin, hother⟩ := s.wipeDin_completed_dinWiped []
  exact ⟨fun i hi => (hread _).trans (hdin i hi),
    fun a hi ho => (hread a).trans (hother a hi ho)⟩

/-- Without mask bit 4 no cell outside DOUT changes. -/
theorem State.zeroizeTargets_onlyDout {s : State} {m : BitVec 5} (h : wipesDin m ≠ true) :
    OnlyDoutChanged s ((s.zeroizeTargets m).completed []) := by
  have hread : ∀ a, ((s.zeroizeTargets m).completed []).mem.read a =
      (s.completed []).mem.read a :=
    State.completed_read_congr (s.zeroizeTargets_cfg m)
      (fun a => by rw [s.zeroizeTargets_read, if_neg h]) []
  exact fun a ha => (hread a).trans (s.completed_onlyDout [] a ha)

/-- Settles O33: no check stands before ZEROIZE, and each wipe is taken exactly when its bit is
set. -/
theorem zeroizeWipesExactlyItsTargets : Obligations.ZeroizeWipesExactlyItsTargets := by
  intro m s
  obtain ⟨hcfg, hmoves, hreplies⟩ := s.zeroizeTargets_samePort m
  refine ⟨_, exec_zeroize_completes m s, State.completed_spec _ (Nat.zero_le _),
    s.zeroizeTargets_hs m, s.zeroizeTargets_hm m, s.zeroizeTargets_ck m, s.zeroizeTargets_cs m,
    s.zeroizeTargets_dlen m, ⟨hcfg, hmoves, hreplies⟩, ?_⟩
  split
  · next hbit => exact State.zeroizeTargets_dinWiped hbit
  · next hbit => exact State.zeroizeTargets_onlyDout hbit

/-- Settles O34: no bit of the mask 0 is set, so of O33 the result alone is left. -/
theorem zeroizeZeroOnlyClearsTheResult : Obligations.ZeroizeZeroOnlyClearsTheResult := by
  intro s
  obtain ⟨t, ht, ⟨herr, hdolen, hdout⟩, hhs, hhm, hck, hcs, hdlen, hport, hcells⟩ :=
    zeroizeWipesExactlyItsTargets 0 s
  refine ⟨t, ht, herr, BitVec.eq_of_toNat_eq hdolen, fun i hi => ?_, hhs, hhm, hck, hcs, hdlen,
    hcells⟩
  exact hdout i (by rwa [hport.cfg])

end Sys2Proof.Machine

/-!
SUPPORT for the host's sequences (30_encoding R100, R101): what delivering accesses does, the answers
aside.

The idea: no command reads or writes the answers that the port has given (`exec_withReplies`). So
accesses that take `s` to `t` do so whatever was answered before (`Delivers`), and a sequence of
accesses is followed one pseudo-instruction after the other, the answers left out.
-/

namespace Sys2Proof.Machine

/-! ### Commands and the port -/

theorem checkedEnding_samePort {c : Option ErrCode} {out : List Byte} {s s' t : State}
    (h : checkedEnding c out s s' = .next t) (hs' : SamePort s s') : SamePort s t := by
  obtain ⟨e, -, rfl⟩ | ⟨-, rfl⟩ := checked_next.mp h
  · exact ⟨rfl, rfl, rfl⟩
  · exact ⟨hs'.cfg, hs'.moves, hs'.replies⟩

/-- No command changes DMAX, the waiting accesses or the answers. -/
theorem exec_samePort {i : Instr} {s t : State} (h : exec i s = .next t) : SamePort s t := by
  cases i with
  | hashInit alg => exact checkedEnding_samePort ((exec_hashInit alg s).symm.trans h) ⟨rfl, rfl, rfl⟩
  | hashUpdate => exact checkedEnding_samePort ((exec_hashUpdate s).symm.trans h) ⟨rfl, rfl, rfl⟩
  | hashFinal => exact checkedEnding_samePort ((exec_hashFinal s).symm.trans h) ⟨rfl, rfl, rfl⟩
  | hmacInit alg => exact checkedEnding_samePort ((exec_hmacInit alg s).symm.trans h) ⟨rfl, rfl, rfl⟩
  | hmacUpdate => exact checkedEnding_samePort ((exec_hmacUpdate s).symm.trans h) ⟨rfl, rfl, rfl⟩
  | hmacFinal => exact checkedEnding_samePort ((exec_hmacFinal s).symm.trans h) ⟨rfl, rfl, rfl⟩
  | aesSchedule kbits =>
    cases hk : keyWordsOf kbits with
    | none =>
      exact checkedEnding_samePort ((exec_aesSchedule_of_none hk s).symm.trans h) ⟨rfl, rfl, rfl⟩
    | some nk =>
      exact checkedEnding_samePort ((exec_aesSchedule_of_some hk s).symm.trans h) ⟨rfl, rfl, rfl⟩
  | aesEncrypt => exact checkedEnding_samePort ((exec_aesEncrypt s).symm.trans h) ⟨rfl, rfl, rfl⟩
  | ctrInit => exact checkedEnding_samePort ((exec_ctrInit s).symm.trans h) ⟨rfl, rfl, rfl⟩
  | ctrProcess => exact checkedEnding_samePort ((exec_ctrProcess s).symm.trans h) ⟨rfl, rfl, rfl⟩
  | zeroize m =>
    exact checkedEnding_samePort ((exec_zeroize m s).symm.trans h) (s.zeroizeTargets_samePort m)

/-! ### No command sees the answers -/

theorem withReplies_port (rs : List Reply) : PortExchange (State.withReplies · rs) :=
  ⟨fun _ => rfl, ⟨fun _ => rfl, fun _ _ => rfl⟩, ⟨fun _ => rfl, fun _ _ => rfl⟩,
    ⟨fun _ => rfl, fun _ _ => rfl⟩, ⟨fun _ => rfl, fun _ _ => rfl⟩⟩

theorem withReplies_spares_hs (rs : List Reply) :
    Spares (State.withReplies · rs) State.hs State.withHs := ⟨fun _ => rfl, fun _ _ => rfl⟩

theorem withReplies_spares_hm (rs : List Reply) :
    Spares (State.withReplies · rs) State.hm State.withHm := ⟨fun _ => rfl, fun _ _ => rfl⟩

theorem withReplies_spares_ck (rs : List Reply) :
    Spares (State.withReplies · rs) State.ck State.withCk := ⟨fun _ => rfl, fun _ _ => rfl⟩

theorem withReplies_spares_cs (rs : List Reply) :
    Spares (State.withReplies · rs) State.cs State.withCs := ⟨fun _ => rfl, fun _ _ => rfl⟩

theorem State.zeroizeTargets_withReplies (s : State) (m : BitVec 5) (rs : List Reply) :
    (s.withReplies rs).zeroizeTargets m = (s.zeroizeTargets m).withReplies rs := by
  apply State.ext_fields <;> simp

/-- A command runs the same whatever the port has answered before. -/
theorem exec_withReplies {i : Instr} {s t : State} (h : exec i s = .next t) (rs : List Reply) :
    exec i (s.withReplies rs) = .next (t.withReplies rs) := by
  have hport := withReplies_port rs
  have hhs := withReplies_spares_hs rs
  have hhm := withReplies_spares_hm rs
  have hck := withReplies_spares_ck rs
  have hcs := withReplies_spares_cs rs
  cases i with
  | hashInit alg => exact hport.hashInit hhs h
  | hashUpdate => exact hport.hashUpdate hhs h
  | hashFinal => exact hport.hashFinal hhs h
  | hmacInit alg => exact hport.hmacInit hhm h
  | hmacUpdate => exact hport.hmacUpdate hhm h
  | hmacFinal => exact hport.hmacFinal hhm h
  | aesSchedule kbits => exact hport.aesSchedule hck hcs h
  | aesEncrypt => exact hport.aesEncrypt hck h
  | ctrInit => exact hport.ctrInit hck hcs h
  | ctrProcess => exact hport.ctrProcess hck hcs h
  | zeroize m =>
    obtain rfl := Host.Outcome.next.inj ((exec_zeroize_completes m s).symm.trans h)
    rw [exec_zeroize_completes, s.zeroizeTargets_withReplies]
    rfl

/-! ### Delivering accesses, the answers aside -/

/-- The accesses `ms` take `s` to `t`, whatever the port has answered before; the answers aside. -/
def Delivers (s : State) (ms : List HostMove) (t : State) : Prop :=
  ∀ rs, ∃ rs', (s.withReplies rs).deliver ms = t.withReplies rs'

theorem Delivers.deliver {s t : State} {ms : List HostMove} (h : Delivers s ms t) :
    ∃ rs, s.deliver ms = t.withReplies rs := h s.replies

theorem Delivers.append {s t u : State} {ms ns : List HostMove} (h : Delivers s ms t)
    (h' : Delivers t ns u) : Delivers s (ms ++ ns) u := by
  intro rs
  obtain ⟨rs', hms⟩ := h rs
  obtain ⟨rs'', hns⟩ := h' rs'
  exact ⟨rs'', by rw [State.deliver_append, hms, hns]⟩

/-- A command in its written form (30_encoding R100). -/
theorem Delivers.command {i : Instr} {s t : State} (hi : i.wellFormed = true)
    (h : exec i s = .next t) : Delivers s [command i] t := fun rs =>
  ⟨.written :: rs, State.deliver_command (s := s.withReplies rs) (decode_encode hi)
    (exec_withReplies h (.written :: rs)) []⟩

/-- PUTB (30_encoding R101). -/
theorem Delivers.putb {s : State} {x : List Byte} (h : x.length ≤ s.cfg.dmax) :
    Delivers s (putb x) (s.withMem (s.mem.writeBytes dinBase x)) := fun rs =>
  ⟨_, State.deliver_dinWrites x (s.withReplies rs) 0 (by rwa [Nat.zero_add])⟩

/-- PUT (30_encoding R101). -/
theorem Delivers.put {s : State} {x : List Byte} (h : x.length ≤ s.cfg.dmax) :
    Delivers s (put x) (s.loaded x) := fun rs =>
  ⟨_, State.deliver_put (s := s.withReplies rs) h⟩

/-- One PUT and one command for each piece. -/
theorem Delivers.feed {i : Instr} (hi : i.wellFormed = true) (pieces : List (List Byte)) :
    ∀ {s : State}, (∀ x ∈ pieces, x.length ≤ s.cfg.dmax) →
      Delivers s (feed i pieces) (s.fed i pieces) := by
  induction pieces with
  | nil => exact fun _ rs => ⟨rs, rfl⟩
  | cons x xs ih =>
    intro s hfit
    obtain ⟨hx, hxs⟩ := List.forall_mem_cons.mp hfit
    obtain ⟨t, ht⟩ := exec_goesOn i (s.loaded x)
    have hcfg : t.cfg = s.cfg := (exec_samePort ht).cfg
    rw [State.fed_cons ht]
    exact ((Delivers.put hx).append (.command hi ht)).append (ih (by rwa [hcfg]))

/-! ### Reading a result and an outcome -/

/-- GET after a command that completes returns its result (30_encoding R98, R101). -/
theorem State.get_completed (s : State) {out : List Byte} (h : out.length ≤ s.cfg.dmax)
    (rs : List Reply) :
    ∃ rs', ((s.completed out).withReplies rs).get = ((s.completed out).withReplies rs', out) := by
  have hdolen := (s.completed_spec h).dolen
  have hget := State.get_eq (s := (s.completed out).withReplies rs) (hdolen.trans_le h)
  have hresult : ((s.completed out).withReplies rs).result (s.completed out).dolen.toNat = out := by
    rw [hdolen]
    exact State.completed_result h
  rw [State.withReplies_dolen, hresult] at hget
  exact ⟨_, hget⟩

/-- Accesses that end with a command that completes, then GET. -/
theorem Delivers.get {s t : State} {ms : List HostMove} {out : List Byte}
    (h : Delivers s ms (t.completed out)) (hout : out.length ≤ t.cfg.dmax) :
    ∃ rs, (s.deliver ms).get = ((t.completed out).withReplies rs, out) := by
  obtain ⟨rs, hms⟩ := h.deliver
  rw [hms]
  exact t.get_completed hout rs

/-- Accesses, then ERR?, which reads the code of ERR (10_state R23, 30_encoding R101). -/
theorem Delivers.errQuery {s t : State} {ms : List HostMove} (h : Delivers s ms t) :
    ∃ rs, (s.deliver ms).errQuery = (t.withReplies rs, BitVec.ofNat 4 t.err.code) := by
  obtain ⟨rs, hms⟩ := h.deliver
  obtain ⟨herr, -⟩ := statusFieldsAreLiveViews (t.withReplies rs)
  rw [hms, State.errQuery_eq, herr]
  exact ⟨_, rfl⟩

/-! ### The pieces of a message (44_system section 2) -/

theorem chunksFrom_cons (n fuel : Nat) (b : Byte) (x : List Byte) :
    chunksFrom n (fuel + 1) (b :: x) =
      (b :: x).take n :: chunksFrom n fuel ((b :: x).drop n) := rfl

theorem chunksFrom_flatten {n : Nat} (hn : 0 < n) : ∀ {fuel : Nat} {x : List Byte},
    x.length ≤ fuel → (chunksFrom n fuel x).flatten = x
  | 0, [], _ => rfl
  | fuel + 1, [], _ => rfl
  | fuel + 1, b :: x, h => by
    have hrest : ((b :: x).drop n).length ≤ fuel := by
      rw [List.length_drop]
      omega
    rw [chunksFrom_cons, List.flatten_cons, chunksFrom_flatten hn hrest, List.take_append_drop]

theorem length_le_of_mem_chunksFrom {n : Nat} : ∀ {fuel : Nat} {x y : List Byte},
    y ∈ chunksFrom n fuel x → y.length ≤ n
  | fuel + 1, b :: x, y, h => by
    obtain rfl | hrest := List.mem_cons.mp h
    · exact List.length_take_le n _
    · exact length_le_of_mem_chunksFrom hrest

/-- The pieces make up the message. -/
@[simp] theorem chunks_flatten (s : State) (m : List Byte) :
    (chunks s.cfg.dmax m).flatten = m :=
  chunksFrom_flatten (by have := s.cfg.dmax_lower; omega) le_rfl

/-- Every piece fits the buffer. -/
theorem chunks_fit (s : State) (m : List Byte) :
    ∀ x ∈ chunks s.cfg.dmax m, x.length ≤ s.cfg.dmax := fun _ => length_le_of_mem_chunksFrom

end Sys2Proof.Machine

/-!
The proofs of O52 and O53 (44_system R243, R244): the host's `hash` and `hmac`.

Both follow the accesses from one pseudo-instruction to the next. For O53, a key too long for the
buffer is longer than a block, so its digest has the same normalised key as the key itself.
-/

namespace Sys2Proof.Machine

/-! ### `hash` (44_system R243) -/

/-- What `hash` returns, and the state it leaves, the answers aside. -/
theorem hashSequence_eq {alg : HashAlg} {m : List Byte} (s : State)
    (h : m.length < lengthLimit alg) :
    ∃ t : State, hashSequence alg m s = (t, hashOf alg m) ∧ t.cfg = s.cfg ∧
      t.hs = ⟨.final, .sha256, HashCtx.zero⟩ ∧ t.err = .ok := by
  have hinit := exec_hashInit_completes alg s
  have hfit := chunks_fit s m
  obtain ⟨hcfg, hhs⟩ := State.fed_hashUpdate (chunks s.cfg.dmax m)
    (s := (s.withHs ⟨.active, alg, ctxInit alg⟩).completed []) rfl hfit
    (by rwa [chunks_flatten, ctxInit_total, Nat.zero_add])
  rw [chunks_flatten] at hhs
  have hfinal := exec_hashFinal_completes (congrArg HashUnit.phase hhs)
  rw [hhs] at hfinal
  have hrun := ((Delivers.command rfl hinit).append (.feed (i := .hashUpdate) rfl _ hfit)).append
    (.command rfl hfinal)
  obtain ⟨rs, hget⟩ := hrun.get (length_ctxFinish_le_dmax _ alg _)
  exact ⟨_, hget, hcfg, rfl, rfl⟩

/-- Settles O52: HASH_INIT, the pieces and HASH_FINAL hash the message, GET reads the digest. -/
theorem hashSequenceReturnsHash : Obligations.HashSequenceReturnsHash := by
  intro alg m s h
  obtain ⟨t, ht, -, hhs, herr⟩ := hashSequence_eq s h
  rw [ht]
  exact ⟨rfl, hhs, herr⟩

/-! ### `hmac` (44_system R244) -/

/-- A key longer than a block and its digest have the same normalised key (41_hmac R161). -/
theorem normalizedKey_hashOf {alg : HashAlg} {key : List Byte} (h : blockSize alg < key.length) :
    normalizedKey alg (hashOf alg key) = normalizedKey alg key := by
  have hfits : (hashOf alg key).length ≤ blockSize alg := by
    rw [length_hashOf]
    exact (digestSize_lt_blockSize alg).le
  rw [normalizedKey_of_long h, normalizedKey_of_fits hfits, length_hashOf]

theorem hmacOf_hashOf {alg : HashAlg} {key : List Byte} (h : blockSize alg < key.length)
    (m : List Byte) : hmacOf alg (hashOf alg key) m = hmacOf alg key m := by
  rw [hmacOf, hmacOf, innerPad, innerPad, outerPad, outerPad, normalizedKey_hashOf h]

/-- The accesses of `hmac` with a key that fits the buffer. -/
def hmacMoves (alg : HashAlg) (key m : List Byte) (dmax : Nat) : List HostMove :=
  put key ++ command (.hmacInit alg) :: feed .hmacUpdate (chunks dmax m) ++ [command .hmacFinal]

/-- With a key that fits the buffer, the accesses of `hmac` and GET return the tag. -/
theorem get_hmacMoves {alg : HashAlg} {key m : List Byte} {s : State}
    (hkey : key.length ≤ s.cfg.dmax) (hm : blockSize alg + m.length < lengthLimit alg) :
    (s.deliver (hmacMoves alg key m s.cfg.dmax)).get.2 = hmacOf alg key m := by
  obtain ⟨s1, hinit⟩ := exec_goesOn (.hmacInit alg) (s.loaded key)
  obtain ⟨hcfg, hseeded⟩ := State.loaded_hmacInit hkey hinit
  have hfit : ∀ x ∈ chunks s.cfg.dmax m, x.length ≤ s1.cfg.dmax := by
    rw [hcfg]
    exact chunks_fit s m
  have hfed := State.fed_hmacUpdate hseeded hfit (by
    rwa [chunks_flatten, ctxAbsorb_total, ctxInit_total, length_innerPad, Nat.zero_add])
  rw [chunks_flatten] at hfed
  have hfinal := exec_hmacFinal_completes (congrArg HmacUnit.phase hfed)
  rw [hfed, ← hmacOf_eq_ctxFinish] at hfinal
  have hrun := ((Delivers.put hkey).append ((Delivers.command rfl hinit).append
    (.feed (i := .hmacUpdate) rfl _ hfit))).append (.command rfl hfinal)
  obtain ⟨rs, hget⟩ := hrun.get (length_ctxFinish_le_dmax _ alg _)
  exact congrArg Prod.snd hget

theorem hmacSequence_of_fits {alg : HashAlg} {key : List Byte} {s : State}
    (h : key.length ≤ s.cfg.dmax) (m : List Byte) :
    hmacSequence alg key m s = (s.deliver (hmacMoves alg key m s.cfg.dmax)).get := by
  rw [hmacSequence, if_neg (by omega)]
  rfl

/-- A key too long for the buffer is hashed first, and its digest is the key used. -/
theorem hmacSequence_of_long {alg : HashAlg} {key d : List Byte} {s t : State}
    (h : s.cfg.dmax < key.length) (hhash : hashSequence alg key s = (t, d)) (m : List Byte) :
    hmacSequence alg key m s = (t.deliver (hmacMoves alg d m s.cfg.dmax)).get := by
  rw [hmacSequence, if_pos h, hhash]
  rfl

/-- Settles O53: the key that reaches HMAC_INIT fits the buffer and has the key's HMAC. -/
theorem hmacSequenceReturnsHmac : Obligations.HmacSequenceReturnsHmac := by
  intro alg key m s hkey hm
  by_cases hlong : s.cfg.dmax < key.length
  · obtain ⟨t, hhash, hcfg, -⟩ := hashSequence_eq s hkey
    have hblock : blockSize alg < key.length := by
      have hB := blockSize_le alg
      have hd := s.cfg.dmax_lower
      omega
    rw [hmacSequence_of_long hlong hhash, ← hcfg,
      get_hmacMoves (key := hashOf alg key) (length_ctxFinish_le_dmax t alg _) hm,
      hmacOf_hashOf hblock]
  · rw [hmacSequence_of_fits (by omega), get_hmacMoves (by omega) hm]

end Sys2Proof.Machine

/-!
SUPPORT and the proof of O54 (44_system R245): the host's `aesCtrTransform`.

The idea: piece by piece, the host gets what the stream makes of the message as one chunk, the output
or the code of CounterOverflow (`StreamUnit.transform`, `ctrPieces_eq_transform`). The key is
released at the end of all three ways through the sequence (`aesCtrSequence_fst`).
-/

namespace Sys2Proof.Machine

/-! ### Overflow, piece by piece (43_ctr R223, R224) -/

/-- Once a part of a chunk is processed, the rest overflows exactly when the whole would have. -/
theorem StreamUnit.process_overflows {ck : CipherUnit} {cs : StreamUnit} {x : List Byte}
    (hcur : cs.cur ≤ 16) (hx : cs.overflows x.length = false) (n : Nat) :
    (StreamUnit.process ck cs x).2.overflows n = cs.overflows (x.length + n) := by
  cases hwhole : cs.overflows (x.length + n) with
  | false => exact StreamUnit.process_not_overflows x hcur hwhole
  | true =>
    obtain ⟨hctr, -, htcur, hwrapped⟩ := StreamUnit.process_after ck x hcur
    have hlt := be_counter_lt cs.ctr
    have hblocks : cs.newBlocks (x.length + n) =
        cs.newBlocks x.length + (StreamUnit.process ck cs x).2.newBlocks n := by
      rw [StreamUnit.newBlocks_eq, StreamUnit.newBlocks_eq, StreamUnit.newBlocks_eq, htcur]
      split <;> omega
    rw [StreamUnit.overflows_eq_false_iff] at hx
    rw [StreamUnit.overflows_iff, hblocks] at hwhole
    rw [StreamUnit.overflows_iff, hctr, hwrapped, Bool.or_eq_true, decide_eq_true_iff]
    obtain ⟨hneed, hpast⟩ := hwhole
    by_cases hfirst : 1 ≤ cs.newBlocks x.length
    · obtain ⟨hw, hroom⟩ := hx hfirst
      simp only [hw, Bool.false_eq_true, false_or] at hpast ⊢
      omega
    · refine ⟨by omega, ?_⟩
      obtain hw | hpast := hpast
      · exact .inl (.inl hw)
      · exact .inr (by omega)

/-- From the beginning of a stream, a chunk overflows if it has more bytes than the counter has
values for (43_ctr R224). -/
theorem freshStream_overflows {c0 : Vector Byte 16} {n : Nat}
    (h : 16 * (2 ^ 128 - be c0.toList) < n) : (freshStream c0).overflows n = true := by
  have hlt := be_counter_lt c0
  have hctr : (freshStream c0).ctr = c0 := rfl
  rw [StreamUnit.overflows_iff, freshStream_newBlocks, hctr]
  exact ⟨by omega, .inr (by omega)⟩

/-! ### One piece -/

/-- A PUT of the piece and a CTR_PROCESS that the counter has values for. -/
theorem delivers_ctrProcess {s : State} {x : List Byte} (hx : x.length ≤ s.cfg.dmax)
    (hactive : s.cs.active = true) (hroom : s.cs.overflows x.length = false) :
    Delivers s (put x ++ [command .ctrProcess])
      (((s.loaded x).withCs (StreamUnit.process s.ck s.cs x).2).completed
        (StreamUnit.process s.ck s.cs x).1) := by
  have hdlen := State.loaded_dlen_toNat hx
  have hexec := exec_ctrProcess_completes (s := s.loaded x) (hdlen.trans_le hx) hactive
    (by rw [hdlen]; exact hroom)
  rw [s.loaded_dlenOperand hx] at hexec
  exact (Delivers.put hx).append (.command rfl hexec)

theorem exec_ctrProcess_overflows {s : State} (hlength : s.dlen.toNat ≤ s.cfg.dmax)
    (hactive : s.cs.active = true) (hover : s.cs.overflows s.dlen.toNat = true) :
    exec .ctrProcess s = .next (s.withErr .counterOverflow) := by
  rw [exec_ctrProcess, lengthCheck_eq_none.mpr hlength, existsCheck_eq_none.mpr hactive,
    overflowCheck, if_pos hover]
  rfl

/-- A PUT of the piece and a CTR_PROCESS that the counter has no values for. -/
theorem delivers_ctrProcess_overflows {s : State} {x : List Byte} (hx : x.length ≤ s.cfg.dmax)
    (hactive : s.cs.active = true) (hover : s.cs.overflows x.length = true) :
    Delivers s (put x ++ [command .ctrProcess]) ((s.loaded x).withErr .counterOverflow) := by
  have hdlen := State.loaded_dlen_toNat hx
  exact (Delivers.put hx).append (.command rfl (exec_ctrProcess_overflows (hdlen.trans_le hx) hactive
    (by rw [hdlen]; exact hover)))

/-! ### All pieces -/

/-- What a stream makes of a message as one chunk: the output, or the code of CounterOverflow. -/
def StreamUnit.transform (ck : CipherUnit) (cs : StreamUnit) (x : List Byte) :
    Except (BitVec 4) (List Byte) :=
  if cs.overflows x.length then .error 3 else .ok (cs.process ck x).1

theorem StreamUnit.transform_of_overflows {cs : StreamUnit} {x : List Byte} (ck : CipherUnit)
    (h : cs.overflows x.length = true) : cs.transform ck x = .error 3 := if_pos h

theorem StreamUnit.transform_of_room {cs : StreamUnit} {x : List Byte} (ck : CipherUnit)
    (h : cs.overflows x.length = false) : cs.transform ck x = .ok (cs.process ck x).1 :=
  if_neg (by rw [h]; exact Bool.false_ne_true)

/-- After a first part that the counter has values for, the rest decides. -/
theorem StreamUnit.transform_append {cs : StreamUnit} {x : List Byte} (ck : CipherUnit)
    (hcur : cs.cur ≤ 16) (hx : cs.overflows x.length = false) (y : List Byte) :
    cs.transform ck (x ++ y) =
      ((cs.process ck x).2.transform ck y).map ((cs.process ck x).1 ++ ·) := by
  have hrest := StreamUnit.process_overflows (ck := ck) hcur hx y.length
  rw [← List.length_append] at hrest
  cases hwhole : cs.overflows (x ++ y).length with
  | true =>
    rw [hwhole] at hrest
    rw [StreamUnit.transform_of_overflows ck hwhole, StreamUnit.transform_of_overflows ck hrest]
    rfl
  | false =>
    rw [hwhole] at hrest
    rw [StreamUnit.transform_of_room ck hwhole, StreamUnit.transform_of_room ck hrest,
      StreamUnit.process_append]
    rfl

/-- The host stops at a piece that the counter has no values for. -/
theorem ctrPieces_cons_of_overflows {s : State} {x : List Byte} (hx : x.length ≤ s.cfg.dmax)
    (hactive : s.cs.active = true) (hover : s.cs.overflows x.length = true)
    (xs : List (List Byte)) : (ctrPieces (x :: xs) s).2 = .error 3 := by
  obtain ⟨rs, herr⟩ := (delivers_ctrProcess_overflows hx hactive hover).errQuery
  rw [ctrPieces, herr]
  rfl

/-- If a piece reports no error, the host reads its output and goes on. -/
theorem ctrPieces_cons_of_ok {s t u : State} {x y : List Byte}
    (h : (s.deliver (put x ++ [command .ctrProcess])).errQuery = (t, 0)) (hget : t.get = (u, y))
    (xs : List (List Byte)) :
    ctrPieces (x :: xs) s = ((ctrPieces xs u).1, (ctrPieces xs u).2.map (y ++ ·)) := by
  rw [ctrPieces, h]
  dsimp only
  rw [if_neg (not_not.mpr rfl), hget]

/-- A piece that the counter has values for gives its part of the stream. -/
theorem ctrPieces_cons_of_room {s : State} {x : List Byte} (hx : x.length ≤ s.cfg.dmax)
    (hactive : s.cs.active = true) (hroom : s.cs.overflows x.length = false)
    (xs : List (List Byte)) :
    ∃ t : State,
      (ctrPieces (x :: xs) s).2 = (ctrPieces xs t).2.map ((s.cs.process s.ck x).1 ++ ·) ∧
      t.cfg = s.cfg ∧ t.ck = s.ck ∧ t.cs = (s.cs.process s.ck x).2 := by
  have hout : (s.cs.process s.ck x).1.length ≤ s.cfg.dmax := by
    rwa [StreamUnit.length_process]
  obtain ⟨rs, herr⟩ := (delivers_ctrProcess hx hactive hroom).errQuery
  obtain ⟨rs', hget⟩ :=
    State.get_completed ((s.loaded x).withCs (s.cs.process s.ck x).2) hout rs
  exact ⟨_, congrArg Prod.snd (ctrPieces_cons_of_ok herr hget xs), rfl, rfl, rfl⟩

/-- What the host gets for the pieces is what the stream makes of the message as one chunk. -/
theorem ctrPieces_eq_transform (pieces : List (List Byte)) : ∀ {s : State},
    s.cs.active = true → s.cs.cur ≤ 16 → (∀ x ∈ pieces, x.length ≤ s.cfg.dmax) →
    (ctrPieces pieces s).2 = s.cs.transform s.ck pieces.flatten := by
  induction pieces with
  | nil => intro s _ _ _; rfl
  | cons x xs ih =>
    intro s hactive hcur hfit
    obtain ⟨hx, hxs⟩ := List.forall_mem_cons.mp hfit
    rw [List.flatten_cons]
    cases hroom : s.cs.overflows x.length with
    | true =>
      have hwhole : s.cs.overflows (x ++ xs.flatten).length = true := by
        by_contra hne
        have hpart := StreamUnit.overflows_of_le
          (List.length_append ▸ Nat.le_add_right x.length xs.flatten.length)
          (Bool.eq_false_iff.mpr hne)
        exact Bool.false_ne_true (hpart.symm.trans hroom)
      rw [ctrPieces_cons_of_overflows hx hactive hroom,
        StreamUnit.transform_of_overflows _ hwhole]
    | false =>
      obtain ⟨t, hpieces, hcfg, hck, hcs⟩ := ctrPieces_cons_of_room hx hactive hroom xs
      have hrest := ih (s := t) (by rw [hcs, StreamUnit.process_active, hactive])
        (by rw [hcs]; exact StreamUnit.process_cur s.ck x hcur) (by rwa [hcfg])
      rw [hpieces, hrest, hck, hcs, StreamUnit.transform_append s.ck hcur hroom]

/-! ### The whole sequence -/

/-- Whichever way the sequence goes, its last access is the release of the key. -/
theorem aesCtrSequence_fst (key counter m : List Byte) (s : State) :
    ∃ t : State, (aesCtrSequence key counter m s).1 = t.deliver [command (.zeroize 4)] := by
  rw [aesCtrSequence]
  dsimp only
  split_ifs <;> exact ⟨_, rfl⟩

/-- ZEROIZE 4 leaves no schedule and no stream (44_system R240). -/
theorem deliver_zeroize_cipher (s : State) :
    (s.deliver [command (.zeroize 4)]).ck = CipherUnit.wiped ∧
      (s.deliver [command (.zeroize 4)]).cs = StreamUnit.wiped := by
  obtain ⟨rs, hrun⟩ := (Delivers.command rfl (exec_zeroize_completes 4 s)).deliver
  rw [hrun]
  exact ⟨s.zeroizeTargets_ck 4, s.zeroizeTargets_cs 4⟩

/-- A refused key ends the sequence with the code of the refusal. -/
theorem aesCtrSequence_of_keyError {key : List Byte} {s t : State} {e : BitVec 4}
    (h : (s.deliver (putb key ++ [command (.aesSchedule (8 * key.length))])).errQuery = (t, e))
    (he : e ≠ 0) (counter m : List Byte) :
    (aesCtrSequence key counter m s).2 = .error e := by
  rw [aesCtrSequence, h]
  dsimp only
  rw [if_pos he]

/-- With a key and a counter accepted, the sequence returns what the host gets for the pieces. -/
theorem aesCtrSequence_of_ok {key counter : List Byte} {s t u : State}
    (hkey : (s.deliver (putb key ++ [command (.aesSchedule (8 * key.length))])).errQuery = (t, 0))
    (hcounter : (t.deliver (putb counter ++ [command .ctrInit])).errQuery = (u, 0))
    (m : List Byte) :
    (aesCtrSequence key counter m s).2 = (ctrPieces (chunks s.cfg.dmax m) u).2 := by
  rw [aesCtrSequence, hkey]
  dsimp only
  rw [if_neg (not_not.mpr rfl), hcounter]
  dsimp only
  rw [if_neg (not_not.mpr rfl)]

/-- PUTB makes its bytes the operand of a command of fixed length (30_encoding R101). -/
theorem State.operand_putb (s : State) {x : List Byte} (h : x.length ≤ s.cfg.dmax) :
    (s.withMem (s.mem.writeBytes dinBase x)).operand x.length = x := by
  have hload := s.loaded_dlenOperand h
  rwa [State.dlenOperand, State.loaded_dlen_toNat h] at hload

/-- The word of an AES_SCHEDULE for a key that fits the buffer carries its length. -/
theorem aesSchedule_wellFormed {key : List Byte} {s : State} (h : key.length ≤ s.cfg.dmax) :
    (Instr.aesSchedule (8 * key.length)).wellFormed = true := by
  have hd := s.cfg.dmax_upper
  exact decide_eq_true (by omega)

/-- PUTB of a key of one of the three sizes, AES_SCHEDULE and ERR?: no error, and the schedule of the
key. -/
theorem errQuery_aesSchedule {key : List Byte} {s : State} {nk : KeyWords}
    (hfits : key.length ≤ s.cfg.dmax) (hkey : keyWordsOf (8 * key.length) = some nk) :
    ∃ t : State,
      (s.deliver (putb key ++ [command (.aesSchedule (8 * key.length))])).errQuery = (t, 0) ∧
      t.cfg = s.cfg ∧ t.ck = scheduleOf nk key := by
  have hbytes : 4 * nk.count = key.length := by
    obtain ⟨-, hcount⟩ := keyWordsOf_count hkey
    omega
  have hexec := exec_aesSchedule_completes hkey (s.withMem (s.mem.writeBytes dinBase key))
  rw [hbytes, s.operand_putb hfits] at hexec
  obtain ⟨rs, herr⟩ := ((Delivers.putb hfits).append
    (.command (aesSchedule_wellFormed hfits) hexec)).errQuery
  exact ⟨_, herr, rfl, rfl⟩

/-- PUTB of a counter, CTR_INIT under a schedule and ERR?: no error, and a stream at its
beginning. -/
theorem errQuery_ctrInit {counter : List Byte} {s : State} (hfits : counter.length ≤ s.cfg.dmax)
    (hcounter : counter.length = 16) (hvalid : s.ck.valid = true) :
    ∃ t : State, (s.deliver (putb counter ++ [command .ctrInit])).errQuery = (t, 0) ∧
      t.cfg = s.cfg ∧ t.ck = s.ck ∧ t.cs = freshStream (padTo 16 counter) := by
  have hexec := exec_ctrInit_completes (s := s.withMem (s.mem.writeBytes dinBase counter)) hvalid
  have hoperand := s.operand_putb hfits
  rw [hcounter] at hoperand
  rw [hoperand] at hexec
  obtain ⟨rs, herr⟩ := ((Delivers.putb hfits).append (.command rfl hexec)).errQuery
  exact ⟨_, herr, rfl, rfl, rfl⟩

/-- A key of a wrong size is refused. -/
theorem aesCtrSequence_of_wrongKeySize {key : List Byte} {s : State}
    (hfits : key.length ≤ s.cfg.dmax) (hkey : keyWordsOf (8 * key.length) = none)
    (counter m : List Byte) : (aesCtrSequence key counter m s).2 = .error 1 := by
  have hexec := exec_aesSchedule_of_none hkey (s.withMem (s.mem.writeBytes dinBase key))
  obtain ⟨rs, herr⟩ := ((Delivers.putb hfits).append
    (.command (aesSchedule_wellFormed hfits) hexec)).errQuery
  exact aesCtrSequence_of_keyError (e := 1) herr (by decide) counter m

/-- With a key of one of the three sizes, the sequence returns what a stream from its beginning makes
of the message as one chunk. -/
theorem aesCtrSequence_of_key {key counter : List Byte} {s : State} {nk : KeyWords}
    (hfits : key.length ≤ s.cfg.dmax) (hcounter : counter.length = 16)
    (hkey : keyWordsOf (8 * key.length) = some nk) (m : List Byte) :
    (aesCtrSequence key counter m s).2 =
      (freshStream (padTo 16 counter)).transform (scheduleOf nk key) m := by
  obtain ⟨t, hscheduled, hcfg, hck⟩ := errQuery_aesSchedule hfits hkey
  have hroom : counter.length ≤ t.cfg.dmax := by
    have := t.cfg.dmax_lower
    omega
  obtain ⟨u, hstarted, hucfg, huck, hucs⟩ :=
    errQuery_ctrInit hroom hcounter (by rw [hck]; rfl)
  have hfit : ∀ x ∈ chunks s.cfg.dmax m, x.length ≤ u.cfg.dmax := by
    rw [hucfg, hcfg]
    exact chunks_fit s m
  rw [aesCtrSequence_of_ok hscheduled hstarted,
    ctrPieces_eq_transform _ (by rw [hucs]; rfl) (by rw [hucs]; exact le_rfl) hfit, hucs, huck, hck,
    chunks_flatten]

/-- Settles O54: the stream of the message in closed form, the codes of the two failures, and the
release at the end. -/
theorem aesCtrSequenceTransformsAndReleases :
    Obligations.AesCtrSequenceTransformsAndReleases := by
  intro key counter m s hfits hcounter
  have hctr : (padTo 16 counter).toList = counter := padTo_toList_of_length hcounter
  obtain ⟨t, hreleased⟩ := aesCtrSequence_fst key counter m s
  obtain ⟨hck, hcs⟩ := deliver_zeroize_cipher t
  refine ⟨fun nk hkey hbound => ?_, fun nk hkey hbound => ?_,
    fun hkey => aesCtrSequence_of_wrongKeySize hfits hkey counter m,
    by rw [hreleased, hck], by rw [hreleased, hcs]⟩
  · rw [← hctr] at hbound
    obtain ⟨hclosed, -⟩ := streamFollowsClosedForm (scheduleOf nk key) _ m hbound
    rw [aesCtrSequence_of_key hfits hcounter hkey,
      StreamUnit.transform_of_room _ (freshStream_not_overflows hbound), hclosed, hctr]
  · rw [← hctr] at hbound
    rw [aesCtrSequence_of_key hfits hcounter hkey,
      StreamUnit.transform_of_overflows _ (freshStream_overflows hbound)]

end Sys2Proof.Machine

/-!
SUPPORT and the proofs of O6 and O16 to O22 (30_encoding R96, R97, 60_exceptions R261 to R268):
which error a command reports, and that an error changes nothing else.

The idea: the checks of every command find the first of its causes of error in the order of R267
(`exec_eq_checkedEnding_firstCause`). So a command either takes that error in the state before it,
or has no cause and completes (`exec_outcome`), and which code it reports is read off the list of
causes: one `↔` per code, and the commands that can have that cause.
-/

namespace Sys2Proof.Machine

/-! ### The first cause of error (60_exceptions R267) -/

/-- The first cause of error that holds, if any. -/
def firstCause (i : Instr) (s : State) : Option ErrCode :=
  ((errorCauses i s).find? fun c => c.1).map fun c => c.2

theorem reportedError_eq_getD (i : Instr) (s : State) :
    reportedError i s = (firstCause i s).getD .ok := rfl

/-- The error of one cause, when it holds. -/
def causeError (holds : Bool) (e : ErrCode) : Option ErrCode := if holds then some e else none

@[simp] theorem causeError_false (e : ErrCode) : causeError false e = none := rfl
@[simp] theorem causeError_true (e : ErrCode) : causeError true e = some e := rfl

theorem causeError_eq_none {b : Bool} {e : ErrCode} : causeError b e = none ↔ b = false := by
  cases b <;> simp

theorem causeError_eq_some {b : Bool} {e e' : ErrCode} :
    causeError b e = some e' ↔ b = true ∧ e = e' := by
  cases b <;> simp

theorem find_cause_cons (b : Bool) (e : ErrCode) (cs : List (Bool × ErrCode)) :
    (((b, e) :: cs).find? fun c => c.1).map (fun c => c.2) =
      (causeError b e).or ((cs.find? fun c => c.1).map fun c => c.2) := by
  cases b <;> rfl

/-- The causes one after the other, as the checks of a command stand. -/
theorem firstCause_eq_or (i : Instr) (s : State) :
    firstCause i s =
      (causeError (takesLength i && decide (s.dlen.toNat > s.cfg.dmax)) .invalidLength).or
        ((causeError (wrongKeySize i) .invalidKeySize).or
          ((causeError (lacksContext i s) .noState).or
            ((causeError (reusesFinal i s) .invalidStateReuse).or
              ((causeError (passesLastCounter i s) .counterOverflow).or
                (causeError (reachesLimit i s) .invalidLength))))) := by
  simp only [firstCause, errorCauses, find_cause_cons, List.find?_nil, Option.map_none,
    Option.or_none]

/-! ### Each check finds its cause -/

theorem lengthCheck_eq_causeError (s : State) :
    lengthCheck s = causeError (decide (s.dlen.toNat > s.cfg.dmax)) .invalidLength := by
  simp only [lengthCheck, causeError, decide_eq_true_iff]

theorem limitCheck_eq_causeError (limit total : Nat) (s : State) :
    limitCheck limit total s = causeError (decide (total + s.dlen.toNat ≥ limit)) .invalidLength := by
  simp only [limitCheck, causeError, decide_eq_true_iff]

theorem existsCheck_eq_causeError (flag : Bool) :
    existsCheck flag = causeError (!flag) .noState := by
  cases flag <;> rfl

/-- A context is EMPTY, or FINAL, or usable. -/
theorem phaseCheck_eq_causeError (p : Phase) :
    phaseCheck p =
      (causeError (p == .empty) .noState).or (causeError (p == .final) .invalidStateReuse) := by
  cases p <;> rfl

/-- A chunk is turned away for its length in bytes: it is longer than what is left of the block, and
the flag is up or it needs more than 16 bytes for each counter value left (43_ctr R224). -/
theorem StreamUnit.overflows_iff_bytes {cs : StreamUnit} {n : Nat} :
    cs.overflows n = true ↔
      16 - cs.cur < n ∧
        (cs.wrapped = true ∨ 16 * (2 ^ 128 - be cs.ctr.toList) + (16 - cs.cur) < n) := by
  have hlt := be_counter_lt cs.ctr
  rw [StreamUnit.overflows_iff, StreamUnit.newBlocks_eq]
  constructor
  · rintro ⟨hneed, hpast⟩
    exact ⟨by omega, hpast.imp_right fun _ => by omega⟩
  · rintro ⟨hneed, hpast⟩
    exact ⟨by omega, hpast.imp_right fun _ => by omega⟩

/-- The cause of R263 is the check of R223. -/
theorem passesLastCounter_ctrProcess (s : State) :
    passesLastCounter .ctrProcess s = s.cs.overflows s.dlen.toNat := by
  rw [Bool.eq_iff_iff, StreamUnit.overflows_iff, StreamUnit.newBlocks_eq, passesLastCounter,
    Bool.and_eq_true, Bool.or_eq_true, decide_eq_true_iff, decide_eq_true_iff]
  exact and_congr_left fun _ => by omega

theorem overflowCheck_eq_causeError (s : State) :
    overflowCheck s = causeError (passesLastCounter .ctrProcess s) .counterOverflow := by
  rw [passesLastCounter_ctrProcess]
  rfl

/-! ### The checks of a command find its first cause -/

theorem firstCause_hashInit (alg : HashAlg) (s : State) : firstCause (.hashInit alg) s = none := rfl

theorem firstCause_hashUpdate (s : State) :
    firstCause .hashUpdate s =
      (lengthCheck s).or ((phaseCheck s.hs.phase).or
        (limitCheck (lengthLimit s.hs.alg) s.hs.ctx.total s)) := by
  rw [firstCause_eq_or, lengthCheck_eq_causeError, phaseCheck_eq_causeError, Option.or_assoc,
    limitCheck_eq_causeError]
  rfl

theorem firstCause_hashFinal (s : State) : firstCause .hashFinal s = phaseCheck s.hs.phase := by
  rw [firstCause_eq_or, phaseCheck_eq_causeError]
  exact congrArg (Option.or (causeError (s.hs.phase == .empty) .noState)) Option.or_none

theorem firstCause_hmacInit (alg : HashAlg) (s : State) :
    firstCause (.hmacInit alg) s = lengthCheck s := by
  rw [firstCause_eq_or, lengthCheck_eq_causeError]
  exact Option.or_none

theorem firstCause_hmacUpdate (s : State) :
    firstCause .hmacUpdate s =
      (lengthCheck s).or ((phaseCheck s.hm.phase).or
        (limitCheck (lengthLimit s.hm.alg) s.hm.inner.total s)) := by
  rw [firstCause_eq_or, lengthCheck_eq_causeError, phaseCheck_eq_causeError, Option.or_assoc,
    limitCheck_eq_causeError]
  rfl

theorem firstCause_hmacFinal (s : State) : firstCause .hmacFinal s = phaseCheck s.hm.phase := by
  rw [firstCause_eq_or, phaseCheck_eq_causeError]
  exact congrArg (Option.or (causeError (s.hm.phase == .empty) .noState)) Option.or_none

theorem firstCause_aesSchedule (kbits : Nat) (s : State) :
    firstCause (.aesSchedule kbits) s =
      causeError (wrongKeySize (.aesSchedule kbits)) .invalidKeySize := by
  rw [firstCause_eq_or]
  exact Option.or_none

theorem wrongKeySize_aesSchedule {kbits : Nat} :
    wrongKeySize (.aesSchedule kbits) = true ↔ keyWordsOf kbits = none := by
  rw [keyWordsOf_eq_none]
  simp [wrongKeySize, and_assoc]

theorem firstCause_aesEncrypt (s : State) : firstCause .aesEncrypt s = existsCheck s.ck.valid := by
  rw [firstCause_eq_or, existsCheck_eq_causeError]
  exact Option.or_none

theorem firstCause_ctrInit (s : State) : firstCause .ctrInit s = existsCheck s.ck.valid := by
  rw [firstCause_eq_or, existsCheck_eq_causeError]
  exact Option.or_none

theorem firstCause_ctrProcess (s : State) :
    firstCause .ctrProcess s =
      (lengthCheck s).or ((existsCheck s.cs.active).or (overflowCheck s)) := by
  rw [firstCause_eq_or, lengthCheck_eq_causeError, existsCheck_eq_causeError,
    overflowCheck_eq_causeError]
  exact congrArg (fun c => Option.or _ (Option.or _ c)) Option.or_none

theorem firstCause_zeroize (zmask : BitVec 5) (s : State) :
    firstCause (.zeroize zmask) s = none := rfl

/-- Every command ends as its first cause of error says (30_encoding R96, 60_exceptions R267). -/
theorem exec_eq_checkedEnding_firstCause (i : Instr) (s : State) :
    ∃ out s', exec i s = checkedEnding (firstCause i s) out s s' := by
  cases i with
  | hashInit alg => exact ⟨_, _, exec_hashInit alg s⟩
  | hashUpdate => rw [firstCause_hashUpdate]; exact ⟨_, _, exec_hashUpdate s⟩
  | hashFinal => rw [firstCause_hashFinal]; exact ⟨_, _, exec_hashFinal s⟩
  | hmacInit alg => rw [firstCause_hmacInit]; exact ⟨_, _, exec_hmacInit alg s⟩
  | hmacUpdate => rw [firstCause_hmacUpdate]; exact ⟨_, _, exec_hmacUpdate s⟩
  | hmacFinal => rw [firstCause_hmacFinal]; exact ⟨_, _, exec_hmacFinal s⟩
  | aesSchedule kbits =>
    rw [firstCause_aesSchedule]
    cases hk : keyWordsOf kbits with
    | none =>
      rw [wrongKeySize_aesSchedule.mpr hk]
      exact ⟨_, _, exec_aesSchedule_of_none hk s⟩
    | some nk =>
      have hw : wrongKeySize (.aesSchedule kbits) = false := by
        rw [← Bool.not_eq_true, wrongKeySize_aesSchedule, hk]
        exact Option.some_ne_none nk
      rw [hw]
      exact ⟨_, _, exec_aesSchedule_of_some hk s⟩
  | aesEncrypt => rw [firstCause_aesEncrypt]; exact ⟨_, _, exec_aesEncrypt s⟩
  | ctrInit => rw [firstCause_ctrInit]; exact ⟨_, _, exec_ctrInit s⟩
  | ctrProcess => rw [firstCause_ctrProcess]; exact ⟨_, _, exec_ctrProcess s⟩
  | zeroize zmask => exact ⟨_, _, exec_zeroize zmask s⟩

/-! ### What a command reports -/

/-- A command takes its first cause of error and changes nothing else, or has none and completes
(60_exceptions R267, R268). -/
theorem exec_outcome {i : Instr} {s t : State} (h : exec i s = .next t) :
    (∃ e, firstCause i s = some e ∧ t = s.withErr e) ∨ firstCause i s = none ∧ t.err = .ok := by
  obtain ⟨out, s', hexec⟩ := exec_eq_checkedEnding_firstCause i s
  obtain herr | ⟨hc, rfl⟩ := checked_next.mp (hexec.symm.trans h)
  · exact .inl herr
  · exact .inr ⟨hc, rfl⟩

theorem exec_err {i : Instr} {s t : State} (h : exec i s = .next t) :
    t.err = reportedError i s := by
  rw [reportedError_eq_getD]
  obtain ⟨e, hc, rfl⟩ | ⟨hc, hok⟩ := exec_outcome h
  · rw [hc]; rfl
  · rw [hc]; exact hok

/-- A code other than OK is reported exactly as the first cause of error. -/
theorem exec_err_eq_iff {i : Instr} {s t : State} {e : ErrCode} (h : exec i s = .next t)
    (he : e ≠ .ok) : t.err = e ↔ firstCause i s = some e := by
  rw [exec_err h, reportedError_eq_getD]
  cases firstCause i s <;> simp [he.symm]

theorem exec_withErr_of_err_ne_ok {i : Instr} {s t : State} (h : exec i s = .next t)
    (he : t.err ≠ .ok) : t = s.withErr t.err := by
  obtain ⟨e, -, rfl⟩ | ⟨-, hok⟩ := exec_outcome h
  · rfl
  · exact absurd hok he

/-! ### Which causes stand behind each code -/

/-- Cause (a) of 60_exceptions R265, which comes before every other. -/
def exceedsBuffer (i : Instr) (s : State) : Prop :=
  takesLength i = true ∧ s.cfg.dmax < s.dlen.toNat

theorem exceedsBuffer_iff {i : Instr} {s : State} :
    (takesLength i && decide (s.dlen.toNat > s.cfg.dmax)) = true ↔ exceedsBuffer i s := by
  rw [Bool.and_eq_true, decide_eq_true_iff]
  rfl

/-- An error is the first cause when its own cause holds and none of those before it. -/
theorem firstCause_eq_some {i : Instr} {s : State} {e : ErrCode} :
    firstCause i s = some e ↔
      (exceedsBuffer i s ∧ .invalidLength = e) ∨
      ¬ exceedsBuffer i s ∧
        ((wrongKeySize i = true ∧ .invalidKeySize = e) ∨ wrongKeySize i = false ∧
        ((lacksContext i s = true ∧ .noState = e) ∨ lacksContext i s = false ∧
        ((reusesFinal i s = true ∧ .invalidStateReuse = e) ∨ reusesFinal i s = false ∧
        ((passesLastCounter i s = true ∧ .counterOverflow = e) ∨ passesLastCounter i s = false ∧
        reachesLimit i s = true ∧ .invalidLength = e)))) := by
  simp only [firstCause_eq_or, Option.or_eq_some_iff, causeError_eq_some, causeError_eq_none,
    ← exceedsBuffer_iff, Bool.not_eq_true]

theorem firstCause_ne_illegalCommand (i : Instr) (s : State) :
    firstCause i s ≠ some .illegalCommand := by
  simp [firstCause_eq_some]

theorem firstCause_eq_invalidKeySize {i : Instr} {s : State} :
    firstCause i s = some .invalidKeySize ↔ ¬ exceedsBuffer i s ∧ wrongKeySize i = true := by
  simp [firstCause_eq_some]

theorem firstCause_eq_noState {i : Instr} {s : State} :
    firstCause i s = some .noState ↔
      ¬ exceedsBuffer i s ∧ wrongKeySize i = false ∧ lacksContext i s = true := by
  simp [firstCause_eq_some]

/-- A context in phase FINAL is not in phase EMPTY. -/
theorem lacksContext_of_reusesFinal {i : Instr} {s : State} (h : reusesFinal i s = true) :
    lacksContext i s = false := by
  cases i with
  | hashUpdate | hashFinal | hmacUpdate | hmacFinal =>
    rw [lacksContext, eq_of_beq h]
    rfl
  | _ => contradiction

theorem firstCause_eq_invalidStateReuse {i : Instr} {s : State} :
    firstCause i s = some .invalidStateReuse ↔
      ¬ exceedsBuffer i s ∧ wrongKeySize i = false ∧ reusesFinal i s = true := by
  simpa [firstCause_eq_some] using fun _ _ => lacksContext_of_reusesFinal

theorem firstCause_eq_counterOverflow {i : Instr} {s : State} :
    firstCause i s = some .counterOverflow ↔
      ¬ exceedsBuffer i s ∧ wrongKeySize i = false ∧ lacksContext i s = false ∧
        reusesFinal i s = false ∧ passesLastCounter i s = true := by
  simp [firstCause_eq_some]

theorem firstCause_eq_invalidLength {i : Instr} {s : State} :
    firstCause i s = some .invalidLength ↔
      exceedsBuffer i s ∨ wrongKeySize i = false ∧ lacksContext i s = false ∧
        reusesFinal i s = false ∧ passesLastCounter i s = false ∧ reachesLimit i s = true := by
  by_cases h : exceedsBuffer i s <;> simp [firstCause_eq_some, h]

theorem exceedsBuffer_iff_command {i : Instr} {s : State} :
    exceedsBuffer i s ↔
      (i = .hashUpdate ∨ (∃ alg, i = .hmacInit alg) ∨ i = .hmacUpdate ∨ i = .ctrProcess) ∧
        s.cfg.dmax < s.dlen.toNat := by
  cases i <;> simp [exceedsBuffer, takesLength]

theorem Phase.eq_active_iff {p : Phase} : p = .active ↔ p ≠ .empty ∧ p ≠ .final := by
  cases p <;> simp

/-! ### The statements -/

/-- Settles O16: a word that is no command writes ERR and nothing else, and so does a command that
reports an error. -/
theorem failingCommandChangesOnlyErr : Obligations.FailingCommandChangesOnlyErr := by
  refine ⟨fun w s t h he => ?_, fun i s t => exec_withErr_of_err_ne_ok⟩
  cases hw : decode w with
  | error e =>
    rw [executeWord_illegal hw] at h
    obtain rfl := Host.Outcome.next.inj h
    rfl
  | ok i =>
    rw [executeWord_legal hw] at h
    exact exec_withErr_of_err_ne_ok h he

/-- Settles O6: serving a write of CMD executes the word, and IllegalCommand is none of the causes
of error of a command. -/
theorem illegalWordChangesOnlyErr : Obligations.IllegalWordChangesOnlyErr := by
  refine ⟨fun s w e rest hm hw => ?_, fun i s t h he => ?_⟩
  · rw [step_serves hm, serve, serveWrite32_cmd, executeWord_illegal hw]
  · exact firstCause_ne_illegalCommand i s ((exec_err_eq_iff h (by decide)).mp he)

/-- Settles O17: the checks of a command find its first cause. -/
theorem firstCauseOfErrorIsReported : Obligations.FirstCauseOfErrorIsReported := by
  refine ⟨fun w e s hw => ⟨_, executeWord_illegal hw s, rfl⟩, fun w i s hw => ?_⟩
  obtain ⟨t, ht⟩ := exec_goesOn i s
  exact ⟨t, (executeWord_legal hw s).trans ht, exec_err ht⟩

/-- Settles O18: the one check of AES_SCHEDULE is that of its key length, and no other command has
that cause. -/
theorem invalidKeySizeExactlyForOtherKeyLengths :
    Obligations.InvalidKeySizeExactlyForOtherKeyLengths := by
  refine ⟨fun kbits s h128 h192 h256 => ?_, fun i s t h he => ?_⟩
  · exact exec_aesSchedule_of_none (keyWordsOf_eq_none.mpr ⟨h128, h192, h256⟩) s
  · rw [exec_err_eq_iff h (by decide), firstCause_eq_invalidKeySize] at he
    obtain ⟨-, hw⟩ := he
    cases i with
    | aesSchedule kbits =>
      exact ⟨kbits, rfl, keyWordsOf_eq_none.mp (wrongKeySize_aesSchedule.mp hw)⟩
    | _ => contradiction

/-- Settles O19: the commands that use a finalised context again are the two of each engine, and an
INIT has no such check. -/
theorem invalidStateReuseExactlyAfterFinal : Obligations.InvalidStateReuseExactlyAfterFinal := by
  refine ⟨fun i s t h => ?_, fun alg s => ⟨fun _ => ?_, fun _ hlength => ?_⟩⟩
  · rw [exec_err_eq_iff h (by decide), firstCause_eq_invalidStateReuse]
    cases i with
    | hashUpdate | hashFinal | hmacUpdate | hmacFinal =>
      simp [exceedsBuffer_iff_command, wrongKeySize, reusesFinal]
    | _ => simp [reusesFinal]
  · exact ⟨_, exec_hashInit_completes alg s, rfl, rfl⟩
  · exact ⟨_, exec_hmacInit_completes alg hlength, rfl, rfl⟩

/-- Settles O20: the commands that can lack a context are the two of each hash engine, AES_ENCRYPT
and the two of the stream; of these the length-taking ones check DLEN first. -/
theorem noStateExactlyWithoutContext : Obligations.NoStateExactlyWithoutContext := by
  intro i s t h
  rw [exec_err_eq_iff h (by decide), firstCause_eq_noState]
  cases i with
  | hashUpdate | hashFinal | hmacUpdate | hmacFinal | aesEncrypt | ctrInit | ctrProcess =>
    simp [exceedsBuffer_iff_command, wrongKeySize, lacksContext]
  | _ => simp [lacksContext]

/-- Settles O21: only CTR_PROCESS has the cause, whose blocks are counted here as bytes; as an error
it changes nothing but ERR. -/
theorem counterOverflowExactlyPastLastCounter :
    Obligations.CounterOverflowExactlyPastLastCounter := by
  intro i s t h
  constructor
  · rw [exec_err_eq_iff h (by decide), firstCause_eq_counterOverflow]
    cases i with
    | ctrProcess =>
      rw [passesLastCounter_ctrProcess, StreamUnit.overflows_iff_bytes]
      simp [exceedsBuffer_iff_command, wrongKeySize, lacksContext, reusesFinal]
    | _ => simp [passesLastCounter]
  · intro he
    rw [← he]
    exact exec_withErr_of_err_ne_ok h (by simp [he])

/-- Settles O22: DLEN above the buffer comes first; the bound is the last check of an UPDATE, whose
context is then neither EMPTY nor FINAL. -/
theorem invalidLengthExactlyPastBufferOrBound :
    Obligations.InvalidLengthExactlyPastBufferOrBound := by
  intro i s t h
  rw [exec_err_eq_iff h (by decide), firstCause_eq_invalidLength, exceedsBuffer_iff_command]
  cases i with
  | hashUpdate | hmacUpdate =>
    simp [wrongKeySize, lacksContext, reusesFinal, passesLastCounter, reachesLimit,
      Phase.eq_active_iff, and_assoc]
  | _ => simp [reachesLimit]

end Sys2Proof.Machine

/-!
SUPPORT and the proofs of O35, O37, O13 and O14 (70_reset R300 to R302, R310): reset, ZEROIZE 31 and
the commands that wipe DIN.

The idea of O35: every listed cell of a state that the invariant admits lies in one of the two
buffers, so once both are wiped no cell is listed, and ZEROIZE 31 is the reset step
(`exec_zeroize_all`). The idea of O37: an error taken leaves all cells, and a result goes to DOUT,
which does not meet DIN; so what a command does to DIN is what its effect does to it.
-/

namespace Sys2Proof.Machine

/-! ### The reset state and the reset step (70_reset R300, R301) -/

theorem HashWords.eq_zero_of_mem_zero {w : Nat} {x : BitVec w}
    (h : x ∈ (HashWords.zero w).toList) : x = 0 :=
  List.eq_of_mem_replicate (n := 8) h

theorem statusWord_reset : statusWord State.reset = 0 := by decide

/-- Settles O13: words, buffers, schedule and blocks are repetitions of zero. -/
theorem resetStateIsAllZero : Obligations.ResetStateIsAllZero :=
  ⟨rfl, rfl, rfl, fun _ => ⟨rfl, rfl⟩,
    rfl, rfl, fun _ => HashWords.eq_zero_of_mem_zero, fun _ => eq_zero_of_mem_replicate_toList, rfl,
    rfl, rfl, rfl, rfl,
    rfl, rfl, fun _ => eq_zero_of_mem_replicate_toList,
    rfl, fun _ => eq_zero_of_mem_replicate_toList, fun _ => eq_zero_of_mem_replicate_toList, rfl,
    rfl, statusWord_reset⟩

theorem step_reset {s : State} {rest : List HostMove} (h : s.moves = .reset :: rest) :
    step s = .next (s.withMoves rest).resetStep := step_serves h

/-- Settles O14: the step is the reset step, which writes the state of State.reset. -/
theorem resetStepRestoresResetValues : Obligations.ResetStepRestoresResetValues := by
  intro s rest h
  exact ⟨_, step_reset h, rfl, rfl, rfl, fun _ => rfl, rfl, rfl, rfl, rfl, rfl, rfl, rfl⟩

/-! ### ZEROIZE 31 (70_reset R302) -/

/-- Every listed cell is a cell of DIN or of DOUT, so the two wipes leave none. -/
theorem Invariant.wiped_buffers {s : State} (h : Invariant s) :
    (s.mem.wipe dinBase s.cfg.dmax).wipe doutBase s.cfg.dmax = [] := by
  refine List.eq_nil_iff_forall_not_mem.mpr fun c hc => ?_
  obtain ⟨hleft, hdout⟩ := Memory.mem_wipe hc
  obtain ⟨hlisted, hdin⟩ := Memory.mem_wipe hleft
  obtain ⟨hlow, hhigh⟩ | ⟨hlow, hhigh⟩ := h.implemented c hlisted
  · omega
  · omega

theorem Invariant.zeroizeAll_mem {s : State} (h : Invariant s) :
    ((s.zeroizeTargets 31).completed []).mem = [] := by
  rw [State.completed_mem, State.zeroizeTargets_mem, State.zeroizeTargets_cfg, if_pos (by decide),
    List.take_nil]
  exact h.wiped_buffers

/-- ZEROIZE 31 does what the reset step does. -/
theorem exec_zeroize_all {s : State} (h : Invariant s) :
    exec (.zeroize 31) s = .next s.resetStep := by
  obtain ⟨t, ht, hdone, hhs, hhm, hck, hcs, hdlen, hport, -⟩ := zeroizeWipesExactlyItsTargets 31 s
  have hmem : t.mem = [] := by
    obtain rfl := Host.Outcome.next.inj (ht.symm.trans (exec_zeroize_completes 31 s))
    exact h.zeroizeAll_mem
  have hreset : t = s.resetStep :=
    State.resetStep_of_fields hport.cfg hdone.err hdlen (BitVec.eq_of_toNat_eq hdone.dolen) hmem
      hhs hhm hck hcs hport.moves hport.replies
  rw [ht, hreset]

/-- Settles O35: the state after ZEROIZE 31 is the one after the reset step. -/
theorem zeroizeAllEqualsReset : Obligations.ZeroizeAllEqualsReset := by
  intro s h
  exact ⟨s.resetStep, exec_zeroize_all h, rfl, rfl, rfl, rfl, rfl, rfl, rfl, rfl⟩

/-! ### What a command does to its operand (10_state R25, R27, 70_reset R310) -/

/-- DIN lies below DOUT. -/
theorem not_inDout_din {s : State} {j : Nat} (h : j < s.cfg.dmax) : ¬ InDout s (dinBase + j) := by
  have hupper := s.cfg.dmax_upper
  unfold InDout dinBase doutBase
  omega

/-- DLEN and every cell of DIN are as before. -/
def State.SameOperand (s t : State) : Prop :=
  t.dlen = s.dlen ∧ ∀ j, j < s.cfg.dmax → t.din j = s.din j

theorem State.SameOperand.of_onlyDout {s t : State} (hdlen : t.dlen = s.dlen)
    (hcells : OnlyDoutChanged s t) : s.SameOperand t :=
  ⟨hdlen, fun _ hj => hcells _ (not_inDout_din hj)⟩

/-- A command whose effect leaves DLEN and the cells alone keeps its operand, whichever way it
ends. -/
theorem checkedEnding_sameOperand {c : Option ErrCode} {out : List Byte} {s s' t : State}
    (h : checkedEnding c out s s' = .next t) (hcfg : s'.cfg = s.cfg) (hdlen : s'.dlen = s.dlen)
    (hmem : s'.mem = s.mem) : s.SameOperand t := by
  obtain ⟨e, -, rfl⟩ | ⟨-, rfl⟩ := checked_next.mp h
  · exact ⟨rfl, fun _ _ => rfl⟩
  · refine .of_onlyDout hdlen fun a ha => ?_
    rw [← hmem]
    exact s'.completed_onlyDout out a (by rwa [InDout, hcfg])

/-- The command has completed, DLEN is as before and every cell of DIN reads 0. -/
def State.OperandWiped (s t : State) : Prop :=
  t.err = .ok ∧ t.dlen = s.dlen ∧ ∀ j, j < s.cfg.dmax → t.din j = 0

/-- A command whose effect ends with the wipe of DIN keeps its operand as an error, and leaves DIN
zero as it completes. -/
theorem checkedEnding_wipeDin {c : Option ErrCode} {out : List Byte} {s s' t : State}
    (h : checkedEnding c out s s'.wipeDin = .next t) (hcfg : s'.cfg = s.cfg)
    (hdlen : s'.dlen = s.dlen) : s.SameOperand t ∨ s.OperandWiped t := by
  obtain ⟨e, -, rfl⟩ | ⟨-, rfl⟩ := checked_next.mp h
  · exact .inl ⟨rfl, fun _ _ => rfl⟩
  · obtain ⟨hdin, -⟩ := s'.wipeDin_completed_dinWiped out
    exact .inr ⟨rfl, hdlen, fun j hj => hdin j (hcfg ▸ hj)⟩

/-- ZEROIZE wipes DIN and DLEN together, or neither. -/
theorem exec_zeroize_operand {m : BitVec 5} {s t : State} (h : exec (.zeroize m) s = .next t) :
    s.SameOperand t ∨
      t.err = .ok ∧ t.dlen = 0 ∧ (∀ j, j < s.cfg.dmax → t.din j = 0) ∧ m.getLsbD 4 = true := by
  obtain ⟨u, hu, hdone, -, -, -, -, hdlen, -, hcells⟩ := zeroizeWipesExactlyItsTargets m s
  obtain rfl := Host.Outcome.next.inj (hu.symm.trans h)
  split_ifs at hdlen hcells with hbit
  · exact .inr ⟨hdone.err, hdlen, hcells.1, hbit⟩
  · exact .inl (.of_onlyDout hdlen hcells)

/-- Settles O37: only HMAC_INIT, AES_SCHEDULE and ZEROIZE have an effect on the operand. -/
theorem dinAndDlenChangeOnlyByWipes : Obligations.DinAndDlenChangeOnlyByWipes := by
  intro i s t h
  cases i with
  | hashInit alg =>
    exact .inl (checkedEnding_sameOperand ((exec_hashInit alg s).symm.trans h) rfl rfl rfl)
  | hashUpdate =>
    exact .inl (checkedEnding_sameOperand ((exec_hashUpdate s).symm.trans h) rfl rfl rfl)
  | hashFinal =>
    exact .inl (checkedEnding_sameOperand ((exec_hashFinal s).symm.trans h) rfl rfl rfl)
  | hmacUpdate =>
    exact .inl (checkedEnding_sameOperand ((exec_hmacUpdate s).symm.trans h) rfl rfl rfl)
  | hmacFinal =>
    exact .inl (checkedEnding_sameOperand ((exec_hmacFinal s).symm.trans h) rfl rfl rfl)
  | aesEncrypt =>
    exact .inl (checkedEnding_sameOperand ((exec_aesEncrypt s).symm.trans h) rfl rfl rfl)
  | ctrInit =>
    exact .inl (checkedEnding_sameOperand ((exec_ctrInit s).symm.trans h) rfl rfl rfl)
  | ctrProcess =>
    exact .inl (checkedEnding_sameOperand ((exec_ctrProcess s).symm.trans h) rfl rfl rfl)
  | hmacInit alg =>
    obtain hsame | ⟨herr, hdlen, hdin⟩ :=
      checkedEnding_wipeDin ((exec_hmacInit alg s).symm.trans h) rfl rfl
    · exact .inl hsame
    · exact .inr (.inl ⟨herr, hdlen, hdin, .inl ⟨alg, rfl⟩⟩)
  | aesSchedule kbits =>
    cases hk : keyWordsOf kbits with
    | none =>
      rw [exec_aesSchedule_of_none hk] at h
      exact .inl (checkedEnding_sameOperand h rfl rfl rfl)
    | some nk =>
      rw [exec_aesSchedule_of_some hk] at h
      obtain hsame | ⟨herr, hdlen, hdin⟩ := checkedEnding_wipeDin h rfl rfl
      · exact .inl hsame
      · exact .inr (.inl ⟨herr, hdlen, hdin, .inr ⟨kbits, rfl⟩⟩)
  | zeroize m =>
    obtain hsame | ⟨herr, hdlen, hdin, hbit⟩ := exec_zeroize_operand h
    · exact .inl hsame
    · exact .inr (.inr ⟨herr, hdlen, hdin, m, rfl, hbit⟩)

end Sys2Proof.Machine
